-- ==== Sys2Proof/Word.lean ====
section
/-! DEFINITION. The word types of the ACU (00_scope.md R11, R12): what the spec treats as bits. -/

namespace Sys2Proof

/-- A 64-bit value: a register, `wdata`, `rdata`; the document's `u64` and `i64` (R7, R12, R21). -/
abbrev Word := BitVec 64

/-- One byte: a cell of the string buffer, a character of a string (R14), an 8-bit fault code (R24). -/
abbrev Byte := BitVec 8

/-- A 32-bit command word (30_encoding.md R60). -/
abbrev Cmd := BitVec 32

end Sys2Proof
end

