-- ==== Sys2Proof/Config.lean ====
section
/-! DEFINITION. The parameters of the unit (00_scope.md R7, R8). They are not state (10_state.md R30): no command
reads or changes them. The two parameters the spec leaves OPEN (92_eei_decisions.md D17, D18) are opaque constants,
so that whatever is proved of the machine holds for each of their values. -/

namespace Sys2Proof

/-- `NREG`: the number of general registers (R8, D2). -/
abbrev Config.nreg : Nat := 16

/-- `SB_CAP`: the capacity of the string buffer in bytes (R8, D6). -/
abbrev Config.sbCap : Nat := 512

/-- `MAX_AMOUNT` = 2^62 − 1: the largest magnitude of an Asset amount (R7). -/
abbrev Config.maxAmount : Int := 4611686018427387903

/-- The values of `P_SUFFIX_LEADING_DOTS` (R8, D17): whether a dot that has no non-dot character before it can be the
separator NSFX cuts at. -/
inductive SuffixLeadingDots where
  /-- A leading dot never separates (the spec's default, the document's sentence). -/
  | ignore
  /-- Every followed dot can separate. -/
  | separate
deriving DecidableEq, Repr, Inhabited

/-- The values of `P_SC_VALID_BYTE7` (R8, D18): whether SCVALID requires bits 63:56 to be zero. -/
inductive ScValidByte7 where
  /-- Bits 63:56 must be zero (the spec's default). -/
  | check
  /-- Bits 63:56 are not looked at. -/
  | skip
deriving DecidableEq, Repr, Inhabited

/-- `P_SUFFIX_LEADING_DOTS`, fixed when the hardware is built and left OPEN by the spec (D17; log 4, DESIGN CHOICE,
safe: a statement about the machine holds for both values). -/
opaque Config.suffixLeadingDots : SuffixLeadingDots

/-- `P_SC_VALID_BYTE7`, fixed when the hardware is built and left OPEN by the spec (D18; log 5, DESIGN CHOICE, safe: a
statement about the machine holds for both values). -/
opaque Config.scValidByte7 : ScValidByte7

end Sys2Proof
end

