-- ==== Sys2Proof/Syntax.lean ====
section
/-! DEFINITION. The 33 commands (30_encoding.md R63), one constructor per row of the opcode table. A command's string
operand is not in the word: it is the current string of the buffer (R62); SETR and SBPUT take their data from the
64-bit `wdata` that accompanies the word. -/

namespace Sys2Proof

/-- A register number, naming `x[0]`..`x[15]` (30_encoding.md R60). -/
abbrev Reg := Fin 16

/-- A command with its operands, fields in the order of the assembler syntax (30_encoding.md R67). -/
inductive Instr where
  /-- NOP (R80) -/
  | nop
  /-- SETR rd, #wdata (R81) -/
  | setr (rd : Reg)
  /-- GETR ra (R82) -/
  | getr (ra : Reg)
  /-- SBCLR (R83) -/
  | sbclr
  /-- SBPUT #wdata (R84) -/
  | sbput
  /-- SBGET #imm16 (R85) -/
  | sbget (imm16 : BitVec 16)
  /-- SBLEN (R86) -/
  | sblen
  /-- NENC rd (R93) -/
  | nenc (rd : Reg)
  /-- NDEC ra (R94) -/
  | ndec (ra : Reg)
  /-- NLEN rd, ra (R100) -/
  | nlen (rd ra : Reg)
  /-- NPFX rd, ra (R101) -/
  | npfx (rd ra : Reg)
  /-- NSFX rd, ra (R102) -/
  | nsfx (rd ra : Reg)
  /-- SCENC rd (R112) -/
  | scenc (rd : Reg)
  /-- SCDEC ra (R113) -/
  | scdec (ra : Reg)
  /-- SCVALID rd, ra (R114) -/
  | scvalid (rd ra : Reg)
  /-- SCLEN rd, ra (R115) -/
  | sclen (rd ra : Reg)
  /-- SYMK rd, ra, rc (R121) -/
  | symk (rd ra rc : Reg)
  /-- SYCODE rd, ra (R122) -/
  | sycode (rd ra : Reg)
  /-- SYPREC rd, ra (R123) -/
  | syprec (rd ra : Reg)
  /-- SYVALID rd, ra (R124) -/
  | syvalid (rd ra : Reg)
  /-- SYFMT ra (R125) -/
  | syfmt (ra : Reg)
  /-- SYPARSE rd (R126) -/
  | syparse (rd : Reg)
  /-- ARANGE rd, ra (R131) -/
  | arange (rd ra : Reg)
  /-- AVALID rd, ra, rb (R132) -/
  | avalid (rd ra rb : Reg)
  /-- AADD rd, ra, rb, rc, re (R133) -/
  | aadd (rd ra rb rc re : Reg)
  /-- ASUB rd, ra, rb, rc, re (R134) -/
  | asub (rd ra rb rc re : Reg)
  /-- AMUL rd, ra, rc (R135) -/
  | amul (rd ra rc : Reg)
  /-- ADIV rd, ra, rc (R136) -/
  | adiv (rd ra rc : Reg)
  /-- ADIVA rd, ra, rb, rc, re (R137) -/
  | adiva (rd ra rb rc re : Reg)
  /-- ACMP rd, ra, rb, rc, re (R138) -/
  | acmp (rd ra rb rc re : Reg)
  /-- ANEG rd, ra (R139) -/
  | aneg (rd ra : Reg)
  /-- AFMT ra, rb (R151) -/
  | afmt (ra rb : Reg)
  /-- APARSE rd, rd2 (R152) -/
  | aparse (rd rd2 : Reg)
deriving DecidableEq, Repr

end Sys2Proof
end

