-- ==== Sys2Proof/Machine/State.lean ====
section
/-! DEFINITION. The state of the ACU (10_state.md R20) as plain data, with the host port the unit is driven through,
and the state after reset (70_reset_and_hazards.md R180). -/

namespace Sys2Proof.Machine

/-- The string buffer `SB` (20_memory.md R41, R48): the cells that do not hold 0, by rising address. An address that is
not listed holds 0, the value reset gives every cell (R180; log 12). -/
abbrev Memory := List Host.Cell

/-- The listed cells lie in rising order from address `lo` on, inside the address space 0..`SB_CAP` − 1 (R48), and none
of them holds what an unlisted address reads as. -/
def Memory.wfFrom : Nat → Memory → Bool
  | _, [] => true
  | lo, c :: rest => decide (lo ≤ c.1) && decide (c.1 < Config.sbCap) && decide (c.2 ≠ 0#8) && Memory.wfFrom (c.1 + 1) rest

/-- The canonical form of the buffer, in which equal contents are equal lists. -/
def Memory.wf (m : Memory) : Bool := Memory.wfFrom 0 m

/-- The fault causes a command or the decoder can raise (60_exceptions.md R161), all codes of the table but `FLT_NONE`,
which is never raised. The unit's own faults are taken as a NEXT state (R163), never as a stop of the model. -/
inductive FltCode where
  /-- `FLT_ILLEGAL_CMD` -/
  | illegalCmd
  /-- `FLT_SB_BOUNDS` -/
  | sbBounds
  /-- `FLT_OPERAND_RANGE` -/
  | operandRange
  /-- `FLT_NAME_INVALID_CHAR` -/
  | nameInvalidChar
  /-- `FLT_NAME_INVALID_13TH` -/
  | nameInvalid13th
  /-- `FLT_NAME_TOO_LONG` -/
  | nameTooLong
  /-- `FLT_SC_TOO_LONG` -/
  | scTooLong
  /-- `FLT_SC_INVALID_CHAR` -/
  | scInvalidChar
  /-- `FLT_SYM_INVALID_FORMAT` -/
  | symInvalidFormat
  /-- `FLT_SYM_INVALID_PRECISION` -/
  | symInvalidPrecision
  /-- `FLT_ASSET_ADD_SYMBOL_MISMATCH` -/
  | assetAddSymbolMismatch
  /-- `FLT_ASSET_SUB_SYMBOL_MISMATCH` -/
  | assetSubSymbolMismatch
  /-- `FLT_ASSET_DIV_SYMBOL_MISMATCH` -/
  | assetDivSymbolMismatch
  /-- `FLT_ASSET_CMP_SYMBOL_MISMATCH` -/
  | assetCmpSymbolMismatch
  /-- `FLT_ASSET_OVERFLOW` -/
  | assetOverflow
  /-- `FLT_ASSET_UNDERFLOW` -/
  | assetUnderflow
  /-- `FLT_ASSET_DIV_BY_ZERO` -/
  | assetDivByZero
  /-- `FLT_ASSET_DIV_OVERFLOW` -/
  | assetDivOverflow
  /-- `FLT_ASSET_NEG_OVERFLOW` -/
  | assetNegOverflow
  /-- `FLT_ASSET_INVALID` -/
  | assetInvalid
  /-- `FLT_ASSET_INVALID_AMOUNT` -/
  | assetInvalidAmount
deriving DecidableEq, Repr

/-- What the host does at the unit's inputs, one event at a time (00_scope.md R9). -/
inductive HostEvent where
  /-- The host presents the command word `cmd` with the data word `wdata` (R10, 30_encoding.md R60). -/
  | command (cmd : Cmd) (wdata : Word)
  /-- The host asserts reset between two commands (70_reset_and_hazards.md R180). -/
  | reset
deriving DecidableEq, Repr

/-- The state. The first five fields are the whole architectural state of the ACU (10_state.md R20); the last four are
the model's own, the inputs and outputs of one step (R30; logs 1, 2, 3). -/
structure State where
  /-- `x[0]`..`x[15]`, 64 bits each, none hardwired (R21). -/
  x : Vector Word Config.nreg
  /-- `SB`, the string buffer (R28). -/
  sb : Memory
  /-- `SLEN`, the length of the current string, an integer 0..`SB_CAP` (R23; log 6). -/
  slen : Fin (Config.sbCap + 1)
  /-- `FCODE`, the code of the fault that halted the unit, 0 if none (R24). -/
  fcode : Byte
  /-- `HALT`, set by a fault, cleared only by reset (R25). -/
  halt : Bool
  /-- Host port: what the host has still to present, in issue order (00_scope.md R10; log 1). -/
  pending : List HostEvent
  /-- Host port: the data word that accompanies the command being executed (R10, R62; log 2). -/
  wdata : Word
  /-- Host port: the read-data word of the last response (R10; log 3). -/
  rdata : Word
  /-- Host port: the fault code of the last response, 0 if none (R10; log 3). -/
  fault : Byte
deriving DecidableEq, Repr

/-- Reasons for the MODEL to stop where the machine goes on: there are none. Every failure the spec defines is the
unit's own fault, taken as a next state by `faultEntry` (60_exceptions.md R163), and `step` is total (R165). Safe. -/
inductive Fault
deriving DecidableEq, Repr

/-- Reasons for the model to give an instruction no meaning. -/
inductive Refusal where
  /-- Raised by `exec`'s arm of an instruction that has no meaning in the model, with its mnemonic: no arm raises it,
  every command of the table has its meaning. Safe: the model stops. -/
  | notModelled (mnemonic : String)
deriving DecidableEq, Repr

/-- The state after reset (70_reset_and_hazards.md R180): every register, every byte of the buffer, `SLEN`, `FCODE` and
`HALT` are 0. At the port nothing has been presented and nothing answered (logs 1, 2, 3). -/
def State.reset : State where
  x := Vector.replicate Config.nreg 0
  sb := []
  slen := 0
  fcode := 0
  halt := false
  pending := []
  wdata := 0
  rdata := 0
  fault := 0

end Sys2Proof.Machine
end

