-- ==== Sys2Proof/Machine/Ops.lean ====
section
/-! DEFINITION. The named operations over registers, the string buffer and the port (00_scope.md R13, 20_memory.md), and
taking a fault (60_exceptions.md R163) with the one way out of it, reset (R164). -/

namespace Sys2Proof.Machine

/-- What a command's meaning answers. -/
abbrev Answer := Host.Outcome State Fault Refusal

/-! Integers and widths (00_scope.md R12). -/

/-- `u64(n)`: `n mod 2^64` as a 64-bit value. -/
def u64 (n : Int) : Word := BitVec.ofInt 64 n

/-- `s64(v)`: `v` if `v < 2^63`, else `v − 2^64`. -/
def s64 (v : Word) : Int := if v.toNat < 2 ^ 63 then (v.toNat : Int) else (v.toNat : Int) - 2 ^ 64

/-- `zext_64` of a byte. -/
def zext64 (b : Byte) : Word := b.setWidth 64

/-! The bytes of the buffer (20_memory.md R42). -/

/-- The byte at an address; 0, the reset contents, where nothing is listed (R180). -/
def Memory.read : Memory → Nat → Byte
  | [], _ => 0#8
  | c :: rest, a => if c.1 = a then c.2 else Memory.read rest a

/-- One byte written, all others kept, in canonical form: writing 0, what an unlisted address reads as, removes the
cell. -/
def Memory.write : Memory → Nat → Byte → Memory
  | [], a, b => if b = 0#8 then [] else [(a, b)]
  | c :: rest, a, b =>
    if a < c.1 then (if b = 0#8 then c :: rest else (a, b) :: c :: rest)
    else if a = c.1 then (if b = 0#8 then rest else (a, b) :: rest)
    else c :: Memory.write rest a b

/-- Bytes written to consecutive addresses, the first at `a`, in order. -/
def Memory.writeAll : Memory → Nat → List Byte → Memory
  | m, _, [] => m
  | m, a, b :: bs => Memory.writeAll (m.write a b) (a + 1) bs

/-! Registers (R13, 10_state.md R21). -/

/-- `x[i]`. -/
def State.reg (s : State) (i : Reg) : Word := s.x[i]

/-- `x[i] <- v`; no register is hardwired, so every write is kept (R21). -/
def State.setReg (s : State) (i : Reg) (v : Word) : State := { s with x := s.x.set i v }

/-! The string buffer (R13, 20_memory.md R42 to R44). -/

/-- `MemRead(addr, 1)`, used only for `addr < SLEN` (R42). -/
def State.memRead (s : State) (addr : Nat) : Byte := s.sb.read addr

/-- `MemWrite(addr, 1, v)`, used only for `addr < SB_CAP` (R42). -/
def State.memWrite (s : State) (addr : Nat) (v : Byte) : State := { s with sb := s.sb.write addr v }

/-- `SLEN <- n`; every rule writes an `n ≤ SB_CAP` (R23, R45; log 7). -/
def State.setSlen (s : State) (n : Nat) : State := { s with slen := Fin.ofNat (Config.sbCap + 1) n }

/-- `SBin`: the current string, `SB[0]`..`SB[SLEN − 1]` (R43). -/
def State.sbIn (s : State) : List Byte := (List.range s.slen.val).map s.memRead

/-- `SBout <- t`: `SB[k] <- t[k]` for every `k < len(t)`, then `SLEN <- len(t)`; the bytes from `len(t)` on keep what they
held (R44). -/
def State.sbOut (s : State) (t : List Byte) : State := { s with sb := s.sb.writeAll 0 t }.setSlen t.length

/-! Responses (00_scope.md R10, 60_exceptions.md R165). -/

/-- The command completes and answers `rdata = v`, `fault = 0`. -/
def State.respond (s : State) (v : Word) : State := { s with rdata := v, fault := 0 }

/-- Completion of a command whose rule does not set `rdata` (R87 (2)). -/
def complete (s : State) : Answer := .next (s.respond 0)

/-- The halted unit ignores the command and answers `rdata = 0`, `fault = FCODE` (R165). -/
def State.ignoreCommand (s : State) : State := { s with rdata := 0, fault := s.fcode }

/-! Faults. -/

/-- The 8-bit number of a fault code (60_exceptions.md R161). -/
def FltCode.number : FltCode → Byte
  | .illegalCmd => 0x01
  | .sbBounds => 0x02
  | .operandRange => 0x03
  | .nameInvalidChar => 0x10
  | .nameInvalid13th => 0x11
  | .nameTooLong => 0x12
  | .scTooLong => 0x20
  | .scInvalidChar => 0x21
  | .symInvalidFormat => 0x28
  | .symInvalidPrecision => 0x29
  | .assetAddSymbolMismatch => 0x30
  | .assetSubSymbolMismatch => 0x31
  | .assetDivSymbolMismatch => 0x32
  | .assetCmpSymbolMismatch => 0x33
  | .assetOverflow => 0x34
  | .assetUnderflow => 0x35
  | .assetDivByZero => 0x36
  | .assetDivOverflow => 0x37
  | .assetNegOverflow => 0x38
  | .assetInvalid => 0x39
  | .assetInvalidAmount => 0x3A

/-- Fault entry (60_exceptions.md R163): no register, no byte of `SB` and not `SLEN` changes; `FCODE` holds the code,
`HALT` is set, the response is `rdata = 0`, `fault = code`. Nothing else is saved. -/
def State.faultEntry (s : State) (c : FltCode) : State :=
  { s with fcode := c.number, halt := true, rdata := 0, fault := c.number }

/-- `raise Fault(code)` (R13, R163): the command's rule is abandoned and the fault is taken. -/
def raise (c : FltCode) (s : State) : Answer := .next (s.faultEntry c)

/-- The only way out of the halted state (R164): reset, whatever the state was (R165, R180). What the host has still to
present is the host's own and is not cleared (log 11). -/
def State.resetWith (_ : State) (rest : List HostEvent) : State := { State.reset with pending := rest }

/-! The two shapes most commands have: a result in `x[rd]`, computed or faulting. -/

/-- `x[rd] <- v` and completion. -/
def writeResult (rd : Reg) (v : Word) (s : State) : Answer := complete (s.setReg rd v)

/-- A computed value goes on to `k`; a fault is raised. -/
def orRaise {α : Type} (s : State) (r : Except FltCode α) (k : α → Answer) : Answer :=
  match r with
  | .ok a => k a
  | .error c => raise c s

end Sys2Proof.Machine
end

