-- ==== Sys2Proof/Machine/Flags.lean ====
section
/-! DEFINITION. The ACU has no flags register and no command writes a flag (10_state.md R31): a predicate delivers its
answer as a value in the destination register. Those values stand here, and nothing else. -/

namespace Sys2Proof.Machine

/-- A Boolean as a register value: true is 1, false is 0 (R31, 92_eei_decisions.md D19). -/
def boolWord (b : Bool) : Word := if b then 1 else 0

/-- The three-way comparison of two integers: −1, 0 or 1 as a 64-bit two's complement value (R31, 45_asset_arith.md
R138, D19). -/
def cmpWord (a b : Int) : Word :=
  if a < b then 0xFFFFFFFFFFFFFFFF else if a = b then 0 else 1

end Sys2Proof.Machine
end

