-- ==== Sys2Proof/Machine/Operands.lean ====
section
/-! DEFINITION. The operand forms of the commands (30_encoding.md R60, R62; 45_asset_arith.md R130): a register read
whole, read as an amount, an Asset held in two registers, the immediate, the data word of the port, the current
string. -/

namespace Sys2Proof.Machine

/-- An amount, a scalar or a quotient: the register read as `i64` (R130, R12). -/
def State.amount (s : State) (i : Reg) : Int := s64 (s.reg i)

/-- An Asset operand (R130): the amount in one register, the Symbol in another. -/
structure Asset where
  /-- The amount, read as `i64`. -/
  amount : Int
  /-- The Symbol value, all 64 bits. -/
  symbol : Word
deriving DecidableEq, Repr

/-- The Asset held in the registers `a` (amount) and `b` (Symbol) (R130, 00_scope.md R18). -/
def State.asset (s : State) (a b : Reg) : Asset := ⟨s.amount a, s.reg b⟩

/-- SBGET's byte address: `imm16` as an unsigned integer, not extended, scaled or shifted (R62, 40_host_access.md
R89). -/
def immAddress (imm16 : BitVec 16) : Nat := imm16.toNat

/-- The bits `v[7:0]` of a 64-bit value. -/
def lowByte (v : Word) : Byte := v.setWidth 8

end Sys2Proof.Machine
end

