-- ==== Sys2Proof/Machine/SymbolCode.lean ====
section
/-! DEFINITION. The SymbolCode unit (43_symbol_code.md R110, R111): SCENC, SCDEC, SCVALID, SCLEN (R112 to R115). -/

namespace Sys2Proof.Machine

/-- `byte(v, i) = v[8i+7 : 8i]` (R110): the first character is lowest. -/
def scByte (v : Word) (i : Nat) : Byte := v.extractLsb' (8 * i) 8

/-- An upper-case letter: a byte 0x41..0x5A (R110). -/
def isUpper (b : Byte) : Bool := decide (0x41 ≤ b.toNat) && decide (b.toNat ≤ 0x5A)

/-- `sc_len(v)`: the number of leading non-zero bytes among bytes 0 to 6; byte 7 is never looked at (R111). -/
def scLen (v : Word) : Nat := ((List.range 7).find? (fun i => scByte v i == 0)).getD 7

/-- `sc_str(v)`: the string of those bytes (R111). -/
def scStr (v : Word) : List Byte := (List.range (scLen v)).map (scByte v)

/-- R112's validation scan from position `i` on: the fault at the first offending position, if any. -/
def scScan : Nat → List Byte → Option FltCode
  | _, [] => none
  | i, b :: bs =>
    if 7 ≤ i then some .scTooLong else if isUpper b then scScan (i + 1) bs else some .scInvalidChar

/-- R112's packing, in reverse, so that the first character ends up in the lowest byte. -/
def scPack (t : List Byte) : Word := t.foldr (fun b acc => (acc <<< 8) ||| b.setWidth 64) 0

/-- The value SCENC computes for the string `t`, or the fault it raises (R112). -/
def scEncode (t : List Byte) : Except FltCode Word :=
  match scScan 0 t with
  | some c => .error c
  | none => .ok (scPack t)

/-- `sc_valid(v)` (R114) under the parameter `P_SC_VALID_BYTE7`. -/
def scValid (p : ScValidByte7) (v : Word) : Bool :=
  decide (1 ≤ scLen v)
  && (List.range (scLen v)).all (fun i => isUpper (scByte v i))
  && (List.range 7).all (fun i => decide (i < scLen v) || scByte v i == 0)
  && (scByte v 7 == 0 || decide (p = .skip))

/-- SCENC (R112): the code of the current string into `x[rd]`; the buffer is unchanged. -/
def execScenc (rd : Reg) (s : State) : Answer := orRaise s (scEncode s.sbIn) (fun v => writeResult rd v s)

/-- SCDEC (R113): the string of `x[ra]` into the buffer, not validated. -/
def execScdec (ra : Reg) (s : State) : Answer := complete (s.sbOut (scStr (s.reg ra)))

/-- SCVALID (R114), under the unit's `P_SC_VALID_BYTE7`. -/
def execScvalid (rd ra : Reg) (s : State) : Answer :=
  writeResult rd (boolWord (scValid Config.scValidByte7 (s.reg ra))) s

/-- SCLEN (R115): `x[rd] <- zext_64(sc_len(x[ra]))`. -/
def execSclen (rd ra : Reg) (s : State) : Answer := writeResult rd (BitVec.ofNat 64 (scLen (s.reg ra))) s

end Sys2Proof.Machine
end

