-- ==== Sys2Proof/Machine/Text.lean ====
section
/-! DEFINITION. Strings and decimal helpers (00_scope.md R14, R15). A string is a list of bytes, the first character
first; a character is one byte. -/

namespace Sys2Proof.Machine

/-! ASCII codes (R14; log 20). -/

/-- `'.'` -/
def chrDot : Byte := 0x2E
/-- `','` -/
def chrComma : Byte := 0x2C
/-- `'-'` -/
def chrMinus : Byte := 0x2D
/-- The space. -/
def chrSpace : Byte := 0x20
/-- `'0'` -/
def chrZero : Byte := 0x30

/-- The byte of the decimal digit `d` (R15). -/
def digitChr (d : Nat) : Byte := BitVec.ofNat 8 (0x30 + d)

/-- A byte in 0x30..0x39 (R15). -/
def isDigit (b : Byte) : Bool := decide (0x30 ≤ b.toNat) && decide (b.toNat ≤ 0x39)

/-- The digits of `n` put in front of `acc`, least significant last, at most `fuel` of them. -/
def decGo : Nat → Nat → List Byte → List Byte
  | 0, _, acc => acc
  | fuel + 1, n, acc =>
    if n / 10 = 0 then digitChr (n % 10) :: acc else decGo fuel (n / 10) (digitChr (n % 10) :: acc)

/-- `dec(n)`: the shortest string of digits whose base-10 value is `n` (R15). A number has no more decimal digits than
binary ones, which bounds the loop. -/
def dec (n : Nat) : List Byte := decGo (Nat.log2 n + 1) n []

/-- `pad(s, w)`: bytes `'0'` in front of `s` up to length `w` (R15). -/
def pad (s : List Byte) (w : Nat) : List Byte := List.replicate (w - s.length) chrZero ++ s

/-- `isdigits(s)`: one or more bytes, every one a digit (R15). -/
def isDigits (s : List Byte) : Bool := !s.isEmpty && s.all isDigit

/-- `val(s)`: the base-10 value of a digit string, leading zeros allowed (R15). -/
def decVal (s : List Byte) : Nat := s.foldl (fun n b => n * 10 + (b.toNat - 0x30)) 0

/-- `count(s, b)` (R14). -/
def countByte (s : List Byte) (b : Byte) : Nat := s.count b

/-- The bytes of `s` before the first `sep`. -/
def before (sep : Byte) (s : List Byte) : List Byte := s.takeWhile (fun b => b != sep)

/-- The bytes of `s` after the first `sep`. -/
def after (sep : Byte) (s : List Byte) : List Byte := (s.dropWhile (fun b => b != sep)).drop 1

end Sys2Proof.Machine
end

