-- ==== Sys2Proof/Machine/Symbol.lean ====
section
/-! DEFINITION. The Symbol unit (44_symbol.md R120): SYMK, SYCODE, SYPREC, SYVALID, SYFMT, SYPARSE (R121 to R126). -/

namespace Sys2Proof.Machine

/-- `(code << 8) | precision` (R120, R121): a 64-bit shift, bits 63:56 of the code are lost. -/
def symbolOf (code : Word) (p : Word) : Word := (code <<< 8) ||| p

/-- The code of a Symbol: `s >> 8` (R122). -/
def symbolCode (s : Word) : Word := s >>> 8

/-- The precision of a Symbol: `s[7:0]` (R123). -/
def symbolPrecision (s : Word) : Byte := lowByte s

/-- A Symbol is valid when its code is (R124). -/
def symbolValid (s : Word) : Bool := scValid Config.scValidByte7 (symbolCode s)

/-- The string SYFMT writes (R125). -/
def symbolText (s : Word) : List Byte := dec (symbolPrecision s).toNat ++ chrComma :: scStr (symbolCode s)

/-- The Symbol SYPARSE computes for the string `t`, or the fault it raises, in the order format, precision, code
(R126). -/
def symbolParse (t : List Byte) : Except FltCode Word :=
  if countByte t chrComma ≠ 1 then .error .symInvalidFormat
  else if !isDigits (before chrComma t) || decide (255 < decVal (before chrComma t)) then .error .symInvalidPrecision
  else
    match scEncode (after chrComma t) with
    | .error c => .error c
    | .ok code => .ok (symbolOf code (BitVec.ofNat 64 (decVal (before chrComma t))))

/-- SYMK (R121): the precision operand must be a byte. -/
def execSymk (rd ra rc : Reg) (s : State) : Answer :=
  if 255 < (s.reg rc).toNat then raise .operandRange s
  else writeResult rd (symbolOf (s.reg ra) (s.reg rc)) s

/-- SYCODE (R122). -/
def execSycode (rd ra : Reg) (s : State) : Answer := writeResult rd (symbolCode (s.reg ra)) s

/-- SYPREC (R123). -/
def execSyprec (rd ra : Reg) (s : State) : Answer := writeResult rd (zext64 (symbolPrecision (s.reg ra))) s

/-- SYVALID (R124). -/
def execSyvalid (rd ra : Reg) (s : State) : Answer := writeResult rd (boolWord (symbolValid (s.reg ra))) s

/-- SYFMT (R125). -/
def execSyfmt (ra : Reg) (s : State) : Answer := complete (s.sbOut (symbolText (s.reg ra)))

/-- SYPARSE (R126): the Symbol of the current string into `x[rd]`; the buffer is unchanged. -/
def execSyparse (rd : Reg) (s : State) : Answer := orRaise s (symbolParse s.sbIn) (fun v => writeResult rd v s)

end Sys2Proof.Machine
end

