-- ==== Sys2Proof/Machine/AssetArith.lean ====
section
/-! DEFINITION. The Asset unit's arithmetic (45_asset_arith.md R130 to R140): all of it on exact integers, delivered
as two's complement or faulted, never wrapped (R141). -/

namespace Sys2Proof.Machine

/-- `abs(a) <= MAX_AMOUNT`, `abs` mathematical (R131). -/
def amountInRange (a : Int) : Bool := decide ((a.natAbs : Int) ≤ Config.maxAmount)

/-- `checked(r)`: the result of AADD, ASUB, AMUL in range, or the fault of its direction (R140). -/
def checkedAmount (r : Int) : Except FltCode Word :=
  if Config.maxAmount < r then .error .assetOverflow
  else if r < -Config.maxAmount then .error .assetUnderflow
  else .ok (u64 r)

/-- `tdiv(n, d)`: the quotient rounded toward zero (00_scope.md R16). -/
def truncDiv (n d : Int) : Int := n.sign * d.sign * ((n.natAbs / d.natAbs : Nat) : Int)

/-- The checked truncating division of two `i64` values: zero divisor, then the one quotient that does not fit (R136,
R137). -/
def checkedDiv (a k : Int) : Except FltCode Word :=
  if k = 0 then .error .assetDivByZero
  else if a = -2 ^ 63 ∧ k = -1 then .error .assetDivOverflow
  else .ok (u64 (truncDiv a k))

/-- The symbol-equality check of the combining commands: all 64 bits, with the fault of the command (R130). -/
def sameSymbol (a b : Asset) (c : FltCode) (r : Except FltCode Word) : Except FltCode Word :=
  if a.symbol ≠ b.symbol then .error c else r

/-- ARANGE (R131). -/
def execArange (rd ra : Reg) (s : State) : Answer := writeResult rd (boolWord (amountInRange (s.amount ra))) s

/-- AVALID (R132). -/
def execAvalid (rd ra rb : Reg) (s : State) : Answer :=
  writeResult rd (boolWord (amountInRange (s.amount ra) && symbolValid (s.reg rb))) s

/-- AADD (R133): the exact sum, checked. -/
def execAadd (rd ra rb rc re : Reg) (s : State) : Answer :=
  orRaise s
    (sameSymbol (s.asset ra rb) (s.asset rc re) .assetAddSymbolMismatch (checkedAmount (s.amount ra + s.amount rc)))
    (fun v => writeResult rd v s)

/-- ASUB (R134): the exact difference, checked. -/
def execAsub (rd ra rb rc re : Reg) (s : State) : Answer :=
  orRaise s
    (sameSymbol (s.asset ra rb) (s.asset rc re) .assetSubSymbolMismatch (checkedAmount (s.amount ra - s.amount rc)))
    (fun v => writeResult rd v s)

/-- AMUL (R135): the exact product, checked before any truncation; the Symbol is not an operand. -/
def execAmul (rd ra rc : Reg) (s : State) : Answer :=
  orRaise s (checkedAmount (s.amount ra * s.amount rc)) (fun v => writeResult rd v s)

/-- ADIV (R136). -/
def execAdiv (rd ra rc : Reg) (s : State) : Answer :=
  orRaise s (checkedDiv (s.amount ra) (s.amount rc)) (fun v => writeResult rd v s)

/-- ADIVA (R137): the ratio of two Assets of one Symbol, a plain integer. -/
def execAdiva (rd ra rb rc re : Reg) (s : State) : Answer :=
  orRaise s
    (sameSymbol (s.asset ra rb) (s.asset rc re) .assetDivSymbolMismatch (checkedDiv (s.amount ra) (s.amount rc)))
    (fun v => writeResult rd v s)

/-- ACMP (R138): the three-way signed comparison of two Assets of one Symbol. -/
def execAcmp (rd ra rb rc re : Reg) (s : State) : Answer :=
  orRaise s
    (sameSymbol (s.asset ra rb) (s.asset rc re) .assetCmpSymbolMismatch (.ok (cmpWord (s.amount ra) (s.amount rc))))
    (fun v => writeResult rd v s)

/-- ANEG (R139): −2^63 has no negation and faults. -/
def execAneg (rd ra : Reg) (s : State) : Answer :=
  if s.amount ra = -2 ^ 63 then raise .assetNegOverflow s else writeResult rd (u64 (-s.amount ra)) s

end Sys2Proof.Machine
end

