-- ==== Sys2Proof/Machine/AssetText.lean ====
section
/-! DEFINITION. The Asset unit's text (46_asset_text.md R150): AFMT (R151) and APARSE (R152). -/

namespace Sys2Proof.Machine

/-- The fraction part of AFMT's string: nothing at precision 0, else the point and exactly `p` digits (R151). -/
def fractionText (mag p : Nat) : List Byte := if p = 0 then [] else chrDot :: pad (dec (mag % 10 ^ p)) p

/-- The amount part of AFMT's string: the sign of the original amount, then the digits of its magnitude split by an
exact `10^p` (R151). -/
def amountText (a : Int) (p : Nat) : List Byte :=
  (if a < 0 then [chrMinus] else []) ++ dec (a.natAbs / 10 ^ p) ++ fractionText a.natAbs p

/-- The string AFMT writes (R150, R151). -/
def assetText (a : Int) (sym : Word) : List Byte :=
  amountText a (symbolPrecision sym).toNat ++ chrSpace :: scStr (symbolCode sym)

/-- The amount token with its point removed, and the number of bytes after the point (R152). -/
def stripPoint (t : List Byte) : List Byte × Nat :=
  if countByte t chrDot = 1 then (before chrDot t ++ after chrDot t, (after chrDot t).length) else (t, 0)

/-- A signed decimal integer: an optional `'-'`, then digits (R152). -/
def signedVal : List Byte → Except FltCode Int
  | [] => .error .assetInvalidAmount
  | b :: bs =>
    if b = chrMinus then (if isDigits bs then .ok (-(decVal bs : Int)) else .error .assetInvalidAmount)
    else if isDigits (b :: bs) then .ok (decVal (b :: bs) : Int) else .error .assetInvalidAmount

/-- The integer of the amount token, within `i64` (R152). -/
def amountParse (t : List Byte) : Except FltCode Int :=
  if 1 < countByte t chrDot then .error .assetInvalidAmount
  else
    match signedVal (stripPoint t).1 with
    | .error c => .error c
    | .ok n => if n < -2 ^ 63 ∨ 2 ^ 63 - 1 < n then .error .assetInvalidAmount else .ok n

/-- The amount and Symbol APARSE computes for the string `t`, or the fault it raises, in the order asset, amount,
precision, code (R152). -/
def assetParse (t : List Byte) : Except FltCode (Word × Word) :=
  if countByte t chrSpace ≠ 1 then .error .assetInvalid
  else
    match amountParse (before chrSpace t) with
    | .error c => .error c
    | .ok n =>
      if 255 < (stripPoint (before chrSpace t)).2 then .error .symInvalidPrecision
      else
        match scEncode (after chrSpace t) with
        | .error c => .error c
        | .ok code => .ok (u64 n, symbolOf code (BitVec.ofNat 64 (stripPoint (before chrSpace t)).2))

/-- AFMT (R151): the text of the Asset `x[ra]`, `x[rb]` into the buffer; nothing is validated. -/
def execAfmt (ra rb : Reg) (s : State) : Answer := complete (s.sbOut (assetText (s.amount ra) (s.reg rb)))

/-- APARSE (R152): the amount of the current string into `x[rd]`, its Symbol into `x[rd2]`; the buffer is unchanged. -/
def execAparse (rd rd2 : Reg) (s : State) : Answer :=
  orRaise s (assetParse s.sbIn) (fun v => complete ((s.setReg rd v.1).setReg rd2 v.2))

end Sys2Proof.Machine
end

