-- ==== Sys2Proof/Machine/HostAccess.lean ====
section
/-! DEFINITION. The host-access commands NOP, SETR, GETR, SBCLR, SBPUT, SBGET, SBLEN (40_host_access.md R80 to R86). -/

namespace Sys2Proof.Machine

/-- NOP (R80): nothing. -/
def execNop (s : State) : Answer := complete s

/-- SETR (R81): `x[rd] <- wdata`, any 64-bit pattern. -/
def execSetr (rd : Reg) (s : State) : Answer := writeResult rd s.wdata s

/-- GETR (R82): `rdata <- x[ra]`. -/
def execGetr (ra : Reg) (s : State) : Answer := .next (s.respond (s.reg ra))

/-- SBCLR (R83): `SLEN <- 0`; the bytes of `SB` are not changed. -/
def execSbclr (s : State) : Answer := complete (s.setSlen 0)

/-- SBPUT (R84): appends the byte `wdata[7:0]`; `wdata > 255` is checked first, then the full buffer (R49: `SLEN <
SB_CAP`). -/
def execSbput (s : State) : Answer :=
  if 255 < s.wdata.toNat then raise .operandRange s
  else if s.slen.val < Config.sbCap then complete ((s.memWrite s.slen.val (lowByte s.wdata)).setSlen (s.slen.val + 1))
  else raise .sbBounds s

/-- SBGET (R85): `rdata <- zext_64(SB[imm16])`, inside the current string only. -/
def execSbget (imm16 : BitVec 16) (s : State) : Answer :=
  if s.slen.val ≤ immAddress imm16 then raise .sbBounds s
  else .next (s.respond (zext64 (s.memRead (immAddress imm16))))

/-- SBLEN (R86): `rdata <- zext_64(SLEN)`. -/
def execSblen (s : State) : Answer := .next (s.respond (BitVec.ofNat 64 s.slen.val))

end Sys2Proof.Machine
end

