-- ==== Sys2Proof/Machine/NameCodec.lean ====
section
/-! DEFINITION. The Name unit's packer and unpacker: the layout and alphabet of a Name value (41_name_codec.md R90 to
R92), NENC (R93), NDEC (R94). -/

namespace Sys2Proof.Machine

/-- `lo(i)`: the position of the least significant bit of slot `i` (R90). -/
def slotLo (i : Nat) : Nat := if i < 12 then 59 - 5 * i else 0

/-- `slot(v, i)`: the alphabet index in slot `i`, 5 bits wide for slots 0..11, 4 bits at bit 0 for slot 12 (R90). -/
def slot (v : Word) (i : Nat) : Nat :=
  if i < 12 then v.toNat / 2 ^ slotLo i % 32 else v.toNat % 16

/-- `name_idx(b)`: the index of a byte in the Name alphabet (R91). -/
def nameIdx (b : Byte) : Option Nat :=
  if b.toNat = 0x2E then some 0
  else if 0x31 ≤ b.toNat ∧ b.toNat ≤ 0x35 then some (b.toNat - 0x30)
  else if 0x61 ≤ b.toNat ∧ b.toNat ≤ 0x7A then some (b.toNat - 0x61 + 6)
  else none

/-- `name_chr(k)`: the byte of an alphabet index (R91). -/
def nameChr (k : Nat) : Byte :=
  if k = 0 then 0x2E
  else if k ≤ 5 then BitVec.ofNat 8 (0x30 + k)
  else BitVec.ofNat 8 (0x61 + k - 6)

/-- `name_len(v)`: 0 for `v = 0`, else one more than the index of the last non-zero slot (42_name_scan.md R103). -/
def nameLen (v : Word) : Nat :=
  match (List.range 13).reverse.find? (fun i => slot v i != 0) with
  | none => 0
  | some i => i + 1

/-- R93's first loop: the characters' indexes accumulated 5 bits at a time, left to right. -/
def namePack : List Byte → Nat → Except FltCode Nat
  | [], acc => .ok acc
  | b :: bs, acc =>
    match nameIdx b with
    | none => .error .nameInvalidChar
    | some k => namePack bs (acc * 32 + k)

/-- R93's treatment of position 12 and beyond: the 13th character is ORed into the 4 lowest bits of `v`; a 14th
character is a fault and is not looked up. -/
def nameThirteenth (v : Word) : List Byte → Except FltCode Word
  | [] => .ok v
  | b :: rest =>
    match nameIdx b with
    | none => .error .nameInvalidChar
    | some k =>
      if 15 < k then .error .nameInvalid13th
      else if rest.isEmpty then .ok (v ||| BitVec.ofNat 64 k)
      else .error .nameTooLong

/-- The value NENC computes for the string `t`, or the fault it raises (R93). The shift is made for every number of
characters, 12 and 13 included (90_conflicts.md C2). -/
def nameEncode (t : List Byte) : Except FltCode Word :=
  match namePack (t.take 12) 0 with
  | .error c => .error c
  | .ok acc => nameThirteenth (u64 ((acc * 2 ^ (4 + 5 * (12 - min t.length 12)) : Nat) : Int)) (t.drop 12)

/-- The string NDEC writes for the value `v` (R94). -/
def nameDecode (v : Word) : List Byte := (List.range (nameLen v)).map (fun i => nameChr (slot v i))

/-- NENC (R93): the value of the current string into `x[rd]`; the buffer is unchanged. -/
def execNenc (rd : Reg) (s : State) : Answer :=
  orRaise s (nameEncode s.sbIn) (fun v => writeResult rd v s)

/-- NDEC (R94): the string of `x[ra]` into the buffer; every value decodes. -/
def execNdec (ra : Reg) (s : State) : Answer := complete (s.sbOut (nameDecode (s.reg ra)))

end Sys2Proof.Machine
end

