-- ==== Sys2Proof/Machine/NameScan.lean ====
section
/-! DEFINITION. The Name unit's bit scanner (42_name_scan.md R100 to R103): NLEN, NPFX, NSFX. -/

namespace Sys2Proof.Machine

/-- `first_char(v)`: the first slot that holds a non-dot; 13 when there is none, that is for `v = 0`, where R103 leaves
it undefined and no rule reads it. -/
def firstChar (v : Word) : Nat := ((List.range 13).find? (fun i => slot v i != 0)).getD 13

/-- R101's right-to-left scan over the slots listed, `seen` saying that a non-dot has been met: at the first dot with a
non-dot to its right every bit below that slot is cleared. -/
def prefixScan (v : Word) : List Nat → Bool → Word
  | [], _ => v
  | i :: is, seen =>
    if slot v i = 0 then (if seen then (v >>> slotLo i) <<< slotLo i else prefixScan v is seen)
    else prefixScan v is true

/-- The prefix of a Name value (R101). -/
def namePrefix (v : Word) : Word := prefixScan v (List.range 13).reverse false

/-- R102's `cand(i)`: a followed dot, and not a leading one unless the parameter lets leading dots separate. -/
def isSeparator (p : SuffixLeadingDots) (v : Word) (i : Nat) : Bool :=
  slot v i == 0 && decide (i + 1 < nameLen v) && (decide (firstChar v < i) || decide (p = .separate))

/-- The suffix of a Name value (R102): the characters after the last separator moved to the front, the 4-bit 13th
character becoming a 5-bit slot. -/
def nameSuffix (p : SuffixLeadingDots) (v : Word) : Word :=
  match (List.range 12).reverse.find? (isSeparator p v) with
  | none => v
  | some d => ((v &&& 0xFFFFFFFFFFFFFFF0) <<< (5 * (d + 1))) ||| ((v &&& 0xF) <<< (5 * (d + 1) - 1))

/-- NLEN (R100): `x[rd] <- zext_64(name_len(x[ra]))`. -/
def execNlen (rd ra : Reg) (s : State) : Answer := writeResult rd (BitVec.ofNat 64 (nameLen (s.reg ra))) s

/-- NPFX (R101). -/
def execNpfx (rd ra : Reg) (s : State) : Answer := writeResult rd (namePrefix (s.reg ra)) s

/-- NSFX (R102), under the unit's `P_SUFFIX_LEADING_DOTS`. -/
def execNsfx (rd ra : Reg) (s : State) : Answer :=
  writeResult rd (nameSuffix Config.suffixLeadingDots (s.reg ra)) s

end Sys2Proof.Machine
end

