-- ==== Sys2Proof/Machine/Dispatch.lean ====
section
/-! DEFINITION. The meaning of every command (30_encoding.md R63, R64): one arm per row of the opcode table. -/

namespace Sys2Proof.Machine

/-- Performs the command's rule on a state (60_exceptions.md R165); the halted check and decoding stand before it, in
`step`. -/
def exec (i : Instr) (s : State) : Host.Outcome State Fault Refusal :=
  match i with
  | .nop => Sys2Proof.Machine.execNop s
  | .setr rd => Sys2Proof.Machine.execSetr rd s
  | .getr ra => Sys2Proof.Machine.execGetr ra s
  | .sbclr => Sys2Proof.Machine.execSbclr s
  | .sbput => Sys2Proof.Machine.execSbput s
  | .sbget imm16 => Sys2Proof.Machine.execSbget imm16 s
  | .sblen => Sys2Proof.Machine.execSblen s
  | .nenc rd => Sys2Proof.Machine.execNenc rd s
  | .ndec ra => Sys2Proof.Machine.execNdec ra s
  | .nlen rd ra => Sys2Proof.Machine.execNlen rd ra s
  | .npfx rd ra => Sys2Proof.Machine.execNpfx rd ra s
  | .nsfx rd ra => Sys2Proof.Machine.execNsfx rd ra s
  | .scenc rd => Sys2Proof.Machine.execScenc rd s
  | .scdec ra => Sys2Proof.Machine.execScdec ra s
  | .scvalid rd ra => Sys2Proof.Machine.execScvalid rd ra s
  | .sclen rd ra => Sys2Proof.Machine.execSclen rd ra s
  | .symk rd ra rc => Sys2Proof.Machine.execSymk rd ra rc s
  | .sycode rd ra => Sys2Proof.Machine.execSycode rd ra s
  | .syprec rd ra => Sys2Proof.Machine.execSyprec rd ra s
  | .syvalid rd ra => Sys2Proof.Machine.execSyvalid rd ra s
  | .syfmt ra => Sys2Proof.Machine.execSyfmt ra s
  | .syparse rd => Sys2Proof.Machine.execSyparse rd s
  | .arange rd ra => Sys2Proof.Machine.execArange rd ra s
  | .avalid rd ra rb => Sys2Proof.Machine.execAvalid rd ra rb s
  | .aadd rd ra rb rc re => Sys2Proof.Machine.execAadd rd ra rb rc re s
  | .asub rd ra rb rc re => Sys2Proof.Machine.execAsub rd ra rb rc re s
  | .amul rd ra rc => Sys2Proof.Machine.execAmul rd ra rc s
  | .adiv rd ra rc => Sys2Proof.Machine.execAdiv rd ra rc s
  | .adiva rd ra rb rc re => Sys2Proof.Machine.execAdiva rd ra rb rc re s
  | .acmp rd ra rb rc re => Sys2Proof.Machine.execAcmp rd ra rb rc re s
  | .aneg rd ra => Sys2Proof.Machine.execAneg rd ra s
  | .afmt ra rb => Sys2Proof.Machine.execAfmt ra rb s
  | .aparse rd rd2 => Sys2Proof.Machine.execAparse rd rd2 s

end Sys2Proof.Machine
end

