-- ==== Sys2Proof/WellFormed.lean ====
section
/-! DEFINITION. Which terms of `Instr` are commands: every one, but an APARSE whose two destinations are one register
(30_encoding.md R65 step 3, R66; 46_asset_text.md R152). Register numbers and `imm16` are in range by their types. -/

namespace Sys2Proof

/-- The operand constraint of the command set (R65 step 3). -/
def Instr.wellFormed : Instr → Bool
  | .aparse rd rd2 => decide (rd ≠ rd2)
  | .nop | .setr _ | .getr _ | .sbclr | .sbput | .sbget _ | .sblen => true
  | .nenc _ | .ndec _ | .nlen _ _ | .npfx _ _ | .nsfx _ _ => true
  | .scenc _ | .scdec _ | .scvalid _ _ | .sclen _ _ => true
  | .symk _ _ _ | .sycode _ _ | .syprec _ _ | .syvalid _ _ | .syfmt _ | .syparse _ => true
  | .arange _ _ | .avalid _ _ _ | .aadd _ _ _ _ _ | .asub _ _ _ _ _ | .amul _ _ _ | .adiv _ _ _ => true
  | .adiva _ _ _ _ _ | .acmp _ _ _ _ _ | .aneg _ _ | .afmt _ _ => true

end Sys2Proof
end

