-- ==== Sys2Proof/Decode.lean ====
section
/-! DEFINITION. Command decoding (30_encoding.md R60 to R66) and the encoder written from the same tables. Decoding is
total on 32-bit words: every word is exactly one command or illegal (R65). -/

namespace Sys2Proof

/-- Why a word is illegal: the three causes of 30_encoding.md R66. Each is answered with `FLT_ILLEGAL_CMD` (R66). -/
inductive Illegal where
  /-- `op` is none of the 33 listed values. -/
  | unknownOp
  /-- A must-be-zero bit of the row is 1. -/
  | mustBeZero
  /-- APARSE with `rd = rd2`. -/
  | sameDestination
deriving DecidableEq, Repr

/-- `c[hi:lo]`, the unsigned integer made of bits `hi` down to `lo` (00_scope.md R11). -/
def bits (c : Cmd) (hi lo : Nat) : Nat := c.toNat / 2 ^ lo % 2 ^ (hi + 1 - lo)

/-- `op`, bits 31:24 (R60). -/
def fieldOp (c : Cmd) : Nat := bits c 31 24

/-- `rd`, bits 23:20 (R60). -/
def fieldRd (c : Cmd) : Reg := Fin.ofNat 16 (bits c 23 20)

/-- `ra`, bits 19:16; in APARSE the second destination `rd2` (R60). -/
def fieldRa (c : Cmd) : Reg := Fin.ofNat 16 (bits c 19 16)

/-- `rb`, bits 15:12 (R60). -/
def fieldRb (c : Cmd) : Reg := Fin.ofNat 16 (bits c 15 12)

/-- `rc`, bits 11:8 (R60). -/
def fieldRc (c : Cmd) : Reg := Fin.ofNat 16 (bits c 11 8)

/-- `re`, bits 7:4 (R60). -/
def fieldRe (c : Cmd) : Reg := Fin.ofNat 16 (bits c 7 4)

/-- `imm16`, bits 15:0, used by SBGET only (R60, R62). -/
def fieldImm16 (c : Cmd) : BitVec 16 := BitVec.ofNat 16 (bits c 15 0)

/-! The must-be-zero bits of each format, the column "zero bits" of R61. -/

/-- Format Z: bits 23:0. -/
def zeroBitsZ (c : Cmd) : Bool := bits c 23 0 == 0

/-- Format D: bits 19:0. -/
def zeroBitsD (c : Cmd) : Bool := bits c 19 0 == 0

/-- Format S: bits 23:20 and 15:0. -/
def zeroBitsS (c : Cmd) : Bool := bits c 23 20 == 0 && bits c 15 0 == 0

/-- Format DS: bits 15:0. -/
def zeroBitsDS (c : Cmd) : Bool := bits c 15 0 == 0

/-- Format DSC: bits 15:12 and 7:0. -/
def zeroBitsDSC (c : Cmd) : Bool := bits c 15 12 == 0 && bits c 7 0 == 0

/-- Format DAB: bits 11:0. -/
def zeroBitsDAB (c : Cmd) : Bool := bits c 11 0 == 0

/-- Format A: bits 3:0. -/
def zeroBitsA (c : Cmd) : Bool := bits c 3 0 == 0

/-- Format AB: bits 23:20 and 11:0. -/
def zeroBitsAB (c : Cmd) : Bool := bits c 23 20 == 0 && bits c 11 0 == 0

/-- Format DD: bits 15:0. -/
def zeroBitsDD (c : Cmd) : Bool := bits c 15 0 == 0

/-- Format I: bits 23:16. -/
def zeroBitsI (c : Cmd) : Bool := bits c 23 16 == 0

/-- R65 step 2: a word whose must-be-zero bits are not all zero is illegal. -/
def requireZero (ok : Bool) (i : Instr) : Except Illegal Instr :=
  if ok then .ok i else .error .mustBeZero

/-- R65 step 3: an APARSE whose two destinations are one register is illegal. -/
def requireDistinct : Except Illegal Instr → Except Illegal Instr
  | .error e => .error e
  | .ok i => if i.wellFormed then .ok i else .error .sameDestination

/-- The decoding procedure of R65 over the opcode map of R63. -/
def decode (c : Cmd) : Except Illegal Instr :=
  match fieldOp c with
  | 0x00 => requireZero (zeroBitsZ c) .nop
  | 0x01 => requireZero (zeroBitsD c) (.setr (fieldRd c))
  | 0x02 => requireZero (zeroBitsS c) (.getr (fieldRa c))
  | 0x03 => requireZero (zeroBitsZ c) .sbclr
  | 0x04 => requireZero (zeroBitsZ c) .sbput
  | 0x05 => requireZero (zeroBitsI c) (.sbget (fieldImm16 c))
  | 0x06 => requireZero (zeroBitsZ c) .sblen
  | 0x10 => requireZero (zeroBitsD c) (.nenc (fieldRd c))
  | 0x11 => requireZero (zeroBitsS c) (.ndec (fieldRa c))
  | 0x12 => requireZero (zeroBitsDS c) (.nlen (fieldRd c) (fieldRa c))
  | 0x13 => requireZero (zeroBitsDS c) (.npfx (fieldRd c) (fieldRa c))
  | 0x14 => requireZero (zeroBitsDS c) (.nsfx (fieldRd c) (fieldRa c))
  | 0x20 => requireZero (zeroBitsD c) (.scenc (fieldRd c))
  | 0x21 => requireZero (zeroBitsS c) (.scdec (fieldRa c))
  | 0x22 => requireZero (zeroBitsDS c) (.scvalid (fieldRd c) (fieldRa c))
  | 0x23 => requireZero (zeroBitsDS c) (.sclen (fieldRd c) (fieldRa c))
  | 0x28 => requireZero (zeroBitsDSC c) (.symk (fieldRd c) (fieldRa c) (fieldRc c))
  | 0x29 => requireZero (zeroBitsDS c) (.sycode (fieldRd c) (fieldRa c))
  | 0x2A => requireZero (zeroBitsDS c) (.syprec (fieldRd c) (fieldRa c))
  | 0x2B => requireZero (zeroBitsDS c) (.syvalid (fieldRd c) (fieldRa c))
  | 0x2C => requireZero (zeroBitsS c) (.syfmt (fieldRa c))
  | 0x2D => requireZero (zeroBitsD c) (.syparse (fieldRd c))
  | 0x30 => requireZero (zeroBitsDS c) (.arange (fieldRd c) (fieldRa c))
  | 0x31 => requireZero (zeroBitsDAB c) (.avalid (fieldRd c) (fieldRa c) (fieldRb c))
  | 0x32 => requireZero (zeroBitsA c) (.aadd (fieldRd c) (fieldRa c) (fieldRb c) (fieldRc c) (fieldRe c))
  | 0x33 => requireZero (zeroBitsA c) (.asub (fieldRd c) (fieldRa c) (fieldRb c) (fieldRc c) (fieldRe c))
  | 0x34 => requireZero (zeroBitsDSC c) (.amul (fieldRd c) (fieldRa c) (fieldRc c))
  | 0x35 => requireZero (zeroBitsDSC c) (.adiv (fieldRd c) (fieldRa c) (fieldRc c))
  | 0x36 => requireZero (zeroBitsA c) (.adiva (fieldRd c) (fieldRa c) (fieldRb c) (fieldRc c) (fieldRe c))
  | 0x37 => requireZero (zeroBitsA c) (.acmp (fieldRd c) (fieldRa c) (fieldRb c) (fieldRc c) (fieldRe c))
  | 0x38 => requireZero (zeroBitsDS c) (.aneg (fieldRd c) (fieldRa c))
  | 0x39 => requireZero (zeroBitsAB c) (.afmt (fieldRa c) (fieldRb c))
  | 0x3A => requireDistinct (requireZero (zeroBitsDD c) (.aparse (fieldRd c) (fieldRa c)))
  | _ => .error .unknownOp

/-! The encoder, from the layout of R60 and the opcodes of R63. -/

/-- The word with the given fields in their places (R60); bits 3:0 are zero. -/
def commandWord (op : Nat) (rd ra rb rc re : Reg) : Cmd :=
  BitVec.ofNat 32 (op * 2 ^ 24 + rd.val * 2 ^ 20 + ra.val * 2 ^ 16 + rb.val * 2 ^ 12 + rc.val * 2 ^ 8 + re.val * 2 ^ 4)

/-- The word of a command; fields its format does not use are zero (R61, R66). -/
def encode : Instr → Cmd
  | .nop => commandWord 0x00 0 0 0 0 0
  | .setr rd => commandWord 0x01 rd 0 0 0 0
  | .getr ra => commandWord 0x02 0 ra 0 0 0
  | .sbclr => commandWord 0x03 0 0 0 0 0
  | .sbput => commandWord 0x04 0 0 0 0 0
  | .sbget imm16 => BitVec.ofNat 32 (0x05 * 2 ^ 24 + imm16.toNat)
  | .sblen => commandWord 0x06 0 0 0 0 0
  | .nenc rd => commandWord 0x10 rd 0 0 0 0
  | .ndec ra => commandWord 0x11 0 ra 0 0 0
  | .nlen rd ra => commandWord 0x12 rd ra 0 0 0
  | .npfx rd ra => commandWord 0x13 rd ra 0 0 0
  | .nsfx rd ra => commandWord 0x14 rd ra 0 0 0
  | .scenc rd => commandWord 0x20 rd 0 0 0 0
  | .scdec ra => commandWord 0x21 0 ra 0 0 0
  | .scvalid rd ra => commandWord 0x22 rd ra 0 0 0
  | .sclen rd ra => commandWord 0x23 rd ra 0 0 0
  | .symk rd ra rc => commandWord 0x28 rd ra 0 rc 0
  | .sycode rd ra => commandWord 0x29 rd ra 0 0 0
  | .syprec rd ra => commandWord 0x2A rd ra 0 0 0
  | .syvalid rd ra => commandWord 0x2B rd ra 0 0 0
  | .syfmt ra => commandWord 0x2C 0 ra 0 0 0
  | .syparse rd => commandWord 0x2D rd 0 0 0 0
  | .arange rd ra => commandWord 0x30 rd ra 0 0 0
  | .avalid rd ra rb => commandWord 0x31 rd ra rb 0 0
  | .aadd rd ra rb rc re => commandWord 0x32 rd ra rb rc re
  | .asub rd ra rb rc re => commandWord 0x33 rd ra rb rc re
  | .amul rd ra rc => commandWord 0x34 rd ra 0 rc 0
  | .adiv rd ra rc => commandWord 0x35 rd ra 0 rc 0
  | .adiva rd ra rb rc re => commandWord 0x36 rd ra rb rc re
  | .acmp rd ra rb rc re => commandWord 0x37 rd ra rb rc re
  | .aneg rd ra => commandWord 0x38 rd ra 0 0 0
  | .afmt ra rb => commandWord 0x39 0 ra rb 0 0
  | .aparse rd rd2 => commandWord 0x3A rd rd2 0 0 0

/-- The opcode of a command (R63). -/
def Instr.opcode : Instr → Nat
  | .nop => 0x00
  | .setr _ => 0x01
  | .getr _ => 0x02
  | .sbclr => 0x03
  | .sbput => 0x04
  | .sbget _ => 0x05
  | .sblen => 0x06
  | .nenc _ => 0x10
  | .ndec _ => 0x11
  | .nlen _ _ => 0x12
  | .npfx _ _ => 0x13
  | .nsfx _ _ => 0x14
  | .scenc _ => 0x20
  | .scdec _ => 0x21
  | .scvalid _ _ => 0x22
  | .sclen _ _ => 0x23
  | .symk _ _ _ => 0x28
  | .sycode _ _ => 0x29
  | .syprec _ _ => 0x2A
  | .syvalid _ _ => 0x2B
  | .syfmt _ => 0x2C
  | .syparse _ => 0x2D
  | .arange _ _ => 0x30
  | .avalid _ _ _ => 0x31
  | .aadd _ _ _ _ _ => 0x32
  | .asub _ _ _ _ _ => 0x33
  | .amul _ _ _ => 0x34
  | .adiv _ _ _ => 0x35
  | .adiva _ _ _ _ _ => 0x36
  | .acmp _ _ _ _ _ => 0x37
  | .aneg _ _ => 0x38
  | .afmt _ _ => 0x39
  | .aparse _ _ => 0x3A

/-- What the decoder reads from a row of the opcode table: the command word whose bits are `w`, bits above `nbits`
zero. The word is presented on a port as one number (R60, R22), so it has no byte order. -/
def decodeTableWord (nbits w : Nat) : Option Instr :=
  match decode (BitVec.ofNat 32 (w % 2 ^ nbits)) with
  | .ok i => some i
  | .error _ => none

end Sys2Proof
end

