-- ==== Sys2Proof/Machine/Port.lean ====
section
/-! DEFINITION. The host port: how the unit takes the host's next event (00_scope.md R9, R10; 60_exceptions.md R165). -/

namespace Sys2Proof.Machine

/-- What the host's next event comes to. -/
inductive Taken where
  /-- It is dealt with: nothing was presented, reset, a command ignored by the halted unit, an illegal word. -/
  | settled (t : State)
  /-- The unit runs the command `i` in the state `s`. -/
  | run (i : Instr) (s : State)
deriving DecidableEq, Repr

/-- The command's two words are at the port and the rest of the host's list is still to come. -/
def State.present (s : State) (wdata : Word) (rest : List HostEvent) : State :=
  { s with pending := rest, wdata := wdata }

/-- R165 up to the command's own rule: the halted check first, then decoding (R162). Reset is taken in any state
(R180). With nothing presented the unit holds its state (R166, R174; log 8). -/
def takeEvent (s : State) : Taken :=
  match s.pending with
  | [] => .settled s
  | .reset :: rest => .settled (s.resetWith rest)
  | .command cmd wdata :: rest =>
    if s.halt then .settled (s.present wdata rest).ignoreCommand
    else
      match decode cmd with
      | .error _ => .settled ((s.present wdata rest).faultEntry .illegalCmd)
      | .ok i => .run i (s.present wdata rest)

/-- The host presents the command word whose bits are `w`, bits above `nbits` zero, as its next event, with the data
word that already stands at the port (logs 1, 2, 19). -/
def State.presentWord (s : State) (nbits w : Nat) : State :=
  { s with pending := .command (BitVec.ofNat 32 (w % 2 ^ nbits)) s.wdata :: s.pending }

end Sys2Proof.Machine
end

