-- ==== Sys2Proof/Machine/Step.lean ====
section
/-! DEFINITION. One step of the unit (60_exceptions.md R165). -/

namespace Sys2Proof.Machine

/-- One step: the host's next event, and the command's rule if there is one to perform (R165). -/
def step (s : State) : Host.Outcome State Fault Refusal :=
  match takeEvent s with
  | .settled t => .next t
  | .run i t => exec i t

/-- `s` with the command word `w` presented as the host's next event, so that `step` decodes and runs exactly it. The
unit has no program counter and fetches nothing (10_state.md R22): the host's list of events is what a step takes its
next command from (log 1). -/
def State.withFetchWord (s : State) (nbits w : Nat) : State := s.presentWord nbits w

end Sys2Proof.Machine
end

