-- ==== Sys2Proof/Safety.lean ====
section
/-! DEFINITION. The terms in which claims about the machine are stated: what a sound state is, and what a command may
change. -/

namespace Sys2Proof.Machine

/-- The codes FCODE may hold: 0 and the codes of the table (10_state.md R24, 60_exceptions.md R161). -/
def legalCode (c : Byte) : Prop := c = 0 ∨ ∃ f : FltCode, c = f.number

/-- What every state a run reaches satisfies: the buffer is in canonical form inside its address space (20_memory.md
R42, R48), FCODE holds a code of the table (R24), and HALT is set exactly when FCODE is not 0 (R25). -/
structure Sound (s : State) : Prop where
  /-- The buffer's canonical form; every address below `SB_CAP`. -/
  buffer : s.sb.wf = true
  /-- FCODE is a code of the table. -/
  code : legalCode s.fcode
  /-- `HALT = 1` exactly when `FCODE ≠ 0`. -/
  halted : s.halt = true ↔ s.fcode ≠ 0

/-- The port's inputs, and `FCODE` and `HALT`, are as before, and the command answered without a fault. -/
structure Completed (s t : State) : Prop where
  /-- `FCODE` is unchanged. -/
  fcode : t.fcode = s.fcode
  /-- `HALT` is unchanged. -/
  halt : t.halt = s.halt
  /-- What the host has still to present is unchanged. -/
  pending : t.pending = s.pending
  /-- The data word at the port is unchanged. -/
  wdata : t.wdata = s.wdata
  /-- The response carries no fault. -/
  fault : t.fault = 0

/-- The string buffer and its length are unchanged, read byte by byte. -/
def SameBuffer (s t : State) : Prop := t.slen = s.slen ∧ ∀ a, t.sb.read a = s.sb.read a

/-- Every register is unchanged. -/
def SameRegs (s t : State) : Prop := ∀ r, t.reg r = s.reg r

/-- The command completed, wrote `v` to `x[rd]`, answered `rdata = 0`, and changed nothing else (40_host_access.md
R87). -/
structure OnlyReg (rd : Reg) (v : Word) (s t : State) : Prop where
  /-- The destination holds the result. -/
  result : t.reg rd = v
  /-- Every other register is unchanged. -/
  others : ∀ r, r ≠ rd → t.reg r = s.reg r
  /-- The buffer is unchanged. -/
  buffer : SameBuffer s t
  /-- Nothing else is changed. -/
  rest : Completed s t
  /-- `rdata` is 0. -/
  rdata : t.rdata = 0

/-- The command completed and replaced the current string by `txt`, stored from address 0 on; every byte outside the
stored ones, and every register, is unchanged (20_memory.md R44). -/
structure OnlyText (txt : List Byte) (s t : State) : Prop where
  /-- `SLEN` is the length of the text. -/
  length : t.slen.val = txt.length
  /-- The stored bytes, at addresses 0 to `len − 1`. -/
  stored : ∀ k, (h : k < txt.length) → t.sb.read k = txt[k]
  /-- Every byte outside them reads as before. -/
  kept : ∀ a, txt.length ≤ a → t.sb.read a = s.sb.read a
  /-- Every register is unchanged. -/
  regs : SameRegs s t
  /-- Nothing else is changed. -/
  rest : Completed s t
  /-- `rdata` is 0. -/
  rdata : t.rdata = 0

/-- The command completed, answered `rdata = v`, and changed nothing else. -/
structure OnlyAnswer (v : Word) (s t : State) : Prop where
  /-- The answer. -/
  rdata : t.rdata = v
  /-- Every register is unchanged. -/
  regs : SameRegs s t
  /-- The buffer is unchanged. -/
  buffer : SameBuffer s t
  /-- Nothing else is changed. -/
  rest : Completed s t

/-! Faults. -/

/-- The state after the fault of code `c` is taken in `s`: nothing but `FCODE`, `HALT` and the response differs
(60_exceptions.md R163). -/
def faulted (c : Byte) (s : State) : State := { s with fcode := c, halt := true, rdata := 0, fault := c }

/-- The fault codes a command may raise, the column "raised by" of 60_exceptions.md R161. -/
def mayRaise : Instr → List Byte
  | .sbput => [0x02, 0x03]
  | .sbget _ => [0x02]
  | .symk _ _ _ => [0x03]
  | .nenc _ => [0x10, 0x11, 0x12]
  | .scenc _ => [0x20, 0x21]
  | .syparse _ => [0x20, 0x21, 0x28, 0x29]
  | .aparse _ _ => [0x20, 0x21, 0x29, 0x39, 0x3A]
  | .aadd _ _ _ _ _ => [0x30, 0x34, 0x35]
  | .asub _ _ _ _ _ => [0x31, 0x34, 0x35]
  | .amul _ _ _ => [0x34, 0x35]
  | .adiv _ _ _ => [0x36, 0x37]
  | .adiva _ _ _ _ _ => [0x32, 0x36, 0x37]
  | .acmp _ _ _ _ _ => [0x33]
  | .aneg _ _ => [0x38]
  | .nop | .setr _ | .getr _ | .sbclr | .sblen | .ndec _ | .nlen _ _ | .npfx _ _ | .nsfx _ _ | .scdec _
  | .scvalid _ _ | .sclen _ _ | .sycode _ _ | .syprec _ _ | .syvalid _ _ | .syfmt _ | .arange _ _ | .avalid _ _ _
  | .afmt _ _ => []

/-! Which state a command may write (30_encoding.md R61, 20_memory.md R42 to R44). -/

/-- The destination registers of a command. -/
def destinations : Instr → List Reg
  | .setr rd | .nenc rd | .scenc rd | .syparse rd => [rd]
  | .nlen rd _ | .npfx rd _ | .nsfx rd _ | .scvalid rd _ | .sclen rd _ | .sycode rd _ | .syprec rd _ | .syvalid rd _
  | .arange rd _ | .aneg rd _ => [rd]
  | .symk rd _ _ | .amul rd _ _ | .adiv rd _ _ | .avalid rd _ _ => [rd]
  | .aadd rd _ _ _ _ | .asub rd _ _ _ _ | .adiva rd _ _ _ _ | .acmp rd _ _ _ _ => [rd]
  | .aparse rd rd2 => [rd, rd2]
  | .nop | .getr _ | .sbclr | .sbput | .sbget _ | .sblen | .ndec _ | .scdec _ | .syfmt _ | .afmt _ _ => []

/-- The commands that change the current string. -/
def changesString : Instr → Bool
  | .sbclr | .sbput | .ndec _ | .scdec _ | .syfmt _ | .afmt _ _ => true
  | .nop | .setr _ | .getr _ | .sbget _ | .sblen | .nenc _ | .nlen _ _ | .npfx _ _ | .nsfx _ _ | .scenc _
  | .scvalid _ _ | .sclen _ _ | .symk _ _ _ | .sycode _ _ | .syprec _ _ | .syvalid _ _ | .syparse _ | .arange _ _
  | .avalid _ _ _ | .aadd _ _ _ _ _ | .asub _ _ _ _ _ | .amul _ _ _ | .adiv _ _ _ | .adiva _ _ _ _ _
  | .acmp _ _ _ _ _ | .aneg _ _ | .aparse _ _ => false

/-- The commands that use `wdata` (30_encoding.md R62). -/
def usesWdata : Instr → Bool
  | .setr _ | .sbput => true
  | .nop | .getr _ | .sbclr | .sbget _ | .sblen | .nenc _ | .ndec _ | .nlen _ _ | .npfx _ _ | .nsfx _ _ | .scenc _
  | .scdec _ | .scvalid _ _ | .sclen _ _ | .symk _ _ _ | .sycode _ _ | .syprec _ _ | .syvalid _ _ | .syfmt _
  | .syparse _ | .arange _ _ | .avalid _ _ _ | .aadd _ _ _ _ _ | .asub _ _ _ _ _ | .amul _ _ _ | .adiv _ _ _
  | .adiva _ _ _ _ _ | .acmp _ _ _ _ _ | .aneg _ _ | .afmt _ _ | .aparse _ _ => false

/-! Encodings (30_encoding.md R60, R63). -/

/-- The word with these fields decodes to the command `i`. -/
def EncodedAs (op rd ra rb rc re : Nat) (i : Instr) : Prop :=
  decode (BitVec.ofNat 32 (op * 2 ^ 24 + rd * 2 ^ 20 + ra * 2 ^ 16 + rb * 2 ^ 12 + rc * 2 ^ 8 + re * 2 ^ 4)) = .ok i

/-- The opcode map of R63: opcode, match and mask of each row. -/
def opcodeRows : List (Nat × Cmd × Cmd) :=
  [(0x00, 0x00000000, 0xFFFFFFFF), (0x01, 0x01000000, 0xFF0FFFFF), (0x02, 0x02000000, 0xFFF0FFFF),
   (0x03, 0x03000000, 0xFFFFFFFF), (0x04, 0x04000000, 0xFFFFFFFF), (0x05, 0x05000000, 0xFFFF0000),
   (0x06, 0x06000000, 0xFFFFFFFF), (0x10, 0x10000000, 0xFF0FFFFF), (0x11, 0x11000000, 0xFFF0FFFF),
   (0x12, 0x12000000, 0xFF00FFFF), (0x13, 0x13000000, 0xFF00FFFF), (0x14, 0x14000000, 0xFF00FFFF),
   (0x20, 0x20000000, 0xFF0FFFFF), (0x21, 0x21000000, 0xFFF0FFFF), (0x22, 0x22000000, 0xFF00FFFF),
   (0x23, 0x23000000, 0xFF00FFFF), (0x28, 0x28000000, 0xFF00F0FF), (0x29, 0x29000000, 0xFF00FFFF),
   (0x2A, 0x2A000000, 0xFF00FFFF), (0x2B, 0x2B000000, 0xFF00FFFF), (0x2C, 0x2C000000, 0xFFF0FFFF),
   (0x2D, 0x2D000000, 0xFF0FFFFF), (0x30, 0x30000000, 0xFF00FFFF), (0x31, 0x31000000, 0xFF000FFF),
   (0x32, 0x32000000, 0xFF00000F), (0x33, 0x33000000, 0xFF00000F), (0x34, 0x34000000, 0xFF00F0FF),
   (0x35, 0x35000000, 0xFF00F0FF), (0x36, 0x36000000, 0xFF00000F), (0x37, 0x37000000, 0xFF00000F),
   (0x38, 0x38000000, 0xFF00FFFF), (0x39, 0x39000000, 0xFFF00FFF), (0x3A, 0x3A000000, 0xFF00FFFF)]

/-! Names (41_name_codec.md, 42_name_scan.md). -/

/-- The strings NENC accepts (R93): at most 13 characters of the alphabet, the 13th of index at most 15. -/
def AcceptedName (t : List Byte) : Prop :=
  t.length ≤ 13 ∧ ∀ i, (h : i < t.length) → ∃ k, nameIdx t[i] = some k ∧ (i = 12 → k ≤ 15)

/-- A dot at slot `i` is followed: some slot to its right holds a non-dot (R103). -/
def FollowedDot (v : Word) (i : Nat) : Prop := slot v i = 0 ∧ ∃ j, i < j ∧ j < 13 ∧ slot v j ≠ 0

/-- A dot at slot `i` is leading: no slot to its left holds a non-dot (R103). -/
def LeadingDot (v : Word) (i : Nat) : Prop := v ≠ 0 ∧ ∀ j, j ≤ i → slot v j = 0

/-- The dots NSFX can cut at (R102). -/
def Separator (p : SuffixLeadingDots) (v : Word) (i : Nat) : Prop :=
  FollowedDot v i ∧ (p = .separate ∨ ¬LeadingDot v i)

/-! SymbolCodes (43_symbol_code.md). -/

/-- An upper-case letter (R110). -/
def Upper (b : Byte) : Prop := 0x41 ≤ b.toNat ∧ b.toNat ≤ 0x5A

/-- The strings SCENC accepts (R112). -/
def AcceptedCode (t : List Byte) : Prop := t.length ≤ 7 ∧ ∀ b ∈ t, Upper b

/-- `t` is the string of the code `v` (R111): its non-zero bytes from the lowest up, to the first zero byte or to
seven. -/
def CodeString (v : Word) (t : List Byte) : Prop :=
  t.length ≤ 7
  ∧ (∀ i, (h : i < t.length) → t[i] = v.extractLsb' (8 * i) 8 ∧ t[i] ≠ 0)
  ∧ (t.length < 7 → v.extractLsb' (8 * t.length) 8 = 0)

/-- `v` is the code of the string `t` (R112): byte `i` is character `i`, the other bytes are 0. -/
def CodeValue (t : List Byte) (v : Word) : Prop := ∀ i, i < 8 → v.extractLsb' (8 * i) 8 = t.getD i 0

/-- The valid codes (R114) under `P_SC_VALID_BYTE7`. -/
def ValidCode (p : ScValidByte7) (v : Word) : Prop :=
  ∃ n, 1 ≤ n ∧ n ≤ 7
    ∧ (∀ i, i < n → Upper (v.extractLsb' (8 * i) 8))
    ∧ (∀ i, n ≤ i → i < 7 → v.extractLsb' (8 * i) 8 = 0)
    ∧ (p = .skip ∨ v.extractLsb' 56 8 = 0)

/-- The fault SCENC's scan of `t` meets first (R112, 60_exceptions.md R162): a byte that is no upper-case letter at one
of the first seven positions, else an eighth byte. -/
def CodeFault (t : List Byte) (c : Byte) : Prop :=
  (c = 0x21 ∧ ∃ i, ∃ h : i < t.length, i < 7 ∧ ¬Upper t[i] ∧ ∀ j, (hj : j < i) → Upper t[j])
  ∨ (c = 0x20 ∧ 8 ≤ t.length ∧ ∀ j, j < 7 → Upper (t.getD j 0))

/-! Decimal text (00_scope.md R15, 46_asset_text.md). -/

/-- One or more digits. -/
def Digits (t : List Byte) : Prop := t ≠ [] ∧ ∀ b ∈ t, 0x30 ≤ b.toNat ∧ b.toNat ≤ 0x39

/-- The decimal string of `n`: digits, of value `n`, without a leading zero but for `"0"` itself. -/
def DecimalOf (t : List Byte) (n : Nat) : Prop :=
  Digits t ∧ decVal t = n ∧ (t.head? = some 0x30 → t = [0x30])

/-- `t` is an amount token of value `n` with `p` bytes after its point (R152): a signed decimal integer with at most one
point put into it. -/
def AmountToken (t : List Byte) (n : Int) (p : Nat) : Prop :=
  ∃ l f : List Byte,
    ((t = l ∧ f = [] ∧ p = 0) ∨ (t = l ++ 0x2E :: f ∧ p = f.length))
    ∧ ((Digits (l ++ f) ∧ n = decVal (l ++ f)) ∨ ∃ b, l ++ f = 0x2D :: b ∧ Digits b ∧ n = -(decVal b : Int))

/-! Asset results (45_asset_arith.md). -/

/-- The command delivers the exact result `r` in `x[rd]`, or faults in the direction it leaves the range (R140). -/
def DeliversChecked (i : Instr) (rd : Reg) (r : Int) (s : State) : Prop :=
  (2 ^ 62 - 1 < r → exec i s = .next (faulted 0x34 s))
  ∧ (r < -(2 ^ 62 - 1) → exec i s = .next (faulted 0x35 s))
  ∧ (-(2 ^ 62 - 1) ≤ r → r ≤ 2 ^ 62 - 1 → ∃ t v, exec i s = .next t ∧ OnlyReg rd v s t ∧ v.toInt = r)

/-- The command delivers the quotient of `a` by `k` rounded toward zero in `x[rd]`, or faults where there is none or it
does not fit (R136, R137). -/
def DeliversQuotient (i : Instr) (rd : Reg) (a k : Int) (s : State) : Prop :=
  (k = 0 → exec i s = .next (faulted 0x36 s))
  ∧ (a = -2 ^ 63 → k = -1 → exec i s = .next (faulted 0x37 s))
  ∧ (k ≠ 0 → ¬(a = -2 ^ 63 ∧ k = -1) → ∃ t v, exec i s = .next t ∧ OnlyReg rd v s t ∧ v.toInt = Int.tdiv a k)

/-! What a host can see. -/

/-- The two states agree on everything a command can read: bytes from `SLEN` on are not part of the string (20_memory.md
R41). -/
structure SameObservable (s t : State) : Prop where
  /-- Every register. -/
  regs : SameRegs s t
  /-- The length of the string. -/
  slen : t.slen = s.slen
  /-- The bytes of the string. -/
  string : ∀ a, a < s.slen.val → t.sb.read a = s.sb.read a
  /-- `FCODE`. -/
  fcode : t.fcode = s.fcode
  /-- `HALT`. -/
  halt : t.halt = s.halt
  /-- What the host has still to present. -/
  pending : t.pending = s.pending
  /-- The data word at the port. -/
  wdata : t.wdata = s.wdata
  /-- The read data of the last response. -/
  rdata : t.rdata = s.rdata
  /-- The fault code of the last response. -/
  fault : t.fault = s.fault

end Sys2Proof.Machine
end

