-- ==== Sys2Proof/Certificates/Slice0/Obligations.lean ====
section
/-! DEFINITION. The statements for the provers, from the numbered rules of the spec. The meanings are stated as `exec`
performs them; `step` performs them only while `HALT = 0` (40_host_access.md R87 (1)), which StepRunsTheDecodedCommand
says. -/

open Sys2Proof Sys2Proof.Machine

/-- Reset leaves every register, the string, FCODE and HALT at 0, and alone leaves the halted state. Formalises R180.
-/
def Obligations.ResetLeavesEverythingZero : Prop :=
  (∀ r, State.reset.reg r = 0) ∧ State.reset.slen = 0 ∧ (∀ a, State.reset.sb.read a = 0)
  ∧ State.reset.fcode = 0 ∧ State.reset.halt = false
  ∧ (∀ (s : State) rest, s.pending = .reset :: rest → ∃ t, step s = .next t
      ∧ (∀ r, t.reg r = 0) ∧ t.slen = 0 ∧ (∀ a, t.sb.read a = 0) ∧ t.fcode = 0 ∧ t.halt = false)
  ∧ (∀ s t : State, s.halt = true → step s = .next t → t.halt = false → ∃ rest, s.pending = .reset :: rest)

/-- A step ignores a command when halted, faults on an illegal word, and otherwise runs the decoded command. Rests on
60_exceptions.md section 6 (the whole step); 00_scope.md section 5. The port fields are the model's (logs 1, 2, 3);
the three cases are the step function of 60_exceptions.md. -/
def Obligations.StepRunsTheDecodedCommand : Prop :=
  ∀ (s : State) cmd w rest, s.pending = .command cmd w :: rest →
    (s.halt = true → step s = .next { s with pending := rest, wdata := w, rdata := 0, fault := s.fcode })
    ∧ (s.halt = false → ∀ e, decode cmd = .error e → step s = .next (faulted 0x01 { s with pending := rest, wdata := w }))
    ∧ (s.halt = false → ∀ i, decode cmd = .ok i →
        i.wellFormed = true ∧ step s = exec i { s with pending := rest, wdata := w })

/-- Every step of every state gives a next state. Rests on 60_exceptions.md section 6 (`step` is total and
deterministic). That an empty host list leaves the state as it is, is the model's reading (log 8). -/
def Obligations.StepIsTotal : Prop :=
  ∀ s : State, ∃ t, step s = .next t

/-- A fault changes nothing but FCODE, HALT and the response. Formalises R163. -/
def Obligations.FaultsArePrecise : Prop :=
  (∀ c s, c.number ≠ 0 ∧ raise c s = .next (faulted c.number s))
  ∧ (∀ i s t, exec i s = .next t → t.fault = 0 ∨ t = faulted t.fault s)

/-- A command raises only the fault codes the fault table lists for it. Rests on 60_exceptions.md section 2 (fault
codes); 60_exceptions.md section 3 (priority). -/
def Obligations.FaultCodesPerCommand : Prop :=
  ∀ i s t, exec i s = .next t → t.fault = 0 ∨ t.fault ∈ mayRaise i

/-- Every step keeps the buffer canonical, FCODE a legal code, and HALT set exactly when FCODE is not 0. Rests on
10_state.md section 5 (FCODE, HALT: the spec's own derivations); 20_memory.md section 2 (bounds of MemWrite, output
bounds). That the legal values and the link of HALT and FCODE are kept is the spec's own inference (10_state.md,
'[derived: ...]'); the canonical form is the model's (log 12). -/
def Obligations.EveryStepKeepsSound : Prop :=
  ∀ s t : State, Sound s → step s = .next t → Sound t

/-- The reset state is sound. Rests on 70_reset_and_hazards.md section 1. The canonical form is the model's (log 12).
-/
def Obligations.ResetIsSound : Prop :=
  Sound State.reset

/-- A halted unit keeps its state and answers FCODE to every command until the host resets it. Rests on
60_exceptions.md section 5 (return and nesting); 60_exceptions.md section 6. k may exceed the events presented: that a
step with no event leaves the state as it is (log 8, DEDUCED), and that rdata and fault keep the last response through
such steps (log 3, DESIGN CHOICE), are the model's choices, on which the last clause rests there; so is the list of
events itself (log 1, DESIGN CHOICE). -/
def Obligations.HaltedUntilReset : Prop :=
  ∀ (k : Nat) (s : State), s.halt = true → (∀ e ∈ s.pending.take k, e ≠ .reset) →
    ∃ t, Host.Core.run Sys2Proof.core k s = .next t ∧ SameRegs s t ∧ t.sb = s.sb ∧ t.slen = s.slen
      ∧ t.fcode = s.fcode ∧ t.halt = true
      ∧ (s.pending.take k ≠ [] → t.rdata = 0 ∧ t.fault = s.fcode)

/-- Decoding the encoding of a well-formed command gives the command back, for all 33 commands and every operand.
Rests on 30_encoding.md sections 1 and 3. -/
def Obligations.DecodeOfEncodeIsTheCommand : Prop :=
  ∀ i : Instr, i.wellFormed = true → decode (encode i) = .ok i

/-- A legal word decodes to one well-formed command, and is that command's encoding. Rests on 30_encoding.md sections
3 and 4. -/
def Obligations.LegalWordIsTheEncodingOfItsCommand : Prop :=
  ∀ (c : Cmd) (i : Instr), decode c = .ok i → i.wellFormed = true ∧ encode i = c

/-- A word is the command of a row of the opcode map exactly when word AND mask equals match. Rests on 30_encoding.md
section 3 (opcode map); 30_encoding.md section 4. -/
def Obligations.OpcodeMapMasks : Prop :=
  ∀ row ∈ opcodeRows, ∀ c : Cmd,
    (c &&& row.2.2 = row.2.1 ∧ (row.1 = 0x3A → c.extractLsb' 20 4 ≠ c.extractLsb' 16 4))
      ↔ ∃ i, decode c = .ok i ∧ i.opcode = row.1

/-- A running unit takes FLT_ILLEGAL_CMD on every illegal word. Formalises R66. -/
def Obligations.IllegalWordsFault : Prop :=
  ∀ (s : State) (c : Cmd) w rest, s.halt = false → s.pending = .command c w :: rest →
    ((∀ row ∈ opcodeRows, c &&& row.2.2 ≠ row.2.1)
      ∨ (c &&& 0xFF00FFFF = 0x3A000000 ∧ c.extractLsb' 20 4 = c.extractLsb' 16 4)) →
    step s = .next (faulted 0x01 { s with pending := rest, wdata := w })

/-- The words the spec writes out decode to the commands it gives them. Rests on 30_encoding.md section 5 (assembler
syntax); 95_test_vectors.md programs P2 and P4. -/
def Obligations.SampleWordsDecode : Prop :=
  decode 0x32301210 = .ok (.aadd 3 0 1 2 1) ∧ decode 0x34540700 = .ok (.amul 5 4 7)
  ∧ decode 0x31123000 = .ok (.avalid 1 2 3) ∧ decode 0x39021000 = .ok (.afmt 2 1)
  ∧ decode 0x3A010000 = .ok (.aparse 0 1) ∧ decode 0x13100000 = .ok (.npfx 1 0)
  ∧ decode 0x05000009 = .ok (.sbget 9) ∧ decode 0x01F00000 = .ok (.setr 15)
  ∧ decode 0x020F0000 = .ok (.getr 15) ∧ decode 0x28420100 = .ok (.symk 4 2 1)
  ∧ decode 0x22320000 = .ok (.scvalid 3 2)

/-- No command but SETR and SBPUT depends on wdata. Rests on 30_encoding.md section 2 (operand assembly). -/
def Obligations.WdataIsIgnored : Prop :=
  ∀ (i : Instr) (s : State) (w : Word), usesWdata i = false →
    ∃ t, exec i s = .next t ∧ exec i { s with wdata := w } = .next { t with wdata := w }

/-- What SB holds at and beyond SLEN never matters to a response or to what later commands see. Rests on 10_state.md
section 1 (such bytes never matter to an observation); 20_memory.md section 1. The canonical form of the buffer is the
model's (log 12). -/
def Obligations.BytesBeyondTheStringAreUnobservable : Prop :=
  ∀ s s' t : State, s.sb.wf = true → s'.sb.wf = true → SameObservable s s' → step s = .next t →
    ∃ t', step s' = .next t' ∧ SameObservable t t'

/-- A command changes no register but its destinations, no buffer byte unless it is one of the six that change the
string, and no part of the port's inputs. Rests on 40_host_access.md introduction (common to every command);
20_memory.md section 2. The port fields are the model's (logs 1, 2). -/
def Obligations.OnlyDestinationsChange : Prop :=
  ∀ i s t, exec i s = .next t →
    (∀ r, r ∉ destinations i → t.reg r = s.reg r)
    ∧ (changesString i = false → SameBuffer s t)
    ∧ t.pending = s.pending ∧ t.wdata = s.wdata
    ∧ (t.fault = 0 → t.fcode = s.fcode ∧ t.halt = s.halt)

/-- The longest string of each text-producing command: NDEC 13, SCDEC 7, SYFMT 11, AFMT 266 bytes. Rests on
20_memory.md section 2 (output bounds, the spec's own derivation). The bounds are the spec's own inference ('[derived:
from ...]', 20_memory.md). -/
def Obligations.OutputBounds : Prop :=
  ∀ (s t : State) (ra rb : Reg),
    (exec (.ndec ra) s = .next t → t.slen.val ≤ 13)
    ∧ (exec (.scdec ra) s = .next t → t.slen.val ≤ 7)
    ∧ (exec (.syfmt ra) s = .next t → t.slen.val ≤ 11)
    ∧ (exec (.afmt ra rb) s = .next t → t.slen.val ≤ 266
        ∧ (19 ≤ (s.reg rb).toNat % 256 → t.slen.val ≤ (s.reg rb).toNat % 256 + 11)
        ∧ ((s.reg rb).toNat % 256 ≤ 18 → t.slen.val ≤ 29))

/-- dec(n) is the shortest digit string of value n, and pad keeps the value. Rests on 00_scope.md section 6 (decimal
helpers). -/
def Obligations.DecimalStrings : Prop :=
  ∀ n : Nat, DecimalOf (dec n) n
    ∧ (∀ t, Digits t → decVal t = n → (dec n).length ≤ t.length)
    ∧ (∀ t w, t.length ≤ w → (pad t w).length = w ∧ decVal (pad t w) = decVal t)

/-- NOP changes nothing and answers 0; to a halted unit it answers FCODE. Formalises R80. -/
def Obligations.NopDoesNothing : Prop :=
  decode 0x00000000 = .ok .nop
  ∧ (∀ s : State, exec .nop s = .next { s with rdata := 0, fault := 0 })
  ∧ (∀ (s : State) w rest, s.halt = true → s.pending = .command 0x00000000 w :: rest →
      step s = .next { s with pending := rest, wdata := w, rdata := 0, fault := s.fcode })

/-- SETR writes wdata to x[rd], any 64 bits, and nothing else. Formalises R81. -/
def Obligations.SetrLoadsWdata : Prop :=
  (∀ rd : Reg, EncodedAs 0x01 rd 0 0 0 0 (.setr rd))
  ∧ ∀ (rd : Reg) (s : State), ∃ t, exec (.setr rd) s = .next t ∧ OnlyReg rd s.wdata s t

/-- GETR answers x[ra] and changes nothing. Formalises R82. -/
def Obligations.GetrAnswersTheRegister : Prop :=
  (∀ ra : Reg, EncodedAs 0x02 0 ra 0 0 0 (.getr ra))
  ∧ ∀ (ra : Reg) (s : State), ∃ t, exec (.getr ra) s = .next t ∧ OnlyAnswer (s.reg ra) s t

/-- SBCLR sets SLEN to 0 and changes no byte of SB. Formalises R83. -/
def Obligations.SbclrEmptiesTheString : Prop :=
  decode 0x03000000 = .ok .sbclr
  ∧ ∀ s : State, ∃ t, exec .sbclr s = .next t ∧ t.slen = 0 ∧ t.sbIn = [] ∧ (∀ a, t.sb.read a = s.sb.read a)
      ∧ SameRegs s t ∧ Completed s t ∧ t.rdata = 0

/-- SBPUT appends the byte wdata at address SLEN, faults 0x03 on wdata over 255, then 0x02 on a full buffer.
Formalises R84. -/
def Obligations.SbputAppendsAByte : Prop :=
  decode 0x04000000 = .ok .sbput
  ∧ ∀ s : State,
    (255 < s.wdata.toNat → exec .sbput s = .next (faulted 0x03 s))
    ∧ (s.wdata.toNat ≤ 255 → s.slen.val = 512 → exec .sbput s = .next (faulted 0x02 s))
    ∧ (s.sb.wf = true → s.wdata.toNat ≤ 255 → s.slen.val ≠ 512 → ∃ t, exec .sbput s = .next t
        ∧ t.slen.val = s.slen.val + 1 ∧ (t.sb.read s.slen.val).toNat = s.wdata.toNat
        ∧ (∀ a, a ≠ s.slen.val → t.sb.read a = s.sb.read a)
        ∧ SameRegs s t ∧ Completed s t ∧ t.rdata = 0)

/-- SBGET answers the byte at imm16 inside the current string and faults 0x02 outside it. Formalises R85. -/
def Obligations.SbgetAnswersAByte : Prop :=
  (∀ k : BitVec 16, decode (BitVec.ofNat 32 (0x05000000 + k.toNat)) = .ok (.sbget k))
  ∧ ∀ (k : BitVec 16) (s : State),
    (s.slen.val ≤ k.toNat → exec (.sbget k) s = .next (faulted 0x02 s))
    ∧ (k.toNat < s.slen.val → ∃ t, exec (.sbget k) s = .next t ∧ OnlyAnswer ((s.sb.read k.toNat).setWidth 64) s t)

/-- SBLEN answers SLEN and changes nothing. Formalises R86. -/
def Obligations.SblenAnswersTheLength : Prop :=
  decode 0x06000000 = .ok .sblen
  ∧ ∀ s : State, ∃ t v, exec .sblen s = .next t ∧ OnlyAnswer v s t ∧ v.toNat = s.slen.val

/-- The Name alphabet: index 0 is '.', 1 to 5 are '1' to '5', 6 to 31 are 'a' to 'z', and the two tables are inverse.
Rests on 41_name_codec.md section 1 (alphabet). The ASCII codes are marked in the spec as general knowledge (log 20).
-/
def Obligations.NameAlphabet : Prop :=
  (List.range 32).map nameChr = [0x2E, 0x31, 0x32, 0x33, 0x34, 0x35, 0x61, 0x62, 0x63, 0x64, 0x65, 0x66, 0x67, 0x68, 0x69,
      0x6A, 0x6B, 0x6C, 0x6D, 0x6E, 0x6F, 0x70, 0x71, 0x72, 0x73, 0x74, 0x75, 0x76, 0x77, 0x78, 0x79, 0x7A]
  ∧ (∀ k, k < 32 → nameIdx (nameChr k) = some k)
  ∧ (∀ b k, nameIdx b = some k → k < 32 ∧ nameChr k = b)

/-- Slot i of a Name value is bits 63−5i to 59−5i for i up to 11, slot 12 is bits 3:0, and the thirteen slots are the
whole value. Rests on 41_name_codec.md section 1 (slots; the table is the spec's own derivation). -/
def Obligations.NameSlotsTileTheWord : Prop :=
  (∀ (v : Word) i, i < 12 → slot v i = (v.extractLsb' (59 - 5 * i) 5).toNat)
  ∧ (∀ v : Word, slot v 12 = (v.extractLsb' 0 4).toNat)
  ∧ (∀ v w : Word, (∀ i, i < 13 → slot v i = slot w i) → v = w)

/-- NENC packs an accepted string slot by slot, and faults at the first offending position of any other. Formalises
R93. -/
def Obligations.NencPacksOrFaults : Prop :=
  (∀ rd : Reg, EncodedAs 0x10 rd 0 0 0 0 (.nenc rd))
  ∧ ∀ (rd : Reg) (s : State),
    (AcceptedName s.sbIn → ∃ t v, exec (.nenc rd) s = .next t ∧ OnlyReg rd v s t
      ∧ ∀ i, i < 13 → slot v i = (s.sbIn[i]?.bind nameIdx).getD 0)
    ∧ (∀ i, (h : i < s.sbIn.length) → i < 13 → nameIdx s.sbIn[i] = none →
        (∀ j, (hj : j < i) → nameIdx s.sbIn[j] ≠ none) → exec (.nenc rd) s = .next (faulted 0x10 s))
    ∧ ((h : 12 < s.sbIn.length) → (∀ j, (hj : j < 12) → nameIdx s.sbIn[j] ≠ none) →
        ∀ k, nameIdx s.sbIn[12] = some k →
          (15 < k → exec (.nenc rd) s = .next (faulted 0x11 s))
          ∧ (k ≤ 15 → 14 ≤ s.sbIn.length → exec (.nenc rd) s = .next (faulted 0x12 s)))

/-- NENC of 111111111111j is 595056260442243615 and of zzzzzzzzzzzzj is 2^64 − 1. Formalises R96. -/
def Obligations.NencExactLiterals : Prop :=
  ∀ (rd : Reg) (s : State),
    (s.sbIn = List.replicate 12 0x31 ++ [0x6A] →
      ∃ t, exec (.nenc rd) s = .next t ∧ OnlyReg rd 595056260442243615 s t ∧ t.reg rd = 0x084210842108421F)
    ∧ (s.sbIn = List.replicate 12 0x7A ++ [0x6A] →
      ∃ t, exec (.nenc rd) s = .next t ∧ OnlyReg rd 0xFFFFFFFFFFFFFFFF s t)

/-- NDEC writes the characters of the slots up to the last non-zero one. Formalises R94. -/
def Obligations.NdecUnpacks : Prop :=
  (∀ ra : Reg, EncodedAs 0x11 0 ra 0 0 0 (.ndec ra))
  ∧ ∀ (ra : Reg) (s : State), s.sb.wf = true → ∃ t txt, exec (.ndec ra) s = .next t ∧ OnlyText txt s t
      ∧ txt.length ≤ 13
      ∧ (∀ i, (h : i < txt.length) → txt[i] = nameChr (slot (s.reg ra) i))
      ∧ (∀ i, txt.length ≤ i → i < 13 → slot (s.reg ra) i = 0)
      ∧ (∀ i, i + 1 = txt.length → slot (s.reg ra) i ≠ 0)

/-- NDEC after NENC gives the string without its trailing dots; NENC after NDEC gives every value back. Rests on
41_name_codec.md section 4 (round trip; the converse is the spec's own derivation). The converse direction is the
spec's own inference ('[derived: ...]', 41_name_codec.md). -/
def Obligations.NameRoundTrip : Prop :=
  (∀ (rd : Reg) (s t : State), s.sb.wf = true → exec (.nenc rd) s = .next t → t.fault = 0 →
      ∃ u, exec (.ndec rd) t = .next u ∧ u.fault = 0 ∧ u.sbIn = s.sbIn.rdropWhile (fun b => b == 0x2E))
  ∧ (∀ (ra rd : Reg) (s : State), s.sb.wf = true → ∃ t u, exec (.ndec ra) s = .next t ∧ exec (.nenc rd) t = .next u
      ∧ u.fault = 0 ∧ u.reg rd = s.reg ra)

/-- NLEN gives one more than the index of the last non-zero slot, 0 for 0. Formalises R100. -/
def Obligations.NlenCountsToTheLastCharacter : Prop :=
  (∀ rd ra : Reg, EncodedAs 0x12 rd ra 0 0 0 (.nlen rd ra))
  ∧ ∀ (rd ra : Reg) (s : State), ∃ t n, exec (.nlen rd ra) s = .next t ∧ OnlyReg rd (BitVec.ofNat 64 n) s t ∧ n ≤ 13
      ∧ (∀ i, n ≤ i → i < 13 → slot (s.reg ra) i = 0) ∧ (∀ i, i + 1 = n → slot (s.reg ra) i ≠ 0)
      ∧ (∃ u, exec (.ndec ra) s = .next u ∧ u.slen.val = n)

/-- NPFX keeps the slots before the rightmost followed dot and clears the rest; without one it gives the value itself.
Rests on 42_name_scan.md section 3 (its no-dot case is the spec's own derivation). That a value without a followed dot
is returned whole is the spec's own inference ('[derived: ...]', 42_name_scan.md). -/
def Obligations.NpfxCutsAtTheLastFollowedDot : Prop :=
  (∀ rd ra : Reg, EncodedAs 0x13 rd ra 0 0 0 (.npfx rd ra))
  ∧ ∀ (rd ra : Reg) (s : State), ∃ t p, exec (.npfx rd ra) s = .next t ∧ OnlyReg rd p s t
      ∧ (∀ d, FollowedDot (s.reg ra) d → (∀ j, d < j → ¬FollowedDot (s.reg ra) j) →
          ∀ j, j < 13 → slot p j = if j < d then slot (s.reg ra) j else 0)
      ∧ ((∀ d, ¬FollowedDot (s.reg ra) d) → p = s.reg ra)

/-- NSFX moves the slots after the last separating dot to the front, under both settings of P_SUFFIX_LEADING_DOTS.
Formalises R102. -/
def Obligations.NsfxKeepsWhatFollowsTheLastSeparator : Prop :=
  (∀ rd ra : Reg, EncodedAs 0x14 rd ra 0 0 0 (.nsfx rd ra))
  ∧ (∀ (p : SuffixLeadingDots) (v : Word),
      (∀ d, Separator p v d → (∀ j, d < j → ¬Separator p v j) →
        ∀ j, j < 13 → slot (nameSuffix p v) j = if j ≤ 11 - d then slot v (d + 1 + j) else 0)
      ∧ ((∀ d, ¬Separator p v d) → nameSuffix p v = v))
  ∧ ∀ (rd ra : Reg) (s : State), ∃ t, exec (.nsfx rd ra) s = .next t
      ∧ OnlyReg rd (nameSuffix Config.suffixLeadingDots (s.reg ra)) s t

/-- A name with a non-leading followed dot is its prefix cut at the dot, a dot, and its suffix; prefix and suffix are
never longer than the name. Rests on 42_name_scan.md section 5 (properties, the spec's own derivation). The relations
are the spec's own inference ('all [derived: ...]', 42_name_scan.md section 5). -/
def Obligations.NameSplitsAtItsLastDot : Prop :=
  ∀ (p : SuffixLeadingDots) (v : Word),
    nameLen (namePrefix v) ≤ nameLen v ∧ nameLen (nameSuffix p v) ≤ nameLen v
    ∧ ∀ d, FollowedDot v d → ¬LeadingDot v d → (∀ j, d < j → ¬FollowedDot v j) →
        nameDecode v = (List.range d).map (fun i => nameChr (slot (namePrefix v) i))
          ++ 0x2E :: nameDecode (nameSuffix p v)

/-- SCENC packs an accepted ticker byte by byte, and faults at the first offending position of any other string.
Formalises R112. -/
def Obligations.ScencPacksOrFaults : Prop :=
  (∀ rd : Reg, EncodedAs 0x20 rd 0 0 0 0 (.scenc rd))
  ∧ ∀ (rd : Reg) (s : State),
    (AcceptedCode s.sbIn → ∃ t v, exec (.scenc rd) s = .next t ∧ OnlyReg rd v s t ∧ CodeValue s.sbIn v)
    ∧ (∀ c, CodeFault s.sbIn c → exec (.scenc rd) s = .next (faulted c s))
    ∧ (AcceptedCode s.sbIn ∨ ∃ c, CodeFault s.sbIn c)

/-- SCDEC writes the non-zero bytes from the lowest up, to the first zero byte or to seven, unvalidated. Formalises
R113. -/
def Obligations.ScdecUnpacks : Prop :=
  (∀ ra : Reg, EncodedAs 0x21 0 ra 0 0 0 (.scdec ra))
  ∧ ∀ (ra : Reg) (s : State), s.sb.wf = true →
      ∃ t txt, exec (.scdec ra) s = .next t ∧ OnlyText txt s t ∧ CodeString (s.reg ra) txt

/-- SCVALID answers 1 exactly for 1 to 7 upper-case letters followed by zero bytes, under both settings of
P_SC_VALID_BYTE7. Formalises R114. -/
def Obligations.ScvalidDecides : Prop :=
  (∀ rd ra : Reg, EncodedAs 0x22 rd ra 0 0 0 (.scvalid rd ra))
  ∧ (∀ p v, scValid p v = true ↔ ValidCode p v)
  ∧ ∀ (rd ra : Reg) (s : State), ∃ t v, exec (.scvalid rd ra) s = .next t ∧ OnlyReg rd v s t
      ∧ (ValidCode Config.scValidByte7 (s.reg ra) → v = 1) ∧ (¬ValidCode Config.scValidByte7 (s.reg ra) → v = 0)

/-- SCLEN gives the length of the string SCDEC writes, 0 to 7. Formalises R115. -/
def Obligations.SclenCounts : Prop :=
  (∀ rd ra : Reg, EncodedAs 0x23 rd ra 0 0 0 (.sclen rd ra))
  ∧ ∀ (rd ra : Reg) (s : State), ∃ t txt, exec (.sclen rd ra) s = .next t ∧ CodeString (s.reg ra) txt
      ∧ OnlyReg rd (BitVec.ofNat 64 txt.length) s t

/-- SCDEC after SCENC gives the string back; SCENC after SCDEC gives a valid code back. Rests on 43_symbol_code.md
section 6 (properties, the spec's own derivation). The second direction is the spec's own inference ('[derived: ...]',
43_symbol_code.md section 6). -/
def Obligations.SymbolCodeRoundTrip : Prop :=
  (∀ (rd : Reg) (s t : State), s.sb.wf = true → exec (.scenc rd) s = .next t → t.fault = 0 →
      ∃ u, exec (.scdec rd) t = .next u ∧ u.fault = 0 ∧ u.sbIn = s.sbIn)
  ∧ (∀ (p : ScValidByte7) (ra rd : Reg) (s : State), s.sb.wf = true → scValid p (s.reg ra) = true →
      ∃ t u, exec (.scdec ra) s = .next t ∧ exec (.scenc rd) t = .next u ∧ u.fault = 0
        ∧ u.reg rd = s.reg ra &&& 0x00FFFFFFFFFFFFFF ∧ (p = .check → u.reg rd = s.reg ra))

/-- SYMK joins code and precision, losing byte 7 of the code, and faults 0x03 on a precision over 255. Rests on
44_symbol.md section 2 (the loss of byte 7 is the spec's own derivation). That bits 63:56 of the code are lost is the
spec's own inference ('[derived: ...]', 44_symbol.md). -/
def Obligations.SymkComposes : Prop :=
  (∀ rd ra rc : Reg, EncodedAs 0x28 rd ra 0 rc 0 (.symk rd ra rc))
  ∧ ∀ (rd ra rc : Reg) (s : State),
    (255 < (s.reg rc).toNat → exec (.symk rd ra rc) s = .next (faulted 0x03 s))
    ∧ ((s.reg rc).toNat ≤ 255 → ∃ t v, exec (.symk rd ra rc) s = .next t ∧ OnlyReg rd v s t
        ∧ v.toNat % 256 = (s.reg rc).toNat ∧ v.extractLsb' 8 56 = (s.reg ra).extractLsb' 0 56)

/-- SYCODE gives the upper 56 bits of a Symbol, with bits 63:56 zero. Formalises R122. -/
def Obligations.SycodeExtracts : Prop :=
  (∀ rd ra : Reg, EncodedAs 0x29 rd ra 0 0 0 (.sycode rd ra))
  ∧ ∀ (rd ra : Reg) (s : State), ∃ t v, exec (.sycode rd ra) s = .next t ∧ OnlyReg rd v s t
      ∧ v.extractLsb' 0 56 = (s.reg ra).extractLsb' 8 56 ∧ v.extractLsb' 56 8 = 0

/-- SYPREC gives the low byte of a Symbol. Formalises R123. -/
def Obligations.SyprecExtracts : Prop :=
  (∀ rd ra : Reg, EncodedAs 0x2A rd ra 0 0 0 (.syprec rd ra))
  ∧ ∀ (rd ra : Reg) (s : State), ∃ t v, exec (.syprec rd ra) s = .next t ∧ OnlyReg rd v s t
      ∧ v.toNat = (s.reg ra).toNat % 256

/-- SYVALID answers 1 exactly when the Symbol's code is valid, whatever its precision and whatever P_SC_VALID_BYTE7.
Formalises R124. -/
def Obligations.SyvalidDecides : Prop :=
  (∀ rd ra : Reg, EncodedAs 0x2B rd ra 0 0 0 (.syvalid rd ra))
  ∧ (∀ v : Word, ValidCode .check (v >>> 8) ↔ ValidCode .skip (v >>> 8))
  ∧ ∀ (rd ra : Reg) (s : State), ∃ t v, exec (.syvalid rd ra) s = .next t ∧ OnlyReg rd v s t
      ∧ (ValidCode .check (s.reg ra >>> 8) → v = 1) ∧ (¬ValidCode .check (s.reg ra >>> 8) → v = 0)

/-- SYFMT writes the precision in decimal, a comma and the code string, 2 to 11 bytes. Formalises R125. -/
def Obligations.SyfmtWritesPrecisionCommaCode : Prop :=
  (∀ ra : Reg, EncodedAs 0x2C 0 ra 0 0 0 (.syfmt ra))
  ∧ ∀ (ra : Reg) (s : State), s.sb.wf = true → ∃ t d c, exec (.syfmt ra) s = .next t
      ∧ OnlyText (d ++ 0x2C :: c) s t ∧ DecimalOf d ((s.reg ra).toNat % 256) ∧ CodeString (s.reg ra >>> 8) c
      ∧ 2 ≤ t.slen.val ∧ t.slen.val ≤ 11

/-- SYPARSE reads precision and code around exactly one comma, and faults in the order format, precision, code.
Formalises R126. -/
def Obligations.SyparseParsesOrFaults : Prop :=
  (∀ rd : Reg, EncodedAs 0x2D rd 0 0 0 0 (.syparse rd))
  ∧ (∀ (rd : Reg) (s : State), s.sbIn.count 0x2C ≠ 1 → exec (.syparse rd) s = .next (faulted 0x28 s))
  ∧ ∀ (rd : Reg) (s : State) (p c : List Byte), s.sbIn = p ++ 0x2C :: c → 0x2C ∉ p → 0x2C ∉ c →
    (¬(Digits p ∧ decVal p ≤ 255) → exec (.syparse rd) s = .next (faulted 0x29 s))
    ∧ (Digits p → decVal p ≤ 255 →
        (∀ f, CodeFault c f → exec (.syparse rd) s = .next (faulted f s))
        ∧ (AcceptedCode c → ∃ t v, exec (.syparse rd) s = .next t ∧ OnlyReg rd v s t
            ∧ v.toNat % 256 = decVal p ∧ CodeValue c (v >>> 8)))

/-- SYFMT after SYPARSE gives the string back; SYMK of SYCODE and SYPREC gives the Symbol back. Rests on 44_symbol.md
section 7 (properties, the spec's own derivation). The relations are the spec's own inference ('[derived: ...]',
44_symbol.md section 7). -/
def Obligations.SymbolRoundTrip : Prop :=
  (∀ (rd : Reg) (s t : State), s.sb.wf = true → exec (.syparse rd) s = .next t → t.fault = 0 →
      (∀ p c, s.sbIn = p ++ 0x2C :: c → p.head? = some 0x30 → p = [0x30]) →
      ∃ u, exec (.syfmt rd) t = .next u ∧ u.fault = 0 ∧ u.sbIn = s.sbIn)
  ∧ (∀ (ra rb rc rd : Reg) (s : State), rb ≠ ra → rc ≠ rb →
      ∃ t u w, exec (.sycode rb ra) s = .next t ∧ exec (.syprec rc ra) t = .next u
        ∧ exec (.symk rd rb rc) u = .next w ∧ w.fault = 0 ∧ w.reg rd = s.reg ra)

/-- ARANGE answers 1 exactly when the magnitude of the amount is at most 2^62 − 1. Formalises R131. -/
def Obligations.ArangeDecides : Prop :=
  (∀ rd ra : Reg, EncodedAs 0x30 rd ra 0 0 0 (.arange rd ra))
  ∧ ∀ (rd ra : Reg) (s : State), ∃ t v, exec (.arange rd ra) s = .next t ∧ OnlyReg rd v s t
      ∧ v = if -(2 ^ 62 - 1) ≤ (s.reg ra).toInt ∧ (s.reg ra).toInt ≤ 2 ^ 62 - 1 then 1 else 0

/-- AVALID answers 1 exactly when the amount is in range and the Symbol's code is valid. Formalises R132. -/
def Obligations.AvalidDecides : Prop :=
  (∀ rd ra rb : Reg, EncodedAs 0x31 rd ra rb 0 0 (.avalid rd ra rb))
  ∧ ∀ (rd ra rb : Reg) (s : State), ∃ t v, exec (.avalid rd ra rb) s = .next t ∧ OnlyReg rd v s t
      ∧ ((s.reg ra).toInt.natAbs ≤ 2 ^ 62 - 1 → ValidCode .check (s.reg rb >>> 8) → v = 1)
      ∧ (¬((s.reg ra).toInt.natAbs ≤ 2 ^ 62 - 1 ∧ ValidCode .check (s.reg rb >>> 8)) → v = 0)

/-- AADD delivers the exact sum of two Assets of one Symbol or faults, never wraps. Formalises R133. -/
def Obligations.AaddAddsExactly : Prop :=
  (∀ rd ra rb rc re : Reg, EncodedAs 0x32 rd ra rb rc re (.aadd rd ra rb rc re))
  ∧ ∀ (rd ra rb rc re : Reg) (s : State),
    (s.reg rb ≠ s.reg re → exec (.aadd rd ra rb rc re) s = .next (faulted 0x30 s))
    ∧ (s.reg rb = s.reg re → DeliversChecked (.aadd rd ra rb rc re) rd ((s.reg ra).toInt + (s.reg rc).toInt) s)

/-- ASUB delivers the exact difference of two Assets of one Symbol or faults, never wraps. Formalises R134. -/
def Obligations.AsubSubtractsExactly : Prop :=
  (∀ rd ra rb rc re : Reg, EncodedAs 0x33 rd ra rb rc re (.asub rd ra rb rc re))
  ∧ ∀ (rd ra rb rc re : Reg) (s : State),
    (s.reg rb ≠ s.reg re → exec (.asub rd ra rb rc re) s = .next (faulted 0x31 s))
    ∧ (s.reg rb = s.reg re → DeliversChecked (.asub rd ra rb rc re) rd ((s.reg ra).toInt - (s.reg rc).toInt) s)

/-- AMUL delivers the exact product of amount and scalar or faults, never wraps and never scales. Formalises R135. -/
def Obligations.AmulMultipliesExactly : Prop :=
  (∀ rd ra rc : Reg, EncodedAs 0x34 rd ra 0 rc 0 (.amul rd ra rc))
  ∧ ∀ (rd ra rc : Reg) (s : State), DeliversChecked (.amul rd ra rc) rd ((s.reg ra).toInt * (s.reg rc).toInt) s

/-- ADIV delivers the quotient rounded toward zero; it faults 0x36 on divisor 0 and 0x37 on −2^63 by −1. Formalises
R136. -/
def Obligations.AdivTruncates : Prop :=
  (∀ rd ra rc : Reg, EncodedAs 0x35 rd ra 0 rc 0 (.adiv rd ra rc))
  ∧ ∀ (rd ra rc : Reg) (s : State), DeliversQuotient (.adiv rd ra rc) rd (s.reg ra).toInt (s.reg rc).toInt s

/-- ADIVA divides two Assets of one Symbol, truncating; a mismatch faults 0x32 before anything else. Formalises R137.
-/
def Obligations.AdivaTruncates : Prop :=
  (∀ rd ra rb rc re : Reg, EncodedAs 0x36 rd ra rb rc re (.adiva rd ra rb rc re))
  ∧ ∀ (rd ra rb rc re : Reg) (s : State),
    (s.reg rb ≠ s.reg re → exec (.adiva rd ra rb rc re) s = .next (faulted 0x32 s))
    ∧ (s.reg rb = s.reg re → DeliversQuotient (.adiva rd ra rb rc re) rd (s.reg ra).toInt (s.reg rc).toInt s)

/-- ACMP gives −1, 0 or 1 for the signed order of two amounts of one Symbol, and faults 0x33 on different Symbols.
Formalises R138. -/
def Obligations.AcmpOrders : Prop :=
  (∀ rd ra rb rc re : Reg, EncodedAs 0x37 rd ra rb rc re (.acmp rd ra rb rc re))
  ∧ ∀ (rd ra rb rc re : Reg) (s : State),
    (s.reg rb ≠ s.reg re → exec (.acmp rd ra rb rc re) s = .next (faulted 0x33 s))
    ∧ (s.reg rb = s.reg re → ∃ t v, exec (.acmp rd ra rb rc re) s = .next t ∧ OnlyReg rd v s t
        ∧ ((s.reg ra).toInt < (s.reg rc).toInt → v = 0xFFFFFFFFFFFFFFFF)
        ∧ ((s.reg ra).toInt = (s.reg rc).toInt → v = 0)
        ∧ ((s.reg rc).toInt < (s.reg ra).toInt → v = 1))

/-- ANEG gives the negated amount and faults 0x38 on −2^63 alone. Formalises R139. -/
def Obligations.AnegFlipsTheSign : Prop :=
  (∀ rd ra : Reg, EncodedAs 0x38 rd ra 0 0 0 (.aneg rd ra))
  ∧ ∀ (rd ra : Reg) (s : State),
    ((s.reg ra).toInt = -2 ^ 63 → exec (.aneg rd ra) s = .next (faulted 0x38 s))
    ∧ ((s.reg ra).toInt ≠ -2 ^ 63 → ∃ t v, exec (.aneg rd ra) s = .next t ∧ OnlyReg rd v s t
        ∧ v.toInt = -(s.reg ra).toInt)

/-- From amounts in range AADD, ASUB, AMUL, ADIV and ANEG write only amounts in range, and faults 0x37 and 0x38 cannot
occur. Rests on 45_asset_arith.md section 8 (invariant preservation, the spec's own derivation). The invariant is the
spec's own inference ('[derived: ...]', 45_asset_arith.md section 8). -/
def Obligations.AmountsStayInRange : Prop :=
  ∀ (rd ra rb rc re : Reg) (s t : State),
    (s.reg ra).toInt.natAbs ≤ 2 ^ 62 - 1 → (s.reg rc).toInt.natAbs ≤ 2 ^ 62 - 1 →
    (∀ i ∈ [Instr.aadd rd ra rb rc re, .asub rd ra rb rc re, .amul rd ra rc, .adiv rd ra rc, .aneg rd ra],
      exec i s = .next t →
        (t.fault = 0 → (t.reg rd).toInt.natAbs ≤ 2 ^ 62 - 1) ∧ t.fault ≠ 0x37 ∧ t.fault ≠ 0x38)

/-- AFMT writes sign, integer digits, point and exactly p fraction digits, space and code, and never faults.
Formalises R151. -/
def Obligations.AfmtWritesTheDecimalText : Prop :=
  (∀ ra rb : Reg, EncodedAs 0x39 0 ra rb 0 0 (.afmt ra rb))
  ∧ ∀ (ra rb : Reg) (s : State), s.sb.wf = true → ∃ t ip fp c, exec (.afmt ra rb) s = .next t
      ∧ OnlyText ((if (s.reg ra).toInt < 0 then [0x2D] else []) ++ ip
          ++ (if (s.reg rb).toNat % 256 = 0 then [] else 0x2E :: fp) ++ 0x20 :: c) s t
      ∧ DecimalOf ip ((s.reg ra).toInt.natAbs / 10 ^ ((s.reg rb).toNat % 256))
      ∧ fp.length = (s.reg rb).toNat % 256 ∧ (∀ b ∈ fp, 0x30 ≤ b.toNat ∧ b.toNat ≤ 0x39)
      ∧ decVal (ip ++ fp) = (s.reg ra).toInt.natAbs
      ∧ CodeString (s.reg rb >>> 8) c ∧ t.slen.val ≤ 266

/-- APARSE reads amount and Symbol around exactly one space, and faults in the order asset, amount, precision, code.
Formalises R152. -/
def Obligations.AparseParsesOrFaults : Prop :=
  (∀ rd : Reg, decode (BitVec.ofNat 32 (0x3A * 2 ^ 24 + rd.val * 2 ^ 20 + rd.val * 2 ^ 16)) = .error .sameDestination)
  ∧ (∀ rd rd2 : Reg, rd ≠ rd2 → EncodedAs 0x3A rd rd2 0 0 0 (.aparse rd rd2))
  ∧ (∀ (rd rd2 : Reg) (s : State), rd ≠ rd2 → s.sbIn.count 0x20 ≠ 1 →
      exec (.aparse rd rd2) s = .next (faulted 0x39 s))
  ∧ ∀ (rd rd2 : Reg) (s : State) (tok code : List Byte), rd ≠ rd2 → s.sbIn = tok ++ 0x20 :: code → 0x20 ∉ tok →
      0x20 ∉ code →
    ((¬∃ n p, AmountToken tok n p ∧ -2 ^ 63 ≤ n ∧ n ≤ 2 ^ 63 - 1) → exec (.aparse rd rd2) s = .next (faulted 0x3A s))
    ∧ ∀ n p, AmountToken tok n p → -2 ^ 63 ≤ n → n ≤ 2 ^ 63 - 1 →
        (255 < p → exec (.aparse rd rd2) s = .next (faulted 0x29 s))
        ∧ (p ≤ 255 →
            (∀ f, CodeFault code f → exec (.aparse rd rd2) s = .next (faulted f s))
            ∧ (AcceptedCode code → ∃ t, exec (.aparse rd rd2) s = .next t
                ∧ (t.reg rd).toInt = n ∧ (t.reg rd2).toNat % 256 = p ∧ CodeValue code (t.reg rd2 >>> 8)
                ∧ (∀ r, r ≠ rd → r ≠ rd2 → t.reg r = s.reg r) ∧ SameBuffer s t ∧ Completed s t ∧ t.rdata = 0))

/-- APARSE of the text AFMT writes gives every amount and every Symbol with a valid code back. Rests on
46_asset_text.md section 4 (properties, the spec's own derivation). The round trip is the spec's own inference
('[derived: ...]', 46_asset_text.md section 4). -/
def Obligations.AssetTextRoundTrip : Prop :=
  ∀ (ra rb rd rd2 : Reg) (s : State), s.sb.wf = true → rd ≠ rd2 → ValidCode .check (s.reg rb >>> 8) →
    ∃ t u, exec (.afmt ra rb) s = .next t ∧ exec (.aparse rd rd2) t = .next u ∧ u.fault = 0
      ∧ u.reg rd = s.reg ra ∧ u.reg rd2 = s.reg rb
end

