-- ==== Sys2Proof/Laws/Encoding.lean ====
section
/-! SUPPORT. What the fields of a command word built by the encoder are (30_encoding.md R60), and which must-be-zero
checks it passes (R61). -/

namespace Sys2Proof

variable (op : Nat) (h : op < 256) (rd ra rb rc re : Reg)
include h

/-- The word as a number: nothing is cut off. -/
theorem commandWord_toNat : (commandWord op rd ra rb rc re).toNat =
    op * 2 ^ 24 + rd.val * 2 ^ 20 + ra.val * 2 ^ 16 + rb.val * 2 ^ 12 + rc.val * 2 ^ 8 + re.val * 2 ^ 4 := by
  simp only [commandWord, BitVec.toNat_ofNat]
  omega

theorem fieldOp_of_word : fieldOp (commandWord op rd ra rb rc re) = op := by
  simp only [fieldOp, bits, commandWord_toNat op h]
  omega

theorem fieldRd_of_word : fieldRd (commandWord op rd ra rb rc re) = rd := by
  ext
  simp only [fieldRd, bits, commandWord_toNat op h, Fin.ofNat]
  omega

theorem fieldRa_of_word : fieldRa (commandWord op rd ra rb rc re) = ra := by
  ext
  simp only [fieldRa, bits, commandWord_toNat op h, Fin.ofNat]
  omega

theorem fieldRb_of_word : fieldRb (commandWord op rd ra rb rc re) = rb := by
  ext
  simp only [fieldRb, bits, commandWord_toNat op h, Fin.ofNat]
  omega

theorem fieldRc_of_word : fieldRc (commandWord op rd ra rb rc re) = rc := by
  ext
  simp only [fieldRc, bits, commandWord_toNat op h, Fin.ofNat]
  omega

theorem fieldRe_of_word : fieldRe (commandWord op rd ra rb rc re) = re := by
  ext
  simp only [fieldRe, bits, commandWord_toNat op h, Fin.ofNat]
  omega

theorem zeroBitsA_of_word : zeroBitsA (commandWord op rd ra rb rc re) = true := by
  simp only [zeroBitsA, bits, commandWord_toNat op h, beq_iff_eq]
  omega

theorem zeroBitsDAB_of_word : zeroBitsDAB (commandWord op rd ra rb 0 0) = true := by
  simp only [zeroBitsDAB, bits, commandWord_toNat op h, beq_iff_eq, Fin.val_zero]
  omega

theorem zeroBitsDS_of_word : zeroBitsDS (commandWord op rd ra 0 0 0) = true := by
  simp only [zeroBitsDS, bits, commandWord_toNat op h, beq_iff_eq, Fin.val_zero]
  omega

theorem zeroBitsDD_of_word : zeroBitsDD (commandWord op rd ra 0 0 0) = true := by
  simp only [zeroBitsDD, bits, commandWord_toNat op h, beq_iff_eq, Fin.val_zero]
  omega

theorem zeroBitsD_of_word : zeroBitsD (commandWord op rd 0 0 0 0) = true := by
  simp only [zeroBitsD, bits, commandWord_toNat op h, beq_iff_eq, Fin.val_zero]
  omega

theorem zeroBitsZ_of_word : zeroBitsZ (commandWord op 0 0 0 0 0) = true := by
  simp only [zeroBitsZ, bits, commandWord_toNat op h, beq_iff_eq, Fin.val_zero]
  omega

theorem zeroBitsS_of_word : zeroBitsS (commandWord op 0 ra 0 0 0) = true := by
  simp only [zeroBitsS, bits, commandWord_toNat op h, beq_iff_eq, Fin.val_zero, Bool.and_eq_true]
  omega

theorem zeroBitsAB_of_word : zeroBitsAB (commandWord op 0 ra rb 0 0) = true := by
  simp only [zeroBitsAB, bits, commandWord_toNat op h, beq_iff_eq, Fin.val_zero, Bool.and_eq_true]
  omega

theorem zeroBitsDSC_of_word : zeroBitsDSC (commandWord op rd ra 0 rc 0) = true := by
  simp only [zeroBitsDSC, bits, commandWord_toNat op h, beq_iff_eq, Fin.val_zero, Bool.and_eq_true]
  omega

end Sys2Proof
end

