-- ==== Sys2Proof/Laws/State.lean ====
section
/-! SUPPORT. One lemma per field per update of State, true by rfl, so that no later proof unfolds a record update. -/

namespace Sys2Proof.Machine

variable (s : State)

@[simp] theorem State.setReg_x (i : Reg) (v : Word) : (s.setReg i v).x = s.x.set i v := rfl
@[simp] theorem State.setReg_sb (i : Reg) (v : Word) : (s.setReg i v).sb = s.sb := rfl
@[simp] theorem State.setReg_slen (i : Reg) (v : Word) : (s.setReg i v).slen = s.slen := rfl
@[simp] theorem State.setReg_fcode (i : Reg) (v : Word) : (s.setReg i v).fcode = s.fcode := rfl
@[simp] theorem State.setReg_halt (i : Reg) (v : Word) : (s.setReg i v).halt = s.halt := rfl
@[simp] theorem State.setReg_pending (i : Reg) (v : Word) : (s.setReg i v).pending = s.pending := rfl
@[simp] theorem State.setReg_wdata (i : Reg) (v : Word) : (s.setReg i v).wdata = s.wdata := rfl
@[simp] theorem State.setReg_rdata (i : Reg) (v : Word) : (s.setReg i v).rdata = s.rdata := rfl
@[simp] theorem State.setReg_fault (i : Reg) (v : Word) : (s.setReg i v).fault = s.fault := rfl

@[simp] theorem State.memWrite_x (a : Nat) (v : Byte) : (s.memWrite a v).x = s.x := rfl
@[simp] theorem State.memWrite_sb (a : Nat) (v : Byte) : (s.memWrite a v).sb = s.sb.write a v := rfl
@[simp] theorem State.memWrite_slen (a : Nat) (v : Byte) : (s.memWrite a v).slen = s.slen := rfl
@[simp] theorem State.memWrite_fcode (a : Nat) (v : Byte) : (s.memWrite a v).fcode = s.fcode := rfl
@[simp] theorem State.memWrite_halt (a : Nat) (v : Byte) : (s.memWrite a v).halt = s.halt := rfl
@[simp] theorem State.memWrite_pending (a : Nat) (v : Byte) : (s.memWrite a v).pending = s.pending := rfl
@[simp] theorem State.memWrite_wdata (a : Nat) (v : Byte) : (s.memWrite a v).wdata = s.wdata := rfl
@[simp] theorem State.memWrite_rdata (a : Nat) (v : Byte) : (s.memWrite a v).rdata = s.rdata := rfl
@[simp] theorem State.memWrite_fault (a : Nat) (v : Byte) : (s.memWrite a v).fault = s.fault := rfl
@[simp] theorem State.memWrite_reg (a : Nat) (v : Byte) (r : Reg) : (s.memWrite a v).reg r = s.reg r := rfl

@[simp] theorem State.setSlen_x (n : Nat) : (s.setSlen n).x = s.x := rfl
@[simp] theorem State.setSlen_sb (n : Nat) : (s.setSlen n).sb = s.sb := rfl
@[simp] theorem State.setSlen_slen (n : Nat) : (s.setSlen n).slen = Fin.ofNat (Config.sbCap + 1) n := rfl
@[simp] theorem State.setSlen_fcode (n : Nat) : (s.setSlen n).fcode = s.fcode := rfl
@[simp] theorem State.setSlen_halt (n : Nat) : (s.setSlen n).halt = s.halt := rfl
@[simp] theorem State.setSlen_pending (n : Nat) : (s.setSlen n).pending = s.pending := rfl
@[simp] theorem State.setSlen_wdata (n : Nat) : (s.setSlen n).wdata = s.wdata := rfl
@[simp] theorem State.setSlen_rdata (n : Nat) : (s.setSlen n).rdata = s.rdata := rfl
@[simp] theorem State.setSlen_fault (n : Nat) : (s.setSlen n).fault = s.fault := rfl
@[simp] theorem State.setSlen_reg (n : Nat) (r : Reg) : (s.setSlen n).reg r = s.reg r := rfl

@[simp] theorem State.sbOut_x (t : List Byte) : (s.sbOut t).x = s.x := rfl
@[simp] theorem State.sbOut_sb (t : List Byte) : (s.sbOut t).sb = s.sb.writeAll 0 t := rfl
@[simp] theorem State.sbOut_slen (t : List Byte) : (s.sbOut t).slen = Fin.ofNat (Config.sbCap + 1) t.length := rfl
@[simp] theorem State.sbOut_fcode (t : List Byte) : (s.sbOut t).fcode = s.fcode := rfl
@[simp] theorem State.sbOut_halt (t : List Byte) : (s.sbOut t).halt = s.halt := rfl
@[simp] theorem State.sbOut_pending (t : List Byte) : (s.sbOut t).pending = s.pending := rfl
@[simp] theorem State.sbOut_wdata (t : List Byte) : (s.sbOut t).wdata = s.wdata := rfl
@[simp] theorem State.sbOut_rdata (t : List Byte) : (s.sbOut t).rdata = s.rdata := rfl
@[simp] theorem State.sbOut_fault (t : List Byte) : (s.sbOut t).fault = s.fault := rfl
@[simp] theorem State.sbOut_reg (t : List Byte) (r : Reg) : (s.sbOut t).reg r = s.reg r := rfl

@[simp] theorem State.respond_x (v : Word) : (s.respond v).x = s.x := rfl
@[simp] theorem State.respond_sb (v : Word) : (s.respond v).sb = s.sb := rfl
@[simp] theorem State.respond_slen (v : Word) : (s.respond v).slen = s.slen := rfl
@[simp] theorem State.respond_fcode (v : Word) : (s.respond v).fcode = s.fcode := rfl
@[simp] theorem State.respond_halt (v : Word) : (s.respond v).halt = s.halt := rfl
@[simp] theorem State.respond_pending (v : Word) : (s.respond v).pending = s.pending := rfl
@[simp] theorem State.respond_wdata (v : Word) : (s.respond v).wdata = s.wdata := rfl
@[simp] theorem State.respond_rdata (v : Word) : (s.respond v).rdata = v := rfl
@[simp] theorem State.respond_fault (v : Word) : (s.respond v).fault = 0 := rfl
@[simp] theorem State.respond_reg (v : Word) (r : Reg) : (s.respond v).reg r = s.reg r := rfl

@[simp] theorem State.ignoreCommand_x : (s.ignoreCommand).x = s.x := rfl
@[simp] theorem State.ignoreCommand_sb : (s.ignoreCommand).sb = s.sb := rfl
@[simp] theorem State.ignoreCommand_slen : (s.ignoreCommand).slen = s.slen := rfl
@[simp] theorem State.ignoreCommand_fcode : (s.ignoreCommand).fcode = s.fcode := rfl
@[simp] theorem State.ignoreCommand_halt : (s.ignoreCommand).halt = s.halt := rfl
@[simp] theorem State.ignoreCommand_pending : (s.ignoreCommand).pending = s.pending := rfl
@[simp] theorem State.ignoreCommand_wdata : (s.ignoreCommand).wdata = s.wdata := rfl
@[simp] theorem State.ignoreCommand_rdata : (s.ignoreCommand).rdata = 0 := rfl
@[simp] theorem State.ignoreCommand_fault : (s.ignoreCommand).fault = s.fcode := rfl
@[simp] theorem State.ignoreCommand_reg (r : Reg) : (s.ignoreCommand).reg r = s.reg r := rfl

@[simp] theorem State.faultEntry_x (c : FltCode) : (s.faultEntry c).x = s.x := rfl
@[simp] theorem State.faultEntry_sb (c : FltCode) : (s.faultEntry c).sb = s.sb := rfl
@[simp] theorem State.faultEntry_slen (c : FltCode) : (s.faultEntry c).slen = s.slen := rfl
@[simp] theorem State.faultEntry_fcode (c : FltCode) : (s.faultEntry c).fcode = c.number := rfl
@[simp] theorem State.faultEntry_halt (c : FltCode) : (s.faultEntry c).halt = true := rfl
@[simp] theorem State.faultEntry_pending (c : FltCode) : (s.faultEntry c).pending = s.pending := rfl
@[simp] theorem State.faultEntry_wdata (c : FltCode) : (s.faultEntry c).wdata = s.wdata := rfl
@[simp] theorem State.faultEntry_rdata (c : FltCode) : (s.faultEntry c).rdata = 0 := rfl
@[simp] theorem State.faultEntry_fault (c : FltCode) : (s.faultEntry c).fault = c.number := rfl
@[simp] theorem State.faultEntry_reg (c : FltCode) (r : Reg) : (s.faultEntry c).reg r = s.reg r := rfl

@[simp] theorem State.resetWith_x (rest : List HostEvent) : (s.resetWith rest).x = State.reset.x := rfl
@[simp] theorem State.resetWith_sb (rest : List HostEvent) : (s.resetWith rest).sb = [] := rfl
@[simp] theorem State.resetWith_slen (rest : List HostEvent) : (s.resetWith rest).slen = 0 := rfl
@[simp] theorem State.resetWith_fcode (rest : List HostEvent) : (s.resetWith rest).fcode = 0 := rfl
@[simp] theorem State.resetWith_halt (rest : List HostEvent) : (s.resetWith rest).halt = false := rfl
@[simp] theorem State.resetWith_pending (rest : List HostEvent) : (s.resetWith rest).pending = rest := rfl
@[simp] theorem State.resetWith_wdata (rest : List HostEvent) : (s.resetWith rest).wdata = 0 := rfl
@[simp] theorem State.resetWith_rdata (rest : List HostEvent) : (s.resetWith rest).rdata = 0 := rfl
@[simp] theorem State.resetWith_fault (rest : List HostEvent) : (s.resetWith rest).fault = 0 := rfl

@[simp] theorem State.present_x (w : Word) (rest : List HostEvent) : (s.present w rest).x = s.x := rfl
@[simp] theorem State.present_sb (w : Word) (rest : List HostEvent) : (s.present w rest).sb = s.sb := rfl
@[simp] theorem State.present_slen (w : Word) (rest : List HostEvent) : (s.present w rest).slen = s.slen := rfl
@[simp] theorem State.present_fcode (w : Word) (rest : List HostEvent) : (s.present w rest).fcode = s.fcode := rfl
@[simp] theorem State.present_halt (w : Word) (rest : List HostEvent) : (s.present w rest).halt = s.halt := rfl
@[simp] theorem State.present_pending (w : Word) (rest : List HostEvent) : (s.present w rest).pending = rest := rfl
@[simp] theorem State.present_wdata (w : Word) (rest : List HostEvent) : (s.present w rest).wdata = w := rfl
@[simp] theorem State.present_rdata (w : Word) (rest : List HostEvent) : (s.present w rest).rdata = s.rdata := rfl
@[simp] theorem State.present_fault (w : Word) (rest : List HostEvent) : (s.present w rest).fault = s.fault := rfl
@[simp] theorem State.present_reg (w : Word) (rest : List HostEvent) (r : Reg) : (s.present w rest).reg r = s.reg r := rfl

/-- Writing a register and reading the same one (10_state.md R21: no register is hardwired). -/
@[simp] theorem State.setReg_reg_self (i : Reg) (v : Word) : (s.setReg i v).reg i = v := by
  simp [State.reg, State.setReg]

/-- Writing a register leaves every other register alone. -/
theorem State.setReg_reg_other (i r : Reg) (v : Word) (h : r ≠ i) : (s.setReg i v).reg r = s.reg r := by
  have hv : i.val ≠ r.val := fun e => h (Fin.ext e.symm)
  simp [State.reg, State.setReg, hv]

/-- Reading any register after writing one. -/
theorem State.setReg_reg (i r : Reg) (v : Word) : (s.setReg i v).reg r = if r = i then v else s.reg r := by
  by_cases h : r = i
  · subst h; simp
  · simp [h, State.setReg_reg_other]

/-- `SLEN` is at most `SB_CAP` (10_state.md R23). -/
theorem State.slen_le : s.slen.val ≤ 512 := Nat.le_of_lt_succ s.slen.isLt

/-- Every register is 0 after reset (70_reset_and_hazards.md R180). -/
@[simp] theorem State.reset_reg (r : Reg) : State.reset.reg r = 0 := by
  simp [State.reg, State.reset]

@[simp] theorem State.resetWith_reg (rest : List HostEvent) (r : Reg) : (s.resetWith rest).reg r = 0 :=
  State.reset_reg r

end Sys2Proof.Machine
end

