-- ==== Sys2Proof/Laws/Memory.lean ====
section
/-! SUPPORT. The string buffer: read after write, and every operation keeps the canonical form (20_memory.md R42, R44,
R48). -/

namespace Sys2Proof.Machine

/-- A smaller lower bound is weaker. -/
theorem Memory.wfFrom_mono {lo lo' : Nat} (h : lo ≤ lo') : ∀ m : Memory, m.wfFrom lo' = true → m.wfFrom lo = true
  | [], _ => rfl
  | c :: rest, hm => by
    simp only [Memory.wfFrom, Bool.and_eq_true, decide_eq_true_eq] at hm ⊢
    exact ⟨⟨⟨by omega, hm.1.1.2⟩, hm.1.2⟩, hm.2⟩

/-- Below every listed address the buffer reads 0. -/
theorem Memory.read_below {a lo : Nat} (h : a < lo) : ∀ m : Memory, m.wfFrom lo = true → m.read a = 0#8
  | [], _ => rfl
  | c :: rest, hm => by
    simp only [Memory.wfFrom, Bool.and_eq_true, decide_eq_true_eq] at hm
    have hne : c.1 ≠ a := by omega
    simp only [Memory.read, hne, if_false]
    exact Memory.read_below (by omega) rest hm.2

/-- A byte written inside the address space keeps the canonical form. -/
theorem Memory.write_wfFrom {lo a : Nat} {b : Byte} (hlo : lo ≤ a) (ha : a < Config.sbCap) :
    ∀ m : Memory, m.wfFrom lo = true → (m.write a b).wfFrom lo = true
  | [], _ => by
    by_cases hb : b = 0#8 <;> simp [Memory.write, Memory.wfFrom, hb, hlo, ha]
  | c :: rest, hm => by
    have h0 := hm
    simp only [Memory.wfFrom, Bool.and_eq_true, decide_eq_true_eq] at hm
    obtain ⟨⟨⟨h1, h2⟩, h3⟩, h4⟩ := hm
    by_cases hb : b = 0#8 <;> rcases Nat.lt_trichotomy a c.1 with h | h | h
    · simpa [Memory.write, h, hb] using h0
    · subst h
      simpa [Memory.write, hb] using Memory.wfFrom_mono (by omega) rest h4
    · have hrec := Memory.write_wfFrom (b := b) (show c.1 + 1 ≤ a by omega) ha rest h4
      simp only [Memory.write, if_neg (show ¬a < c.1 by omega), if_neg (show ¬a = c.1 by omega), Memory.wfFrom,
        Bool.and_eq_true, decide_eq_true_eq]
      exact ⟨⟨⟨h1, h2⟩, h3⟩, hrec⟩
    · have hc : c.1 ≥ a + 1 := h
      simp [Memory.write, h, hb, Memory.wfFrom, hlo, ha, hc, h2, h3, h4]
    · subst h
      simp [Memory.write, hb, Memory.wfFrom, hlo, ha, h4]
    · have hrec := Memory.write_wfFrom (b := b) (show c.1 + 1 ≤ a by omega) ha rest h4
      simp only [Memory.write, if_neg (show ¬a < c.1 by omega), if_neg (show ¬a = c.1 by omega), Memory.wfFrom,
        Bool.and_eq_true, decide_eq_true_eq]
      exact ⟨⟨⟨h1, h2⟩, h3⟩, hrec⟩

/-- MemWrite keeps the canonical form (R42: `addr < SB_CAP`). -/
theorem Memory.write_wf {m : Memory} {a : Nat} {b : Byte} (ha : a < Config.sbCap) (h : m.wf = true) :
    (m.write a b).wf = true :=
  Memory.write_wfFrom (Nat.zero_le a) ha m h

/-- What a byte reads as after a write, in canonical form. -/
theorem Memory.read_write_from {lo a a' : Nat} {b : Byte} :
    ∀ m : Memory, m.wfFrom lo = true → (m.write a b).read a' = if a' = a then b else m.read a'
  | [], _ => by
    by_cases h : a = a'
    · subst h; by_cases hb : b = 0#8 <;> simp [Memory.write, Memory.read, hb]
    · have h' : ¬a' = a := fun e => h e.symm
      by_cases hb : b = 0#8 <;> simp [Memory.write, Memory.read, hb, h, h']
  | c :: rest, hm => by
    simp only [Memory.wfFrom, Bool.and_eq_true, decide_eq_true_eq] at hm
    obtain ⟨_, h4⟩ := hm
    rcases Nat.lt_trichotomy a c.1 with h | h | h
    · by_cases hb : b = 0#8
      · by_cases he : a' = a
        · subst he
          simpa [Memory.write, h, hb, Memory.read, show c.1 ≠ a' by omega] using Memory.read_below (by omega) rest h4
        · simp [Memory.write, h, hb, he]
      · by_cases he : a = a'
        · subst he; simp [Memory.write, h, hb, Memory.read]
        · have he' : ¬a' = a := fun e => he e.symm
          simp [Memory.write, h, hb, Memory.read, he, he']
    · subst h
      by_cases hb : b = 0#8 <;> by_cases he : a' = c.1
      · subst he
        simpa [Memory.write, hb] using Memory.read_below (by omega) rest h4
      · have he' : ¬c.1 = a' := fun e => he e.symm
        simp [Memory.write, hb, Memory.read, he, he']
      · simp [Memory.write, hb, Memory.read, he]
      · have he' : ¬c.1 = a' := fun e => he e.symm
        simp [Memory.write, hb, Memory.read, he, he']
    · have hrec := Memory.read_write_from (a := a) (a' := a') (b := b) rest h4
      simp only [Memory.write, if_neg (show ¬a < c.1 by omega), if_neg (show ¬a = c.1 by omega), Memory.read, hrec]
      by_cases he : a' = a
      · simp [he, show c.1 ≠ a by omega]
      · simp [he]

/-- Reading after MemWrite: the written byte at its address, every other byte as before (R42). -/
theorem Memory.read_write {m : Memory} (h : m.wf = true) (a a' : Nat) (b : Byte) :
    (m.write a b).read a' = if a' = a then b else m.read a' :=
  Memory.read_write_from m h

/-- Writing a string inside the address space keeps the canonical form (R44). -/
theorem Memory.writeAll_wf : ∀ (t : List Byte) {m : Memory} {a : Nat}, a + t.length ≤ Config.sbCap → m.wf = true →
    (m.writeAll a t).wf = true
  | [], _, _, _, h => h
  | b :: bs, m, a, ha, h => by
    have hlen : a + 1 + bs.length ≤ Config.sbCap := by simpa [Nat.add_assoc, Nat.add_comm 1] using ha
    exact Memory.writeAll_wf bs hlen (Memory.write_wf (by simp at ha; omega) h)

/-- Reading after a string has been written: its bytes at its addresses, every other byte as before (R44). -/
theorem Memory.read_writeAll : ∀ (t : List Byte) {m : Memory} (a a' : Nat), a + t.length ≤ Config.sbCap → m.wf = true →
    (m.writeAll a t).read a' = if h : a ≤ a' ∧ a' - a < t.length then t[a' - a]'h.2 else m.read a'
  | [], m, a, a', _, _ => by simp [Memory.writeAll]
  | b :: bs, m, a, a', ha, h => by
    have hlen : a + 1 + bs.length ≤ Config.sbCap := by simpa [Nat.add_assoc, Nat.add_comm 1] using ha
    have hw : (m.write a b).wf = true := Memory.write_wf (by simp at ha; omega) h
    rw [Memory.writeAll, Memory.read_writeAll bs (a + 1) a' hlen hw, Memory.read_write h]
    rcases Nat.lt_trichotomy a' a with h1 | h1 | h1
    · have n1 : ¬(a + 1 ≤ a' ∧ a' - (a + 1) < bs.length) := by omega
      have n2 : ¬(a ≤ a' ∧ a' - a < (b :: bs).length) := by omega
      rw [dif_neg n1, dif_neg n2, if_neg (by omega)]
    · subst h1
      have n1 : ¬(a' + 1 ≤ a' ∧ a' - (a' + 1) < bs.length) := by omega
      rw [dif_neg n1]
      simp
    · obtain ⟨d, rfl⟩ : ∃ d, a' = a + 1 + d := ⟨a' - (a + 1), by omega⟩
      by_cases hd : d < bs.length
      · have p1 : a + 1 ≤ a + 1 + d ∧ a + 1 + d - (a + 1) < bs.length := by omega
        have p2 : a ≤ a + 1 + d ∧ a + 1 + d - a < (b :: bs).length := by simp; omega
        rw [dif_pos p1, dif_pos p2]
        have e1 : a + 1 + d - (a + 1) = d := by omega
        have e2 : a + 1 + d - a = d + 1 := by omega
        simp only [e1, e2, List.getElem_cons_succ]
      · have n1 : ¬(a + 1 ≤ a + 1 + d ∧ a + 1 + d - (a + 1) < bs.length) := by omega
        have n2 : ¬(a ≤ a + 1 + d ∧ a + 1 + d - a < (b :: bs).length) := by simp; omega
        rw [dif_neg n1, dif_neg n2, if_neg (by omega)]

/-- Equal contents are equal lists: the canonical form is one. -/
theorem Memory.ext_of_read : ∀ {lo : Nat} (m m' : Memory), m.wfFrom lo = true → m'.wfFrom lo = true →
    (∀ a, m.read a = m'.read a) → m = m'
  | _, [], [], _, _, _ => rfl
  | _, [], c :: rest, _, h', he => by
    simp only [Memory.wfFrom, Bool.and_eq_true, decide_eq_true_eq] at h'
    exact absurd (by simpa [Memory.read] using (he c.1).symm) h'.1.2
  | _, c :: rest, [], h, _, he => by
    simp only [Memory.wfFrom, Bool.and_eq_true, decide_eq_true_eq] at h
    exact absurd (by simpa [Memory.read] using he c.1) h.1.2
  | lo, c :: rest, d :: rest', h, h', he => by
    simp only [Memory.wfFrom, Bool.and_eq_true, decide_eq_true_eq] at h h'
    obtain ⟨⟨_, hc⟩, hr⟩ := h
    obtain ⟨⟨_, hd⟩, hr'⟩ := h'
    have key : c.1 = d.1 := by
      rcases Nat.lt_trichotomy c.1 d.1 with hlt | heq | hgt
      · have := he c.1
        simp only [Memory.read, if_true, if_neg (show ¬d.1 = c.1 by omega)] at this
        exact absurd (this.trans (Memory.read_below (by omega) rest' hr')) hc
      · exact heq
      · have := he d.1
        simp only [Memory.read, if_true, if_neg (show ¬c.1 = d.1 by omega)] at this
        exact absurd (this.symm.trans (Memory.read_below (by omega) rest hr)) hd
    have val : c.2 = d.2 := by simpa [Memory.read, key] using he c.1
    have tail : rest = rest' := by
      refine Memory.ext_of_read rest rest' hr (by rw [key]; exact hr') (fun a => ?_)
      by_cases ha : a = c.1
      · subst ha
        rw [Memory.read_below (by omega) rest hr, Memory.read_below (by omega) rest' hr']
      · have := he a
        simpa only [Memory.read, if_neg (show ¬c.1 = a from Ne.symm ha), if_neg (show ¬d.1 = a by omega)] using this
    rw [tail, show c = d from Prod.ext key val]

/-- The buffer of the reset state has the canonical form. -/
theorem State.reset_sb_wf : State.reset.sb.wf = true := rfl

end Sys2Proof.Machine
end

