-- ==== Sys2Proof/Laws/Ops.lean ====
section
/-! SUPPORT. One lemma per shared operation, saying once what it can do. -/

namespace Sys2Proof.Machine

/-- `s64` is the two's complement reading (00_scope.md R12). -/
theorem s64_eq_toInt (v : Word) : s64 v = v.toInt := by
  simp only [s64, BitVec.toInt_eq_toNat_cond]
  split <;> split <;> omega

/-- An integer within `i64` survives `u64` and `s64`. -/
theorem s64_u64 (n : Int) (h1 : -2 ^ 63 ≤ n) (h2 : n < 2 ^ 63) : s64 (u64 n) = n := by
  rw [s64_eq_toInt, u64, BitVec.toInt_ofInt, Int.bmod_eq_of_le] <;> omega

/-- `u64` undoes `s64`. -/
theorem u64_s64 (v : Word) : u64 (s64 v) = v := by
  rw [s64_eq_toInt, u64, BitVec.ofInt_toInt]

/-- Every value read as `i64` lies in its range. -/
theorem s64_bounds (v : Word) : -2 ^ 63 ≤ s64 v ∧ s64 v < 2 ^ 63 := by
  rw [s64_eq_toInt]
  exact ⟨by simpa using BitVec.le_toInt v, by simpa using BitVec.toInt_lt (x := v)⟩

/-- Raising a fault always gives the fault-entry state. -/
theorem raise_eq (c : FltCode) (s : State) : raise c s = .next (s.faultEntry c) := rfl

/-- Completion always gives a next state. -/
theorem complete_eq (s : State) : complete s = .next (s.respond 0) := rfl

/-- A register result always gives a next state. -/
theorem writeResult_eq (rd : Reg) (v : Word) (s : State) : writeResult rd v s = .next ((s.setReg rd v).respond 0) := rfl

/-- A computed value goes on, a fault is taken: nothing else can happen. -/
theorem orRaise_cases {α : Type} {s t : State} {r : Except FltCode α} {k : α → Answer} (h : orRaise s r k = .next t) :
    (∃ a, r = .ok a ∧ k a = .next t) ∨ (∃ c, r = .error c ∧ t = s.faultEntry c) := by
  cases r with
  | ok a => exact .inl ⟨a, rfl, h⟩
  | error c => exact .inr ⟨c, rfl, by simpa [orRaise, raise] using h.symm⟩

@[simp] theorem orRaise_ok {α : Type} (s : State) (a : α) (k : α → Answer) : orRaise s (.ok a) k = k a := rfl

@[simp] theorem orRaise_error {α : Type} (s : State) (c : FltCode) (k : α → Answer) :
    orRaise s (.error c) k = .next (s.faultEntry c) := rfl

/-- No fault code is 0, so that a taken fault is seen in FCODE and in the response (60_exceptions.md R163). -/
theorem FltCode.number_ne_zero (c : FltCode) : c.number ≠ 0 := by
  cases c <;> decide

/-- Distinct fault causes have distinct codes (60_exceptions.md R161). -/
theorem FltCode.number_inj {c d : FltCode} (h : c.number = d.number) : c = d := by
  cases c <;> cases d <;> first | rfl | exact absurd h (by decide)

/-- The length after `SBout` of a string that fits (20_memory.md R44, R45). -/
theorem State.sbOut_slen_val (s : State) (t : List Byte) (h : t.length ≤ Config.sbCap) :
    (s.sbOut t).slen.val = t.length := by
  simp only [State.sbOut_slen, Fin.ofNat]
  exact Nat.mod_eq_of_lt (by omega)

/-- A byte of the buffer after `SBout` of a string that fits: the string's bytes, then what was there (20_memory.md
R44). -/
theorem State.sbOut_read (s : State) (hs : s.sb.wf = true) (t : List Byte) (h : t.length ≤ Config.sbCap) (a : Nat) :
    (s.sbOut t).sb.read a = if h : a < t.length then t[a] else s.sb.read a := by
  rw [State.sbOut_sb, Memory.read_writeAll t 0 a (by omega) hs]
  simp

/-- The current string has `SLEN` bytes. -/
@[simp] theorem State.sbIn_length (s : State) : s.sbIn.length = s.slen.val := by
  simp [State.sbIn]

/-- Character `k` of the current string is `SB[k]` (20_memory.md R41, R43). -/
theorem State.sbIn_getElem (s : State) (k : Nat) (h : k < s.sbIn.length) : s.sbIn[k] = s.sb.read k := by
  simp [State.sbIn, State.memRead]

/-- After `SBout` the current string is the one written. -/
theorem State.sbIn_sbOut (s : State) (hs : s.sb.wf = true) (t : List Byte) (h : t.length ≤ Config.sbCap) :
    (s.sbOut t).sbIn = t := by
  apply List.ext_getElem
  · rw [State.sbIn_length, State.sbOut_slen_val s t h]
  · intro k h1 h2
    rw [State.sbIn_getElem, State.sbOut_read s hs t h, dif_pos h2]

end Sys2Proof.Machine
end

