-- ==== Sys2Proof/Laws/PerInstr.lean ====
section
/-! SUPPORT. Statements for all commands, one lemma per constructor. OpcodeByte: bits 31:24 of a command's word are its
opcode (30_encoding.md R60, R63). -/

namespace Sys2Proof.Laws

/-- Every command word built from an 8-bit opcode and register fields carries the opcode in bits 31:24. -/
theorem fieldOp_commandWord (op : Nat) (h : op < 256) (rd ra rb rc re : Reg) :
    fieldOp (commandWord op rd ra rb rc re) = op := by
  simp only [fieldOp, bits, commandWord, BitVec.toNat_ofNat]
  omega

/-- Bits 31:24 of the command's word are its opcode. -/
def OpcodeByte.Statement (i : Instr) : Prop := fieldOp (encode i) = i.opcode

theorem OpcodeByte.nop : OpcodeByte.Statement .nop :=
  fieldOp_commandWord _ (by decide) _ _ _ _ _

theorem OpcodeByte.setr (rd : Reg) : OpcodeByte.Statement (.setr rd) :=
  fieldOp_commandWord _ (by decide) _ _ _ _ _

theorem OpcodeByte.getr (ra : Reg) : OpcodeByte.Statement (.getr ra) :=
  fieldOp_commandWord _ (by decide) _ _ _ _ _

theorem OpcodeByte.sbclr : OpcodeByte.Statement .sbclr :=
  fieldOp_commandWord _ (by decide) _ _ _ _ _

theorem OpcodeByte.sbput : OpcodeByte.Statement .sbput :=
  fieldOp_commandWord _ (by decide) _ _ _ _ _

theorem OpcodeByte.sbget (imm16 : BitVec 16) : OpcodeByte.Statement (.sbget imm16) := by
  simp only [OpcodeByte.Statement, fieldOp, bits, encode, Instr.opcode, BitVec.toNat_ofNat]
  omega

theorem OpcodeByte.sblen : OpcodeByte.Statement .sblen :=
  fieldOp_commandWord _ (by decide) _ _ _ _ _

theorem OpcodeByte.nenc (rd : Reg) : OpcodeByte.Statement (.nenc rd) :=
  fieldOp_commandWord _ (by decide) _ _ _ _ _

theorem OpcodeByte.ndec (ra : Reg) : OpcodeByte.Statement (.ndec ra) :=
  fieldOp_commandWord _ (by decide) _ _ _ _ _

theorem OpcodeByte.nlen (rd ra : Reg) : OpcodeByte.Statement (.nlen rd ra) :=
  fieldOp_commandWord _ (by decide) _ _ _ _ _

theorem OpcodeByte.npfx (rd ra : Reg) : OpcodeByte.Statement (.npfx rd ra) :=
  fieldOp_commandWord _ (by decide) _ _ _ _ _

theorem OpcodeByte.nsfx (rd ra : Reg) : OpcodeByte.Statement (.nsfx rd ra) :=
  fieldOp_commandWord _ (by decide) _ _ _ _ _

theorem OpcodeByte.scenc (rd : Reg) : OpcodeByte.Statement (.scenc rd) :=
  fieldOp_commandWord _ (by decide) _ _ _ _ _

theorem OpcodeByte.scdec (ra : Reg) : OpcodeByte.Statement (.scdec ra) :=
  fieldOp_commandWord _ (by decide) _ _ _ _ _

theorem OpcodeByte.scvalid (rd ra : Reg) : OpcodeByte.Statement (.scvalid rd ra) :=
  fieldOp_commandWord _ (by decide) _ _ _ _ _

theorem OpcodeByte.sclen (rd ra : Reg) : OpcodeByte.Statement (.sclen rd ra) :=
  fieldOp_commandWord _ (by decide) _ _ _ _ _

theorem OpcodeByte.symk (rd ra rc : Reg) : OpcodeByte.Statement (.symk rd ra rc) :=
  fieldOp_commandWord _ (by decide) _ _ _ _ _

theorem OpcodeByte.sycode (rd ra : Reg) : OpcodeByte.Statement (.sycode rd ra) :=
  fieldOp_commandWord _ (by decide) _ _ _ _ _

theorem OpcodeByte.syprec (rd ra : Reg) : OpcodeByte.Statement (.syprec rd ra) :=
  fieldOp_commandWord _ (by decide) _ _ _ _ _

theorem OpcodeByte.syvalid (rd ra : Reg) : OpcodeByte.Statement (.syvalid rd ra) :=
  fieldOp_commandWord _ (by decide) _ _ _ _ _

theorem OpcodeByte.syfmt (ra : Reg) : OpcodeByte.Statement (.syfmt ra) :=
  fieldOp_commandWord _ (by decide) _ _ _ _ _

theorem OpcodeByte.syparse (rd : Reg) : OpcodeByte.Statement (.syparse rd) :=
  fieldOp_commandWord _ (by decide) _ _ _ _ _

theorem OpcodeByte.arange (rd ra : Reg) : OpcodeByte.Statement (.arange rd ra) :=
  fieldOp_commandWord _ (by decide) _ _ _ _ _

theorem OpcodeByte.avalid (rd ra rb : Reg) : OpcodeByte.Statement (.avalid rd ra rb) :=
  fieldOp_commandWord _ (by decide) _ _ _ _ _

theorem OpcodeByte.aadd (rd ra rb rc re : Reg) : OpcodeByte.Statement (.aadd rd ra rb rc re) :=
  fieldOp_commandWord _ (by decide) _ _ _ _ _

theorem OpcodeByte.asub (rd ra rb rc re : Reg) : OpcodeByte.Statement (.asub rd ra rb rc re) :=
  fieldOp_commandWord _ (by decide) _ _ _ _ _

theorem OpcodeByte.amul (rd ra rc : Reg) : OpcodeByte.Statement (.amul rd ra rc) :=
  fieldOp_commandWord _ (by decide) _ _ _ _ _

theorem OpcodeByte.adiv (rd ra rc : Reg) : OpcodeByte.Statement (.adiv rd ra rc) :=
  fieldOp_commandWord _ (by decide) _ _ _ _ _

theorem OpcodeByte.adiva (rd ra rb rc re : Reg) : OpcodeByte.Statement (.adiva rd ra rb rc re) :=
  fieldOp_commandWord _ (by decide) _ _ _ _ _

theorem OpcodeByte.acmp (rd ra rb rc re : Reg) : OpcodeByte.Statement (.acmp rd ra rb rc re) :=
  fieldOp_commandWord _ (by decide) _ _ _ _ _

theorem OpcodeByte.aneg (rd ra : Reg) : OpcodeByte.Statement (.aneg rd ra) :=
  fieldOp_commandWord _ (by decide) _ _ _ _ _

theorem OpcodeByte.afmt (ra rb : Reg) : OpcodeByte.Statement (.afmt ra rb) :=
  fieldOp_commandWord _ (by decide) _ _ _ _ _

theorem OpcodeByte.aparse (rd rd2 : Reg) : OpcodeByte.Statement (.aparse rd rd2) :=
  fieldOp_commandWord _ (by decide) _ _ _ _ _

end Sys2Proof.Laws
end

