-- ==== Sys2Proof/Tests/Slice0.lean ====
section
/-! SUPPORT. The model's own tests: ill-formed terms, words written out from the spec's encodings, vectors of the spec
(95_test_vectors.md), one step each; then, for every statement of Obligations.lean that has hypotheses, a witness that
meets them, at the boundary values of its clauses. -/

namespace Sys2Proof.Tests

open Sys2Proof Sys2Proof.Machine

set_option Elab.async false

/-! Helpers. -/

/-- A state with the given registers (0 where the list ends) and current string. -/
def on (regs : List Word) (t : List Byte) : State :=
  { State.reset.sbOut t with x := Vector.ofFn fun i => regs.getD i.val 0 }

/-- One step in which the host presents `cmd` and `wdata` to the unit in state `s`. -/
def issue (cmd : Cmd) (wdata : Word) (s : State) : Answer := step { s with pending := [.command cmd wdata] }

/-- The register `r` after a step that answered no fault. -/
def result (r : Reg) (o : Answer) : Option Word :=
  match o with
  | .next t => if t.fault = 0 then some (t.reg r) else none
  | .fault _ => none
  | .refused _ => none

/-- The string after a step that answered no fault. -/
def text (o : Answer) : Option (List Byte) :=
  match o with
  | .next t => if t.fault = 0 then some t.sbIn else none
  | .fault _ => none
  | .refused _ => none

/-- The response (`rdata`, `fault`) with `FCODE` and `HALT`. -/
def response (o : Answer) : Option (Word × Byte × Byte × Bool) :=
  match o with
  | .next t => some (t.rdata, t.fault, t.fcode, t.halt)
  | .fault _ => none
  | .refused _ => none

/-- A step that took the fault `c`. -/
def faults (c : Byte) (o : Answer) : Bool := response o == some (0, c, c, true)

/-- The command a word decodes to. -/
def command (c : Cmd) : Option Instr := (decode c).toOption

/-- Why a word is illegal. -/
def illegal (c : Cmd) : Option Illegal :=
  match decode c with
  | .ok _ => none
  | .error e => some e

/-! Ill-formed terms (30_encoding.md R65 step 3, R66). -/

theorem test_wellFormed_refuses_one_destination_twice : (Instr.aparse 1 1).wellFormed = false := by decide

theorem test_wellFormed_accepts_two_destinations : (Instr.aparse 0 1).wellFormed = true := by decide

/-! Words from the layout of 30_encoding.md R60 and the opcodes of R63, every field at a value of its own. -/

theorem test_decode_host_access :
    [0x00000000, 0x01F00000, 0x020F0000, 0x03000000, 0x04000000, 0x0500FFFE, 0x06000000].map command
      = [some (.nop), some (.setr 15), some (.getr 15), some (.sbclr), some (.sbput), some (.sbget 0xFFFE), some (.sblen)] := by decide +kernel

theorem test_decode_name :
    [0x10100000, 0x11030000, 0x12520000, 0x13210000, 0x14300000].map command
      = [some (.nenc 1), some (.ndec 3), some (.nlen 5 2), some (.npfx 2 1), some (.nsfx 3 0)] := by decide +kernel

theorem test_decode_symbol_code :
    [0x20A00000, 0x210B0000, 0x22320000, 0x23CD0000].map command
      = [some (.scenc 10), some (.scdec 11), some (.scvalid 3 2), some (.sclen 12 13)] := by decide +kernel

theorem test_decode_symbol :
    [0x28420100, 0x29210000, 0x2A780000, 0x2B9E0000, 0x2C060000, 0x2D500000].map command
      = [some (.symk 4 2 1), some (.sycode 2 1), some (.syprec 7 8), some (.syvalid 9 14), some (.syfmt 6), some (.syparse 5)] := by decide +kernel

theorem test_decode_asset :
    [0x30870000, 0x31123000, 0x32301210, 0x33123450, 0x34540700, 0x35670800, 0x36521340, 0x37FEDCB0, 0x38200000, 0x39021000, 0x3A010000].map command
      = [some (.arange 8 7), some (.avalid 1 2 3), some (.aadd 3 0 1 2 1), some (.asub 1 2 3 4 5), some (.amul 5 4 7), some (.adiv 6 7 8), some (.adiva 5 2 1 3 4), some (.acmp 15 14 13 12 11), some (.aneg 2 0), some (.afmt 2 1), some (.aparse 0 1)] := by decide +kernel

theorem test_encode_writes_those_words :
    encode (.avalid 1 2 3) = 0x31123000 ∧ encode (.aparse 0 1) = 0x3A010000 ∧ encode (.sbget 0xFFFE) = 0x0500FFFE
    ∧ encode (.acmp 15 14 13 12 11) = 0x37FEDCB0 ∧ encode (.afmt 2 1) = 0x39021000 := by decide +kernel

/-! Illegal words, each rejected by name (30_encoding.md R66; 95_test_vectors.md 2.18). -/

theorem test_decode_rejects_unknown_op :
    [0x07000000, 0xFF000000, 0x15000000, 0x24000000, 0x2E000000, 0x3B000000].map illegal
      = List.replicate 6 (some .unknownOp) := by decide +kernel

theorem test_decode_rejects_must_be_zero_bits :
    [0x00000001, 0x10100001, 0x02100000, 0x34541700, 0x05010000, 0x31123001, 0x32301211, 0x39121000].map illegal
      = List.replicate 8 (some .mustBeZero) := by decide +kernel

theorem test_decode_rejects_one_destination_twice : illegal 0x3A110000 = some .sameDestination := by decide +kernel

/-- A row of the opcode table read as a number, and run as the first command after reset. -/
theorem test_table_word :
    decodeTableWord 32 0x020F0000 = some (.getr 15) ∧ decodeTableWord 32 0x07000000 = none
    ∧ response (step (State.reset.withFetchWord 32 0x06000000)) = some (0, 0, 0, false)
    ∧ response (step (State.reset.withFetchWord 32 0x05000000)) = some (0, 2, 2, true) := by decide +kernel

/-! One step: vectors of 95_test_vectors.md. -/

/-- 2.18. -/
theorem test_nop : response (issue 0x00000000 7 State.reset) = some (0, 0, 0, false) := by decide +kernel

/-- 2.18. -/
theorem test_setr : result 15 (issue 0x01F00000 0xDEADBEEF00000001 State.reset) = some 0xDEADBEEF00000001 := by decide +kernel

/-- 2.18. -/
theorem test_getr : response (issue 0x02000000 7 (on [0xDEADBEEF00000001] [])) = some (0xDEADBEEF00000001, 0, 0, false) := by decide +kernel

/-- 2.18. -/
theorem test_sbclr : text (issue 0x03000000 0 (on [] [0x61, 0x62, 0x63, 0x64, 0x65, 0x66, 0x67])) = some [] := by decide +kernel

/-- 2.18. -/
theorem test_sbput_appends : text (issue 0x04000000 0x62 (on [] [0x61])) = some [0x61, 0x62] := by decide +kernel

/-- 2.18. -/
theorem test_sbput_checks_the_operand_first : faults 0x03 (issue 0x04000000 0x100 { State.reset with slen := 512 }) = true := by decide +kernel

/-- 2.18. -/
theorem test_sbget : response (issue 0x05000000 0 (on [] [0x61])) = some (0x61, 0, 0, false) := by decide +kernel

/-- 2.18. -/
theorem test_sbget_outside : faults 0x02 (issue 0x05000001 0 (on [] [0x61])) = true := by decide +kernel

/-- P1 line 15. -/
theorem test_sblen : response (issue 0x06000000 0 (on [] [0x2D, 0x31, 0x2E, 0x30, 0x30, 0x30, 0x30, 0x20, 0x53, 0x59, 0x4D])) = some (11, 0, 0, false) := by decide +kernel

/-- 2.18. -/
theorem test_illegal_word : faults 0x01 (issue 0x00000001 0 State.reset) = true := by decide +kernel

/-- 2.18, P3 line 7. -/
theorem test_halted_ignores : response (issue 0xFF000000 7 { State.reset with halt := true, fcode := 0x34 }) = some (0, 0x34, 0x34, true) := by decide +kernel

/-- 2.1. -/
theorem test_nenc : result 1 (issue 0x10100000 0 (on [] [0x31, 0x32, 0x33, 0x34, 0x35, 0x61, 0x62, 0x63, 0x64, 0x65, 0x66, 0x67, 0x68])) = some 0x08864298E84A96CD := by decide +kernel

/-- 2.1: the 13th character is met before the 14th. -/
theorem test_nenc_order : faults 0x11 (issue 0x10100000 0 (on [] [0x61, 0x61, 0x61, 0x61, 0x61, 0x61, 0x61, 0x61, 0x61, 0x61, 0x61, 0x61, 0x7A, 0x7A])) = true := by decide +kernel

/-- 2.2. -/
theorem test_ndec : text (issue 0x11000000 0 (on [0x5530EA033482A600] [])) = some [0x65, 0x6F, 0x73, 0x69, 0x6F, 0x2E, 0x74, 0x6F, 0x6B, 0x65, 0x6E] := by decide +kernel

/-- 2.1. -/
theorem test_nlen : result 1 (issue 0x12100000 0 (on [0x018E800000000000] [])) = some 4 := by decide +kernel

/-- 2.3: a.b.c.d.e.f.g. -/
theorem test_npfx : result 1 (issue 0x13100000 0 (on [0x300E04012050160C] [])) = some 0x300E040120501600 := by decide +kernel

/-- 2.3: aaaaaaaaaaa.j, under both parameter values. -/
theorem test_nsfx_13th : [nameSuffix .ignore 0x318C6318C6318C0F, nameSuffix .separate 0x318C6318C6318C0F] = [0x7800000000000000, 0x7800000000000000] := by decide +kernel

/-- 2.3: ...........11, where the parameter matters. -/
theorem test_nsfx_leading : [nameSuffix .ignore 0x11, nameSuffix .separate 0x11] = [0x11, 0x0840000000000000] := by decide +kernel

/-- 2.4. -/
theorem test_scenc : result 1 (issue 0x20100000 0 (on [] [0x41, 0x42, 0x43, 0x44, 0x45, 0x46, 0x47])) = some 0x0047464544434241 := by decide +kernel

/-- 2.4: position 0 is met before the eighth byte. -/
theorem test_scenc_order : faults 0x21 (issue 0x20100000 0 (on [] [0x61, 0x42, 0x43, 0x44, 0x45, 0x46, 0x47, 0x48])) = true := by decide +kernel

/-- 2.5. -/
theorem test_scdec : text (issue 0x21000000 0 (on [0x00000041004F4F46] [])) = some [0x46, 0x4F, 0x4F] := by decide +kernel

/-- 2.5, under both parameter values. -/
theorem test_scvalid : [scValid .check 0x4847464544434241, scValid .skip 0x4847464544434241, scValid .skip 0x410041] = [false, true, false] := by decide +kernel

/-- 2.5. -/
theorem test_sclen : result 1 (issue 0x23100000 0 (on [0xFFFFFFFFFFFFFFFF] [])) = some 7 := by decide +kernel

/-- 2.6: byte 7 of the code is lost. -/
theorem test_symk : result 2 (issue 0x28200100 0 (on [0x4847464544434241, 1] [])) = some 0x4746454443424101 := by decide +kernel

/-- 2.6. -/
theorem test_symk_range : faults 0x03 (issue 0x28200100 0 (on [0x4F4F46, 256] [])) = true := by decide +kernel

/-- 2.6. -/
theorem test_sycode : result 1 (issue 0x29100000 0 (on [0x47464544434241FF] [])) = some 0x0047464544434241 := by decide +kernel

/-- 2.6. -/
theorem test_syprec : result 1 (issue 0x2A100000 0 (on [0x4D595313] [])) = some 19 := by decide +kernel

/-- 2.6: lower case is not valid. -/
theorem test_syvalid : result 1 (issue 0x2B100000 0 (on [0x4F6F4602] [])) = some 0 := by decide +kernel

/-- 2.6. -/
theorem test_syfmt : text (issue 0x2C000000 0 (on [0x47464544434241FF] [])) = some [0x32, 0x35, 0x35, 0x2C, 0x41, 0x42, 0x43, 0x44, 0x45, 0x46, 0x47] := by decide +kernel

/-- 2.7. -/
theorem test_syparse : result 1 (issue 0x2D100000 0 (on [] [0x32, 0x35, 0x35, 0x2C, 0x41, 0x42, 0x43, 0x44, 0x45, 0x46, 0x47])) = some 0x47464544434241FF := by decide +kernel

/-- 2.7. -/
theorem test_syparse_precision : faults 0x29 (issue 0x2D100000 0 (on [] [0x32, 0x35, 0x36, 0x2C, 0x46, 0x4F, 0x4F])) = true := by decide +kernel

/-- 2.8: the bound and the first value over it. -/
theorem test_arange : [result 1 (issue 0x30100000 0 (on [0xC000000000000001] [])), result 1 (issue 0x30100000 0 (on [0xC000000000000000] []))]
    = [some 1, some 0] := by decide +kernel

/-- 2.8. -/
theorem test_avalid : result 2 (issue 0x31201000 0 (on [0x3FFFFFFFFFFFFFFF, 0x4D595304] [])) = some 1 := by decide +kernel

/-- 2.9. -/
theorem test_aadd : result 4 (issue 0x32401230 0 (on [0xFFFFFFFFFFFFFFFB, 0x4D595304, 3, 0x4D595304] [])) = some 0xFFFFFFFFFFFFFFFE := by decide +kernel

/-- P3 line 4. -/
theorem test_aadd_overflow : faults 0x34 (issue 0x32301210 0 (on [0x3FFFFFFFFFFFFFFF, 0x4F4F4604, 1] [])) = true := by decide +kernel

/-- 2.10. -/
theorem test_asub : result 4 (issue 0x33401230 0 (on [0x1388, 0x4D595304, 0x2710, 0x4D595304] [])) = some 0xFFFFFFFFFFFFEC78 := by decide +kernel

/-- 2.10: the mismatch comes first. -/
theorem test_asub_mismatch : faults 0x31 (issue 0x33401230 0 (on [0x3FFFFFFFFFFFFFFF, 0x4F4F4604, 0xFFFFFFFFFFFFFFFF, 0x4D595304] [])) = true := by decide +kernel

/-- 2.11. -/
theorem test_amul : result 2 (issue 0x34200100 0 (on [0x3FFFFFFFFFFFFFFF, 0xFFFFFFFFFFFFFFFF] [])) = some 0xC000000000000001 := by decide +kernel

/-- 2.11: 2^64 does not wrap. -/
theorem test_amul_overflow : faults 0x34 (issue 0x34200100 0 (on [0x100000000, 0x100000000] [])) = true := by decide +kernel

/-- 2.12: rounded toward zero. -/
theorem test_adiv : result 2 (issue 0x35200100 0 (on [0xFFFFFFFFFFFFFFF9, 2] [])) = some 0xFFFFFFFFFFFFFFFD := by decide +kernel

/-- 2.12. -/
theorem test_adiv_overflow : faults 0x37 (issue 0x35200100 0 (on [0x8000000000000000, 0xFFFFFFFFFFFFFFFF] [])) = true := by decide +kernel

/-- 2.13. -/
theorem test_adiva : result 4 (issue 0x36401230 0 (on [0xFFFFFFFFFFFFD8F0, 0x4D595304, 0x1388, 0x4D595304] [])) = some 0xFFFFFFFFFFFFFFFE := by decide +kernel

/-- 2.13: the mismatch comes before the zero divisor. -/
theorem test_adiva_mismatch : faults 0x32 (issue 0x36401230 0 (on [7, 0x4D595304, 0, 0x4D595303] [])) = true := by decide +kernel

/-- 2.14: the order is signed. -/
theorem test_acmp : result 4 (issue 0x37401230 0 (on [0x8000000000000000, 0x4D595304, 0x7FFFFFFFFFFFFFFF, 0x4D595304] [])) = some 0xFFFFFFFFFFFFFFFF := by decide +kernel

/-- 2.15. -/
theorem test_aneg : result 1 (issue 0x38100000 0 (on [0x2710] [])) = some 0xFFFFFFFFFFFFD8F0 := by decide +kernel

/-- 2.15. -/
theorem test_aneg_overflow : faults 0x38 (issue 0x38100000 0 (on [0x8000000000000000] [])) = true := by decide +kernel

/-- 2.16: a negative amount below 1. -/
theorem test_afmt : text (issue 0x39001000 0 (on [0xFFFFFFFFFFFFFFFF, 0x4D595304] [])) = some [0x2D, 0x30, 0x2E, 0x30, 0x30, 0x30, 0x31, 0x20, 0x53, 0x59, 0x4D] := by decide +kernel

/-- 2.16. -/
theorem test_afmt_lowest : text (issue 0x39001000 0 (on [0x8000000000000000, 0x4D595313] []))
    = some [0x2D, 0x30, 0x2E, 0x39, 0x32, 0x32, 0x33, 0x33, 0x37, 0x32, 0x30, 0x33, 0x36, 0x38, 0x35, 0x34, 0x37, 0x37, 0x35, 0x38, 0x30, 0x38, 0x20, 0x53, 0x59, 0x4D] := by decide +kernel

/-- 2.17. -/
theorem test_aparse : (result 0 (issue 0x3A010000 0 (on [] [0x2D, 0x2E, 0x35, 0x20, 0x53, 0x59, 0x4D])), result 1 (issue 0x3A010000 0 (on [] [0x2D, 0x2E, 0x35, 0x20, 0x53, 0x59, 0x4D])))
    = (some 0xFFFFFFFFFFFFFFFB, some 0x4D595301) := by decide +kernel

/-- 2.17. -/
theorem test_aparse_second_point : faults 0x3A (issue 0x3A010000 0 (on [] [0x31, 0x2E, 0x32, 0x2E, 0x33, 0x20, 0x53, 0x59, 0x4D])) = true := by decide +kernel

/-! Witnesses: for each statement with hypotheses, values that meet all hypotheses of each of its clauses together. -/

/-- A halted unit with the given events to come. -/
def haltedWith (l : List HostEvent) : State := { State.reset with halt := true, fcode := 0x34, pending := l }

/-- A running unit with the given events to come. -/
def runningWith (l : List HostEvent) : State := { State.reset with pending := l }

/-- Two Assets: amounts `a` and `b`, Symbols `x` and `y`, in registers 0, 1 and 2, 3. -/
def assets (a x b y : Word) : State := on [a, x, b, y] []

/-- The greatest amount in range, 2^62 − 1. -/
def maxWord : Word := 0x3FFFFFFFFFFFFFFF

/-- The least amount in range, 1 − 2^62. -/
def minWord : Word := 0xC000000000000001

/-- `4,SYM` -/
def sym : Word := 0x4D595304

theorem on_sbIn (regs : List Word) (t : List Byte) (h : t.length ≤ 512) : (on regs t).sbIn = t :=
  State.sbIn_sbOut State.reset rfl t h

theorem witness_ResetLeavesEverythingZero :
    (haltedWith [.reset]).halt = true ∧ (haltedWith [.reset]).pending = [.reset]
    ∧ step (haltedWith [.reset]) = .next State.reset ∧ State.reset.halt = false :=
  ⟨rfl, rfl, rfl, rfl⟩

theorem witness_StepRunsTheDecodedCommand :
    (haltedWith [.command 0 7]).halt = true ∧ (runningWith [.command 1 7]).halt = false
    ∧ illegal 1 = some .mustBeZero ∧ command 0 = some .nop := by decide +kernel

theorem witness_FaultsArePrecise_FaultCodesPerCommand :
    (∃ t, exec .nop State.reset = .next t ∧ t.fault = 0)
    ∧ exec (.sbget 0) State.reset = .next (faulted 0x02 State.reset) ∧ (0x02 : Byte) ∈ mayRaise (.sbget 0) :=
  ⟨⟨_, rfl, rfl⟩, rfl, by decide⟩

theorem witness_EveryStepKeepsSound :
    Sound State.reset ∧ step State.reset = .next State.reset :=
  ⟨⟨rfl, Or.inl rfl, by decide⟩, rfl⟩

theorem witness_EveryStepKeepsSound_halted :
    Sound (haltedWith [.command 0 7]) ∧ ∃ t, step (haltedWith [.command 0 7]) = .next t :=
  ⟨⟨rfl, Or.inr ⟨.assetOverflow, rfl⟩, by decide⟩, _, rfl⟩

theorem witness_HaltedUntilReset :
    (haltedWith [.command 0 7, .command 1 8, .reset]).halt = true
    ∧ (∀ e ∈ (haltedWith [.command 0 7, .command 1 8, .reset]).pending.take 2, e ≠ .reset)
    ∧ (haltedWith [.command 0 7, .command 1 8, .reset]).pending.take 2 ≠ [] := by decide

theorem witness_DecodeOfEncodeIsTheCommand :
    (Instr.aparse 15 14).wellFormed = true ∧ (Instr.sbget 0xFFFF).wellFormed = true := by decide

theorem witness_LegalWordIsTheEncodingOfItsCommand :
    command 0x00000000 = some .nop ∧ command 0x3AFE0000 = some (.aparse 15 14) := by decide +kernel

theorem witness_OpcodeMapMasks :
    (0x3A, 0x3A000000, 0xFF00FFFF) ∈ opcodeRows ∧ (0x3AFE0000 : Cmd) &&& 0xFF00FFFF = 0x3A000000
    ∧ (0x3AFE0000 : Cmd).extractLsb' 20 4 ≠ (0x3AFE0000 : Cmd).extractLsb' 16 4 := by decide +kernel

theorem witness_IllegalWordsFault :
    (runningWith [.command 0x07000000 0]).halt = false
    ∧ (∀ row ∈ opcodeRows, (0x07000000 : Cmd) &&& row.2.2 ≠ row.2.1)
    ∧ ((0x3A110000 : Cmd) &&& 0xFF00FFFF = 0x3A000000
      ∧ (0x3A110000 : Cmd).extractLsb' 20 4 = (0x3A110000 : Cmd).extractLsb' 16 4) := by decide +kernel

theorem witness_WdataIsIgnored : usesWdata (.aadd 0 1 2 3 4) = false ∧ usesWdata .nop = false := by decide

/-- The second buffer holds a byte beyond the string that the first does not. -/
theorem witness_BytesBeyondTheStringAreUnobservable :
    State.reset.sb.wf = true ∧ { State.reset with sb := [(511, 1)] }.sb.wf = true
    ∧ SameObservable State.reset { State.reset with sb := [(511, 1)] } ∧ step State.reset = .next State.reset :=
  ⟨rfl, by decide, ⟨fun _ => rfl, rfl, fun a h => absurd h (Nat.not_lt_zero a), rfl, rfl, rfl, rfl, rfl, rfl⟩, rfl⟩

theorem witness_OnlyDestinationsChange :
    (∃ t, exec (.setr 3) State.reset = .next t ∧ t.fault = 0) ∧ (4 : Reg) ∉ destinations (.setr 3)
    ∧ changesString (.setr 3) = false :=
  ⟨⟨_, rfl, rfl⟩, by decide, rfl⟩

theorem witness_OutputBounds :
    ((on [0, 19] []).reg 1).toNat % 256 = 19 ∧ ((on [0, 18] []).reg 1).toNat % 256 = 18
    ∧ ∃ t, exec (.afmt 0 1) (on [0, 19] []) = .next t :=
  ⟨by decide, by decide, _, rfl⟩

theorem witness_DecimalStrings : Digits [0x30, 0x37] ∧ decVal [0x30, 0x37] = 7 ∧ [(0x30 : Byte), 0x37].length ≤ 2 := by
  unfold Digits
  decide

theorem witness_NopDoesNothing :
    (haltedWith [.command 0 7]).halt = true ∧ (haltedWith [.command 0 7]).pending = [.command 0 7] := by decide

theorem witness_SbputAppendsAByte :
    255 < { State.reset with wdata := 256 }.wdata.toNat
    ∧ ({ State.reset with wdata := 255, slen := 512 }.wdata.toNat ≤ 255
      ∧ { State.reset with wdata := 255, slen := 512 }.slen.val = 512)
    ∧ ({ State.reset with wdata := 255, slen := 511 }.sb.wf = true
      ∧ { State.reset with wdata := 255, slen := 511 }.wdata.toNat ≤ 255
      ∧ { State.reset with wdata := 255, slen := 511 }.slen.val ≠ 512) := by decide

theorem witness_SbgetAnswersAByte :
    (on [] [0x61, 0x62]).slen.val ≤ (2 : BitVec 16).toNat ∧ (1 : BitVec 16).toNat < (on [] [0x61, 0x62]).slen.val := by
  decide

theorem witness_NameAlphabet : nameIdx 0x2E = some 0 ∧ nameIdx 0x7A = some 31 := by decide

theorem witness_NameSlotsTileTheWord : ∀ i, i < 13 → slot 1 i = slot 1 i := fun _ _ => rfl

/-- Thirteen characters, the last of index 15: the longest accepted string. -/
theorem witness_NencPacksOrFaults_accepted :
    AcceptedName (on [] (List.replicate 12 0x7A ++ [0x6A])).sbIn := by
  rw [on_sbIn _ _ (by decide)]
  refine ⟨by decide, fun i h => ?_⟩
  have hi : i < 13 := h
  interval_cases i
  all_goals first | exact ⟨31, rfl, by decide⟩ | exact ⟨15, rfl, by decide⟩

/-- A bad 13th byte; a 13th character of index 16; a good 13th character followed by a 14th. -/
theorem witness_NencPacksOrFaults_faults :
    (List.replicate 12 (0x61 : Byte) ++ [0x41]).map nameIdx = List.replicate 12 (some 6) ++ [none]
    ∧ (List.replicate 12 (0x61 : Byte) ++ [0x6B]).map nameIdx = List.replicate 12 (some 6) ++ [some 16]
    ∧ (List.replicate 12 (0x61 : Byte) ++ [0x6A, 0x41]).map nameIdx
      = List.replicate 12 (some 6) ++ [some 15, none] := by decide

theorem witness_NencExactLiterals :
    (on [] (List.replicate 12 0x31 ++ [0x6A])).sbIn = List.replicate 12 0x31 ++ [0x6A]
    ∧ (on [] (List.replicate 12 0x7A ++ [0x6A])).sbIn = List.replicate 12 0x7A ++ [0x6A] :=
  ⟨on_sbIn _ _ (by decide), on_sbIn _ _ (by decide)⟩

/-- For NdecUnpacks, NameRoundTrip, ScdecUnpacks, SyfmtWritesPrecisionCommaCode, AfmtWritesTheDecimalText. -/
theorem witness_buffer_in_canonical_form :
    State.reset.sb.wf = true ∧ (on [] [0x61, 0x62]).sb.wf = true ∧ { State.reset with sb := [(0, 1), (511, 1)] }.sb.wf = true := by
  decide

/-- NENC of `a.` completes, in a buffer in canonical form. -/
theorem witness_NameRoundTrip :
    (on [] [0x61, 0x2E]).sb.wf = true ∧ ∃ t, exec (.nenc 1) (on [] [0x61, 0x2E]) = .next t ∧ t.fault = 0 :=
  ⟨by decide, _, rfl, rfl⟩

/-- For NpfxCutsAtTheLastFollowedDot and NameSplitsAtItsLastDot, `1.2`: the dot of slot 1 is followed, not leading,
and the last such. -/
theorem witness_FollowedDot :
    FollowedDot 0x0804000000000000 1 ∧ ¬LeadingDot 0x0804000000000000 1
    ∧ ∀ j, 1 < j → ¬FollowedDot 0x0804000000000000 j := by
  refine ⟨⟨by decide, 2, by decide⟩, fun h => absurd (h.2 0 (by decide)) (by decide), ?_⟩
  rintro j hj ⟨_, k, h1, h2, h3⟩
  interval_cases k
  all_goals first | omega | exact h3 (by decide)

/-- For NpfxCutsAtTheLastFollowedDot and NsfxKeepsWhatFollowsTheLastSeparator, `a`: no dot is followed, so none
separates. -/
theorem witness_no_FollowedDot (p : SuffixLeadingDots) :
    (∀ d, ¬FollowedDot 0x3000000000000000 d) ∧ ∀ d, ¬Separator p 0x3000000000000000 d := by
  have h : ∀ d, ¬FollowedDot 0x3000000000000000 d := by
    rintro d ⟨_, k, h1, h2, h3⟩
    interval_cases k
    all_goals first | omega | exact h3 (by decide)
  exact ⟨h, fun d hd => h d hd.1⟩

/-- The last separator of `1.2` under each parameter value, and of `............1` where leading dots separate. -/
theorem witness_NsfxKeepsWhatFollowsTheLastSeparator (p : SuffixLeadingDots) :
    (Separator p 0x0804000000000000 1 ∧ ∀ j, 1 < j → ¬Separator p 0x0804000000000000 j)
    ∧ (Separator .separate 1 11 ∧ ∀ j, 11 < j → ¬Separator .separate 1 j) := by
  refine ⟨⟨⟨witness_FollowedDot.1, Or.inr witness_FollowedDot.2.1⟩, fun j hj h => witness_FollowedDot.2.2 j hj h.1⟩,
    ⟨⟨by decide, 12, by decide⟩, Or.inl rfl⟩, ?_⟩
  rintro j hj ⟨⟨h0, k, h1, h2, h3⟩, _⟩
  have : j = 12 ∨ k > 12 := by omega
  omega

theorem witness_ScencPacksOrFaults_accepted :
    AcceptedCode (on [] [0x41, 0x42, 0x43, 0x44, 0x45, 0x46, 0x5A]).sbIn := by
  rw [on_sbIn _ _ (by decide)]
  unfold AcceptedCode Upper
  decide

/-- For ScencPacksOrFaults: a bad byte at position 6, the last that is looked at before the length; a good eighth byte. -/
theorem witness_CodeFault :
    CodeFault [0x41, 0x42, 0x43, 0x44, 0x45, 0x46, 0x5B] 0x21
    ∧ CodeFault [0x41, 0x42, 0x43, 0x44, 0x45, 0x46, 0x47, 0x48] 0x20 := by
  refine ⟨Or.inl ⟨rfl, 6, by decide, by decide, ?_, ?_⟩, Or.inr ⟨rfl, by decide, ?_⟩⟩
  · unfold Upper
    decide
  · intro j hj
    unfold Upper
    interval_cases j <;> decide +revert
  · unfold Upper
    decide

/-- For ScvalidDecides: valid under both values of the parameter; valid only where byte 7 is skipped; never valid. -/
theorem witness_ValidCode :
    (∀ p, ValidCode p 0x005A5A5A5A5A5A5A) ∧ ValidCode .skip 0x4100000000000041 ∧ ¬ValidCode .check 0x4100000000000041
    ∧ ∀ p, ¬ValidCode p 0 := by
  refine ⟨fun p => ⟨7, by decide, by decide, ?_, ?_, Or.inr (by decide)⟩, ⟨1, by decide, by decide, ?_, ?_, Or.inl rfl⟩, ?_, ?_⟩
  · unfold Upper
    decide
  · intro i h1 h2
    omega
  · unfold Upper
    decide
  · intro i h1 h2
    interval_cases i <;> decide
  · rintro ⟨n, _, _, _, _, h | h⟩
    · cases h
    · exact absurd h (by decide)
  · rintro p ⟨n, h1, _, h3, _⟩
    exact absurd (h3 0 (by omega)) (by unfold Upper; decide)

/-- `A` is encoded without a fault; the value of `A` is valid, also with byte 7 set where that is skipped. -/
theorem witness_SymbolCodeRoundTrip :
    (on [0x41] [0x41]).sb.wf = true ∧ (∃ t, exec (.scenc 1) (on [0x41] [0x41]) = .next t ∧ t.fault = 0)
    ∧ scValid .check ((on [0x41] [0x41]).reg 0) = true ∧ scValid .skip ((on [0x4100000000000041] []).reg 0) = true :=
  ⟨by decide, ⟨_, rfl, rfl⟩, by decide, by decide⟩

theorem witness_SymkComposes : 255 < ((on [0, 256] []).reg 1).toNat ∧ ((on [0, 255] []).reg 1).toNat ≤ 255 := by decide

theorem witness_SyvalidDecides :
    ValidCode .check ((on [0x4746454443424101] []).reg 0 >>> 8) ∧ ¬ValidCode .check ((on [4] []).reg 0 >>> 8) := by
  refine ⟨⟨7, by decide, by decide, ?_, ?_, Or.inr (by decide)⟩, ?_⟩
  · unfold Upper
    decide
  · intro i h1 h2
    omega
  · rintro ⟨n, h1, _, h3, _⟩
    exact absurd (h3 0 (by omega)) (by unfold Upper; decide)

/-- No comma, two commas; one comma with precision 256, and with precision 255 before a bad and a good code. -/
theorem witness_SyparseParsesOrFaults :
    (on [] [0x41]).sbIn.count 0x2C ≠ 1 ∧ (on [] [0x2C, 0x2C]).sbIn.count 0x2C ≠ 1
    ∧ ((on [] ([0x32, 0x35, 0x36] ++ 0x2C :: [])).sbIn = [0x32, 0x35, 0x36] ++ 0x2C :: []
      ∧ ¬(Digits [0x32, 0x35, 0x36] ∧ decVal [0x32, 0x35, 0x36] ≤ 255))
    ∧ ((on [] ([0x32, 0x35, 0x35] ++ 0x2C :: [0x40])).sbIn = [0x32, 0x35, 0x35] ++ 0x2C :: [0x40]
      ∧ Digits [0x32, 0x35, 0x35] ∧ decVal [0x32, 0x35, 0x35] ≤ 255 ∧ CodeFault [0x40] 0x21)
    ∧ ((on [] ([0x32, 0x35, 0x35] ++ 0x2C :: [])).sbIn = [0x32, 0x35, 0x35] ++ 0x2C :: [] ∧ AcceptedCode []) := by
  refine ⟨by decide, by decide, ⟨on_sbIn _ _ (by decide), fun h => absurd h.2 (by decide)⟩,
    ⟨on_sbIn _ _ (by decide), ?_, by decide, ?_⟩, on_sbIn _ _ (by decide), by decide, fun b hb => absurd hb (by simp)⟩
  · unfold Digits
    decide
  · refine Or.inl ⟨rfl, 0, by decide, by decide, ?_, fun j hj => absurd hj (Nat.not_lt_zero j)⟩
    unfold Upper
    decide

/-- `0,A`: the precision has no leading zero but for the string `0` itself. -/
theorem witness_SymbolRoundTrip :
    (on [] [0x30, 0x2C, 0x41]).sb.wf = true ∧ (∃ t, exec (.syparse 1) (on [] [0x30, 0x2C, 0x41]) = .next t ∧ t.fault = 0)
    ∧ (∀ p c, (on [] [0x30, 0x2C, 0x41]).sbIn = p ++ 0x2C :: c → p.head? = some 0x30 → p = [0x30])
    ∧ (1 : Reg) ≠ 0 ∧ (0 : Reg) ≠ 1 := by
  refine ⟨by decide, ⟨_, rfl, by decide⟩, ?_, by decide, by decide⟩
  intro p c h hp
  rw [on_sbIn _ _ (by decide)] at h
  rcases p with _ | ⟨a, _ | ⟨b, l⟩⟩
  · simp at hp
  · simpa using hp
  · rw [List.cons_append, List.cons_append, List.cons.injEq, List.cons.injEq] at h
    rcases l with _ | ⟨d, l⟩
    · simp at h
    · have := congrArg List.length h.2.2
      simp at this

theorem witness_AvalidDecides :
    ((on [minWord, sym] []).reg 0).toInt.natAbs ≤ 2 ^ 62 - 1 ∧ ValidCode .check ((on [minWord, sym] []).reg 1 >>> 8)
    ∧ ¬((on [0xC000000000000000, sym] []).reg 0).toInt.natAbs ≤ 2 ^ 62 - 1 := by
  refine ⟨by decide, ⟨3, by decide, by decide, ?_, ?_, Or.inr (by decide)⟩, by decide⟩
  · unfold Upper
    decide
  · intro i h1 h2
    interval_cases i <;> decide

/-- Sums at the bound of the range and one beyond it, on both sides, of equal Symbols; different Symbols. -/
theorem witness_AaddAddsExactly :
    ((assets maxWord sym 1 sym).reg 1 = (assets maxWord sym 1 sym).reg 3
      ∧ 2 ^ 62 - 1 < ((assets maxWord sym 1 sym).reg 0).toInt + ((assets maxWord sym 1 sym).reg 2).toInt)
    ∧ ((assets minWord sym (-1) sym).reg 0).toInt + ((assets minWord sym (-1) sym).reg 2).toInt < -(2 ^ 62 - 1)
    ∧ (-(2 ^ 62 - 1) ≤ ((assets minWord sym 0 sym).reg 0).toInt + ((assets minWord sym 0 sym).reg 2).toInt
      ∧ ((assets maxWord sym 0 sym).reg 0).toInt + ((assets maxWord sym 0 sym).reg 2).toInt ≤ 2 ^ 62 - 1)
    ∧ (assets 0 sym 0 0).reg 1 ≠ (assets 0 sym 0 0).reg 3 := by decide +kernel

theorem witness_AsubSubtractsExactly :
    ((assets maxWord sym (-1) sym).reg 1 = (assets maxWord sym (-1) sym).reg 3
      ∧ 2 ^ 62 - 1 < ((assets maxWord sym (-1) sym).reg 0).toInt - ((assets maxWord sym (-1) sym).reg 2).toInt)
    ∧ ((assets minWord sym 1 sym).reg 0).toInt - ((assets minWord sym 1 sym).reg 2).toInt < -(2 ^ 62 - 1)
    ∧ (-(2 ^ 62 - 1) ≤ ((assets minWord sym 0 sym).reg 0).toInt - ((assets minWord sym 0 sym).reg 2).toInt
      ∧ ((assets maxWord sym 0 sym).reg 0).toInt - ((assets maxWord sym 0 sym).reg 2).toInt ≤ 2 ^ 62 - 1)
    ∧ (assets 0 sym 0 0).reg 1 ≠ (assets 0 sym 0 0).reg 3 := by decide +kernel

/-- Products: 2^62 from 2^31 and 2^31, its negative, and the bounds of the range themselves. -/
theorem witness_AmulMultipliesExactly :
    2 ^ 62 - 1 < ((assets 0x80000000 0 0x80000000 0).reg 0).toInt * ((assets 0x80000000 0 0x80000000 0).reg 2).toInt
    ∧ ((assets (-0x80000000) 0 0x80000000 0).reg 0).toInt * ((assets (-0x80000000) 0 0x80000000 0).reg 2).toInt
      < -(2 ^ 62 - 1)
    ∧ (-(2 ^ 62 - 1) ≤ ((assets maxWord 0 (-1) 0).reg 0).toInt * ((assets maxWord 0 (-1) 0).reg 2).toInt
      ∧ ((assets maxWord 0 1 0).reg 0).toInt * ((assets maxWord 0 1 0).reg 2).toInt ≤ 2 ^ 62 - 1) := by decide +kernel

/-- Divisor 0; −2^63 by −1; −2^63 by 1, next to it; for ADIVA also equal and different Symbols. -/
theorem witness_AdivTruncates_AdivaTruncates :
    ((assets 7 sym 0 sym).reg 2).toInt = 0
    ∧ (((assets 0x8000000000000000 sym (-1) sym).reg 0).toInt = -2 ^ 63
      ∧ ((assets 0x8000000000000000 sym (-1) sym).reg 2).toInt = -1)
    ∧ (((assets 0x8000000000000000 sym 1 sym).reg 2).toInt ≠ 0
      ∧ ¬(((assets 0x8000000000000000 sym 1 sym).reg 0).toInt = -2 ^ 63
        ∧ ((assets 0x8000000000000000 sym 1 sym).reg 2).toInt = -1))
    ∧ (assets 7 sym 0 sym).reg 1 = (assets 7 sym 0 sym).reg 3
    ∧ (assets 7 sym 0 0).reg 1 ≠ (assets 7 sym 0 0).reg 3 := by decide +kernel

theorem witness_AcmpOrders :
    (assets 0 sym 0 0).reg 1 ≠ (assets 0 sym 0 0).reg 3
    ∧ ((assets (-1) sym 0 sym).reg 1 = (assets (-1) sym 0 sym).reg 3
      ∧ ((assets (-1) sym 0 sym).reg 0).toInt < ((assets (-1) sym 0 sym).reg 2).toInt)
    ∧ ((assets 5 sym 5 sym).reg 0).toInt = ((assets 5 sym 5 sym).reg 2).toInt
    ∧ ((assets 0 sym (-1) sym).reg 2).toInt < ((assets 0 sym (-1) sym).reg 0).toInt := by decide +kernel

theorem witness_AnegFlipsTheSign :
    ((on [0x8000000000000000] []).reg 0).toInt = -2 ^ 63 ∧ ((on [0x8000000000000001] []).reg 0).toInt ≠ -2 ^ 63 := by
  decide +kernel

/-- Amounts at the two bounds, and a next state of each command named. -/
theorem witness_AmountsStayInRange :
    ((assets maxWord sym minWord sym).reg 0).toInt.natAbs ≤ 2 ^ 62 - 1
    ∧ ((assets maxWord sym minWord sym).reg 2).toInt.natAbs ≤ 2 ^ 62 - 1
    ∧ (∃ t, exec (.aadd 4 0 1 2 3) (assets maxWord sym minWord sym) = .next t)
    ∧ (∃ t, exec (.adiv 4 0 2) (assets maxWord sym minWord sym) = .next t) :=
  ⟨by decide +kernel, by decide +kernel, ⟨_, rfl⟩, ⟨_, rfl⟩⟩

/-- The one integer a token without a point can stand for. -/
theorem amountToken_digits {t : List Byte} {n : Int} {p : Nat} (hd : Digits t) (h : AmountToken t n p) :
    n = decVal t ∧ p = 0 := by
  have hx : ∀ x : Byte, x.toNat < 0x30 → x ∉ t := fun x hx hm => by
    have := (hd.2 x hm).1
    omega
  obtain ⟨l, f, h1, h2⟩ := h
  rcases h1 with ⟨rfl, rfl, rfl⟩ | ⟨rfl, _⟩
  · simp only [List.append_nil] at h2
    rcases h2 with h2 | ⟨b, rfl, _⟩
    · exact ⟨h2.2, rfl⟩
    · exact absurd (by simp) (hx 0x2D (by decide))
  · exact absurd (by simp) (hx 0x2E (by decide))

/-- 2^63, one more than the greatest amount a token may stand for. -/
def tooLarge : List Byte := [0x39, 0x32, 0x32, 0x33, 0x33, 0x37, 0x32, 0x30, 0x33, 0x36, 0x38, 0x35, 0x34, 0x37, 0x37, 0x35,
  0x38, 0x30, 0x38]

theorem tooLarge_digits : Digits tooLarge := by
  unfold Digits
  decide

theorem witness_AparseParsesOrFaults_form :
    (0 : Reg) ≠ 1 ∧ (on [] [0x31]).sbIn.count 0x20 ≠ 1 ∧ (on [] [0x20, 0x20]).sbIn.count 0x20 ≠ 1 := by decide

/-- The amount is out of range. -/
theorem witness_AparseParsesOrFaults_amount :
    (on [] (tooLarge ++ 0x20 :: [])).sbIn = tooLarge ++ 0x20 :: [] ∧ 0x20 ∉ tooLarge ∧ (0x20 : Byte) ∉ ([] : List Byte)
    ∧ ¬∃ n p, AmountToken tooLarge n p ∧ -2 ^ 63 ≤ n ∧ n ≤ 2 ^ 63 - 1 := by
  refine ⟨on_sbIn _ _ (by decide), by decide, by decide, ?_⟩
  rintro ⟨n, p, h, _, h2⟩
  have h3 := (amountToken_digits tooLarge_digits h).1
  rw [show decVal tooLarge = 2 ^ 63 by decide] at h3
  omega

/-- The least amount, −2^63, is in range. -/
theorem witness_AparseParsesOrFaults_least :
    AmountToken (0x2D :: tooLarge) (-2 ^ 63) 0 ∧ 0x20 ∉ 0x2D :: tooLarge ∧ (0x20 : Byte) ∉ [(0x41 : Byte)]
    ∧ (on [] ((0x2D :: tooLarge) ++ 0x20 :: [0x41])).sbIn = (0x2D :: tooLarge) ++ 0x20 :: [0x41] ∧ AcceptedCode [0x41] := by
  refine ⟨⟨_, [], Or.inl ⟨rfl, rfl, rfl⟩, Or.inr ⟨tooLarge, by simp, tooLarge_digits, by decide⟩⟩, by decide, by decide,
    on_sbIn _ _ (by decide), ?_⟩
  unfold AcceptedCode Upper
  decide

theorem zeros_digits (n : Nat) (h : 0 < n) : Digits (List.replicate n 0x30) := by
  refine ⟨fun e => ?_, fun b hb => ?_⟩
  · have := congrArg List.length e
    simp at this
    omega
  · rw [List.eq_of_mem_replicate hb]
    decide

theorem zeros_value (n : Nat) : decVal (List.replicate n 0x30) = 0 := by
  unfold decVal
  induction n with
  | zero => rfl
  | succ n ih => rw [List.replicate_succ, List.foldl_cons]; exact ih

/-- A point and 256 or 255 digits: the first precision that faults and the last that does not. -/
theorem witness_AparseParsesOrFaults_precision (n : Nat) (h : n = 255 ∨ n = 256) :
    AmountToken (0x2E :: List.replicate n 0x30) 0 n ∧ (0x20 : Byte) ∉ 0x2E :: List.replicate n 0x30
    ∧ (on [] ((0x2E :: List.replicate n 0x30) ++ 0x20 :: [0x40])).sbIn = (0x2E :: List.replicate n 0x30) ++ 0x20 :: [0x40]
    ∧ CodeFault [0x40] 0x21 ∧ (0x20 : Byte) ∉ [(0x40 : Byte)] := by
  refine ⟨⟨[], _, Or.inr ⟨rfl, by simp⟩, Or.inl ⟨zeros_digits n (by omega), congrArg Int.ofNat (zeros_value n).symm⟩⟩, ?_,
    on_sbIn _ _ (by simp; omega), ?_, by decide⟩
  · rw [List.mem_cons, not_or]
    exact ⟨by decide, fun hm => absurd (List.eq_of_mem_replicate hm) (by decide)⟩
  · refine Or.inl ⟨rfl, 0, by decide, by decide, ?_, fun j hj => absurd hj (Nat.not_lt_zero j)⟩
    unfold Upper
    decide

theorem witness_AssetTextRoundTrip :
    (on [0x8000000000000000, sym] []).sb.wf = true ∧ (2 : Reg) ≠ 3
    ∧ ValidCode .check ((on [0x8000000000000000, sym] []).reg 1 >>> 8) := by
  refine ⟨by decide, by decide, ⟨3, by decide, by decide, ?_, ?_, Or.inr (by decide)⟩⟩
  · unfold Upper
    decide
  · intro i h1 h2
    interval_cases i <;> decide


end Sys2Proof.Tests
end

namespace Sys2Proof.Encoding

open Sys2Proof.Machine

/-! The layer between the decoder, which cuts a word into fields (30_encoding.md R60, R61), and the opcode map, which
compares it with a match under a mask (R63). -/

/-- The word with ones in bits `hi` down to `lo` only. -/
def fieldMask (hi lo : Nat) : Cmd := BitVec.ofNat 32 ((2 ^ (hi + 1 - lo) - 1) * 2 ^ lo)

theorem and_fieldMask (c : Cmd) (hi lo : Nat) : c &&& fieldMask hi lo = BitVec.ofNat 32 (bits c hi lo * 2 ^ lo) := by
  apply BitVec.eq_of_getLsbD_eq
  intro k hk
  simp only [fieldMask, bits, BitVec.getLsbD_and, BitVec.getLsbD_ofNat, hk, decide_true, Bool.true_and,
    Nat.testBit_mul_two_pow, Nat.testBit_mod_two_pow, Nat.testBit_div_two_pow, Nat.testBit_two_pow_sub_one,
    BitVec.testBit_toNat]
  by_cases hlo : lo ≤ k
  · simp [hlo, Bool.and_comm]
  · simp [hlo]

/-- A field has the value `n` exactly when the word masked to the field is `n` in the field's place. -/
theorem bits_eq_iff (c : Cmd) {hi lo n : Nat} (hlo : lo ≤ hi) (hhi : hi < 32) (hn : n < 2 ^ (hi + 1 - lo)) :
    bits c hi lo = n ↔ c &&& fieldMask hi lo = BitVec.ofNat 32 (n * 2 ^ lo) := by
  have fits : ∀ m, m < 2 ^ (hi + 1 - lo) → m * 2 ^ lo < 2 ^ 32 := fun m hm =>
    calc m * 2 ^ lo < 2 ^ (hi + 1 - lo) * 2 ^ lo := Nat.mul_lt_mul_of_pos_right hm (Nat.two_pow_pos lo)
      _ = 2 ^ (hi + 1) := by rw [← Nat.pow_add]; congr 1; omega
      _ ≤ 2 ^ 32 := Nat.pow_le_pow_right (by decide) hhi
  have hbits : bits c hi lo < 2 ^ (hi + 1 - lo) := Nat.mod_lt _ (Nat.two_pow_pos _)
  rw [and_fieldMask, ← BitVec.toNat_inj, BitVec.toNat_ofNat, BitVec.toNat_ofNat, Nat.mod_eq_of_lt (fits _ hbits),
    Nat.mod_eq_of_lt (fits n hn), Nat.mul_left_inj (Nat.two_pow_pos lo).ne']

theorem bits_beq_zero_iff (c : Cmd) {hi lo : Nat} (hlo : lo ≤ hi) (hhi : hi < 32) :
    (bits c hi lo == 0) = true ↔ c &&& fieldMask hi lo = 0 := by
  rw [beq_iff_eq, bits_eq_iff c hlo hhi (Nat.two_pow_pos _), Nat.zero_mul]
  rfl

theorem bits_beq_zero_and_iff (c : Cmd) {hi lo hi' lo' : Nat} (hlo : lo ≤ hi) (hhi : hi < 32) (hlo' : lo' ≤ hi')
    (hhi' : hi' < 32) :
    (bits c hi lo == 0 && bits c hi' lo' == 0) = true ↔ c &&& (fieldMask hi lo ||| fieldMask hi' lo') = 0 := by
  rw [Bool.and_eq_true, bits_beq_zero_iff c hlo hhi, bits_beq_zero_iff c hlo' hhi', BitVec.and_or_distrib_left]
  exact BitVec.or_eq_zero_iff.symm

theorem bits_eq_toNat_extractLsb' (c : Cmd) (hi lo : Nat) : bits c hi lo = (c.extractLsb' lo (hi + 1 - lo)).toNat := by
  rw [BitVec.extractLsb'_toNat, Nat.shiftRight_eq_div_pow, bits]

/-! The opcode field and the must-be-zero bits of each format as masks: together, a row's mask in R63. -/

theorem fieldOp_eq_iff (c : Cmd) {op : Nat} (h : op < 256) :
    fieldOp c = op ↔ c &&& 0xFF000000 = BitVec.ofNat 32 (op * 2 ^ 24) :=
  bits_eq_iff c (by decide) (by decide) h

theorem zeroBitsZ_iff (c : Cmd) : zeroBitsZ c = true ↔ c &&& 0x00FFFFFF = 0 :=
  bits_beq_zero_iff c (by decide) (by decide)

theorem zeroBitsD_iff (c : Cmd) : zeroBitsD c = true ↔ c &&& 0x000FFFFF = 0 :=
  bits_beq_zero_iff c (by decide) (by decide)

theorem zeroBitsS_iff (c : Cmd) : zeroBitsS c = true ↔ c &&& 0x00F0FFFF = 0 :=
  bits_beq_zero_and_iff c (by decide) (by decide) (by decide) (by decide)

theorem zeroBitsDS_iff (c : Cmd) : zeroBitsDS c = true ↔ c &&& 0x0000FFFF = 0 :=
  bits_beq_zero_iff c (by decide) (by decide)

theorem zeroBitsDSC_iff (c : Cmd) : zeroBitsDSC c = true ↔ c &&& 0x0000F0FF = 0 :=
  bits_beq_zero_and_iff c (by decide) (by decide) (by decide) (by decide)

theorem zeroBitsDAB_iff (c : Cmd) : zeroBitsDAB c = true ↔ c &&& 0x00000FFF = 0 :=
  bits_beq_zero_iff c (by decide) (by decide)

theorem zeroBitsA_iff (c : Cmd) : zeroBitsA c = true ↔ c &&& 0x0000000F = 0 :=
  bits_beq_zero_iff c (by decide) (by decide)

theorem zeroBitsAB_iff (c : Cmd) : zeroBitsAB c = true ↔ c &&& 0x00F00FFF = 0 :=
  bits_beq_zero_and_iff c (by decide) (by decide) (by decide) (by decide)

theorem zeroBitsDD_iff (c : Cmd) : zeroBitsDD c = true ↔ c &&& 0x0000FFFF = 0 :=
  bits_beq_zero_iff c (by decide) (by decide)

theorem zeroBitsI_iff (c : Cmd) : zeroBitsI c = true ↔ c &&& 0x00FF0000 = 0 :=
  bits_beq_zero_iff c (by decide) (by decide)

/-! What an accepted word says of itself. -/

theorem requireZero_eq_ok_iff {ok : Bool} {i j : Instr} : requireZero ok i = .ok j ↔ ok = true ∧ i = j := by
  cases ok <;> simp [requireZero]

theorem requireDistinct_eq_ok_iff {r : Except Illegal Instr} {i : Instr} :
    requireDistinct r = .ok i ↔ r = .ok i ∧ i.wellFormed = true := by
  cases r with
  | error e => simp [requireDistinct]
  | ok j =>
    by_cases hwf : j.wellFormed = true
    · simpa [requireDistinct, hwf] using fun h : j = i => h ▸ hwf
    · simpa [requireDistinct, hwf] using fun h : j = i => h ▸ Bool.eq_false_of_not_eq_true hwf

/-- A word of opcode `op` whose bits under `zeros` are clear matches the row of `op` with that zero mask. -/
theorem row_of_fields {c zeros : Cmd} {op : Nat} (hop : fieldOp c = op) (hlt : op < 256) (hzeros : c &&& zeros = 0)
    (hrow : (op, BitVec.ofNat 32 (op * 2 ^ 24), 0xFF000000 ||| zeros) ∈ opcodeRows) :
    ∃ row ∈ opcodeRows, row.1 = op ∧ c &&& row.2.2 = row.2.1 :=
  ⟨_, hrow, rfl, by
    rw [BitVec.and_or_distrib_left, (fieldOp_eq_iff c hlt).1 hop, hzeros]
    exact BitVec.or_zero⟩

/-- A word the decoder accepts matches the row of its command in the opcode map (R63, R65 step 2). The decoder's last
two arms stand apart: no row, and APARSE, whose command is checked once more; the others differ only in their format. -/
theorem row_of_decode {c : Cmd} {i : Instr} (h : decode c = .ok i) :
    ∃ row ∈ opcodeRows, row.1 = i.opcode ∧ c &&& row.2.2 = row.2.1 := by
  unfold decode at h
  generalize hop : fieldOp c = op at h
  split at h
  case h_34 => cases h
  case h_33 =>
    obtain ⟨h, -⟩ := requireDistinct_eq_ok_iff.1 h
    obtain ⟨hzeros, rfl⟩ := requireZero_eq_ok_iff.1 h
    exact (row_of_fields hop (by decide) ((zeroBitsDD_iff c).1 hzeros) (by decide) :)
  all_goals
    simp only [requireZero_eq_ok_iff, zeroBitsZ_iff, zeroBitsD_iff, zeroBitsS_iff, zeroBitsDS_iff, zeroBitsDSC_iff,
      zeroBitsDAB_iff, zeroBitsA_iff, zeroBitsAB_iff, zeroBitsI_iff] at h
    obtain ⟨hzeros, rfl⟩ := h
    exact (row_of_fields hop (by decide) hzeros (by decide) :)

/-- A word of APARSE's opcode is refused when its two destinations are one register (R65 step 3). -/
theorem decode_aparse_ne_ok {c : Cmd} (hop : fieldOp c = 0x3A) (hsame : fieldRd c = fieldRa c) (i : Instr) :
    decode c ≠ .ok i := by
  intro h
  have haparse : decode c = requireDistinct (requireZero (zeroBitsDD c) (.aparse (fieldRd c) (fieldRa c))) := by
    simp only [decode, hop]
  obtain ⟨h, hwf⟩ := requireDistinct_eq_ok_iff.1 (haparse ▸ h)
  obtain ⟨-, rfl⟩ := requireZero_eq_ok_iff.1 h
  simp [Instr.wellFormed, hsame] at hwf

theorem fieldOp_of_aparse_row {c : Cmd} (h : c &&& 0xFF00FFFF = 0x3A000000) : fieldOp c = 0x3A := by
  rw [fieldOp_eq_iff c (by decide)]
  calc c &&& 0xFF000000 = (c &&& 0xFF00FFFF) &&& 0xFF000000 := by rw [BitVec.and_assoc]; rfl
    _ = BitVec.ofNat 32 (0x3A * 2 ^ 24) := by rw [h]; rfl

theorem fieldRd_eq_fieldRa {c : Cmd} (h : c.extractLsb' 20 4 = c.extractLsb' 16 4) : fieldRd c = fieldRa c := by
  rw [fieldRd, fieldRa, bits_eq_toNat_extractLsb', bits_eq_toNat_extractLsb', h]

/-- A running unit takes fault entry on a word the decoder refuses, whatever the cause (R66, 60_exceptions.md R165). -/
theorem step_of_refused {s : State} {c : Cmd} {w : Word} {rest : List HostEvent} (hrun : s.halt = false)
    (hpending : s.pending = .command c w :: rest) (hrefused : ∀ i, decode c ≠ .ok i) :
    step s = .next (faulted 0x01 { s with pending := rest, wdata := w }) := by
  cases hdecode : decode c with
  | ok i => exact absurd hdecode (hrefused i)
  | error e =>
    have htake : takeEvent s = .settled ((s.present w rest).faultEntry .illegalCmd) := by
      simp [takeEvent, hpending, hrun, hdecode]
    rw [step, htake]
    rfl

/-- Settles O12: a word that matches no row is refused because an accepted one matches its command's row; an APARSE
with one destination twice is refused by the decoder's last check. -/
theorem illegalWordsFault : Obligations.IllegalWordsFault := by
  intro s c w rest hrun hpending hillegal
  apply step_of_refused hrun hpending
  intro i hdecode
  rcases hillegal with hnorow | ⟨hrow, hsame⟩
  · obtain ⟨row, hmem, -, hmatch⟩ := row_of_decode hdecode
    exact hnorow row hmem hmatch
  · exact decode_aparse_ne_ok (fieldOp_of_aparse_row hrow) (fieldRd_eq_fieldRa hsame) i hdecode

end Sys2Proof.Encoding

namespace Sys2Proof.HostAccess

open Sys2Proof.Machine

/-! What completing, answering and faulting leave unchanged (40_host_access.md R87, 60_exceptions.md R163), and the
values of `SLEN` and of a data word's low byte where they are in range. -/

theorem completed_respond (s : State) (v : Word) : Completed s (s.respond v) where
  fcode := rfl
  halt := rfl
  pending := rfl
  wdata := rfl
  fault := rfl

theorem onlyAnswer_respond (s : State) (v : Word) : OnlyAnswer v s (s.respond v) where
  rdata := rfl
  regs := fun _ => rfl
  buffer := ⟨rfl, fun _ => rfl⟩
  rest := completed_respond s v

theorem onlyReg_setReg_respond (s : State) (rd : Reg) (v : Word) : OnlyReg rd v s ((s.setReg rd v).respond 0) where
  result := State.setReg_reg_self s rd v
  others := fun r hr => State.setReg_reg_other s rd r v hr
  buffer := ⟨rfl, fun _ => rfl⟩
  rest := ⟨rfl, rfl, rfl, rfl, rfl⟩
  rdata := rfl

/-- A command that ends in a register result completes and changes that register only. -/
theorem writeResult_onlyReg (s : State) (rd : Reg) (v : Word) :
    ∃ t, writeResult rd v s = .next t ∧ OnlyReg rd v s t :=
  ⟨_, writeResult_eq rd v s, onlyReg_setReg_respond s rd v⟩

/-- Fault entry is the state the statements call `faulted`. -/
theorem raise_eq_faulted (c : FltCode) (s : State) : raise c s = .next (faulted c.number s) := rfl

/-- A length within the capacity is kept as it is (10_state.md R23). -/
theorem setSlen_slen_val (s : State) {n : Nat} (h : n ≤ 512) : (s.setSlen n).slen.val = n := by
  rw [State.setSlen_slen, Fin.val_ofNat]
  exact Nat.mod_eq_of_lt (Nat.lt_succ_of_le h)

theorem sbIn_eq_nil {s : State} (h : s.slen = 0) : s.sbIn = [] := by
  rw [← List.length_eq_zero_iff, State.sbIn_length, h]
  rfl

/-- A data word that is a byte is its own low byte. -/
theorem lowByte_toNat {v : Word} (h : v.toNat ≤ 255) : (lowByte v).toNat = v.toNat := by
  rw [lowByte, BitVec.toNat_setWidth]
  exact Nat.mod_eq_of_lt (Nat.lt_succ_of_le h)

/-- A halted unit ignores whatever command comes next, legal or not (60_exceptions.md R165). -/
theorem step_of_halted {s : State} {c : Cmd} {w : Word} {rest : List HostEvent} (hhalt : s.halt = true)
    (hpending : s.pending = .command c w :: rest) : step s = .next (s.present w rest).ignoreCommand := by
  have htake : takeEvent s = .settled (s.present w rest).ignoreCommand := by
    simp [takeEvent, hpending, hhalt]
  rw [step, htake]

/-! The words of SETR, GETR and SBGET, for every operand (30_encoding.md R60, R63). -/

theorem decode_setr_word (rd : Reg) : decode (commandWord 0x01 rd 0 0 0 0) = .ok (.setr rd) := by
  have hop := fieldOp_of_word 0x01 (by decide) rd 0 0 0 0
  have hzeros := zeroBitsD_of_word 0x01 (by decide) rd
  have hrd := fieldRd_of_word 0x01 (by decide) rd 0 0 0 0
  simp only [decode, hop, hzeros, hrd, requireZero, if_true]

theorem decode_getr_word (ra : Reg) : decode (commandWord 0x02 0 ra 0 0 0) = .ok (.getr ra) := by
  have hop := fieldOp_of_word 0x02 (by decide) 0 ra 0 0 0
  have hzeros := zeroBitsS_of_word 0x02 (by decide) ra
  have hra := fieldRa_of_word 0x02 (by decide) 0 ra 0 0 0
  simp only [decode, hop, hzeros, hra, requireZero, if_true]

/-- SBGET's word is no `commandWord`: its immediate fills the places of `rb`, `rc`, `re` and bits 3:0. -/
theorem decode_sbget_word (k : BitVec 16) : decode (BitVec.ofNat 32 (0x05000000 + k.toNat)) = .ok (.sbget k) := by
  have hword : (BitVec.ofNat 32 (0x05000000 + k.toNat)).toNat = 0x05000000 + k.toNat := by
    rw [BitVec.toNat_ofNat]
    omega
  have hop : fieldOp (BitVec.ofNat 32 (0x05000000 + k.toNat)) = 0x05 := by
    rw [fieldOp, bits, hword]
    omega
  have hzeros : zeroBitsI (BitVec.ofNat 32 (0x05000000 + k.toNat)) = true := by
    rw [zeroBitsI, bits, hword, beq_iff_eq]
    omega
  have himm : fieldImm16 (BitVec.ofNat 32 (0x05000000 + k.toNat)) = k := by
    apply BitVec.eq_of_toNat_eq
    rw [fieldImm16, bits, hword, BitVec.toNat_ofNat]
    omega
  simp only [decode, hop, hzeros, himm, requireZero, if_true]

/-! What each command answers, an equation per case of its rule (40_host_access.md R80 to R86). -/

theorem exec_nop (s : State) : exec .nop s = .next (s.respond 0) := rfl

theorem exec_setr (rd : Reg) (s : State) : exec (.setr rd) s = writeResult rd s.wdata s := rfl

theorem exec_getr (ra : Reg) (s : State) : exec (.getr ra) s = .next (s.respond (s.reg ra)) := rfl

theorem exec_sbclr (s : State) : exec .sbclr s = .next ((s.setSlen 0).respond 0) := rfl

theorem exec_sblen (s : State) : exec .sblen s = .next (s.respond (BitVec.ofNat 64 s.slen.val)) := rfl

/-- SBPUT refuses a data word that is no byte, whatever `SLEN` is. -/
theorem exec_sbput_of_not_byte {s : State} (h : 255 < s.wdata.toNat) :
    exec .sbput s = .next (faulted 0x03 s) :=
  (if_pos h).trans (raise_eq_faulted .operandRange s)

/-- SBPUT refuses a byte when the buffer is full. -/
theorem exec_sbput_of_full {s : State} (hbyte : s.wdata.toNat ≤ 255) (hfull : s.slen.val = 512) :
    exec .sbput s = .next (faulted 0x02 s) :=
  calc exec .sbput s
    _ = if s.slen.val < Config.sbCap then _ else raise .sbBounds s := if_neg (Nat.not_lt.2 hbyte)
    _ = raise .sbBounds s := if_neg (Nat.not_lt.2 hfull.ge)
    _ = .next (faulted 0x02 s) := raise_eq_faulted .sbBounds s

/-- SBPUT stores a byte at address `SLEN` when there is room. -/
theorem exec_sbput_of_room {s : State} (hbyte : s.wdata.toNat ≤ 255) (hroom : s.slen.val < 512) :
    exec .sbput s = .next (((s.memWrite s.slen.val (lowByte s.wdata)).setSlen (s.slen.val + 1)).respond 0) :=
  (if_neg (Nat.not_lt.2 hbyte)).trans (if_pos hroom)

/-- SBGET refuses an address outside the current string. -/
theorem exec_sbget_of_outside {k : BitVec 16} {s : State} (h : s.slen.val ≤ k.toNat) :
    exec (.sbget k) s = .next (faulted 0x02 s) :=
  (if_pos h).trans (raise_eq_faulted .sbBounds s)

/-- SBGET answers a byte of the current string, zero-extended. -/
theorem exec_sbget_of_inside {k : BitVec 16} {s : State} (h : k.toNat < s.slen.val) :
    exec (.sbget k) s = .next (s.respond ((s.sb.read k.toNat).setWidth 64)) :=
  if_neg (Nat.not_le.2 h)

/-- Settles O23: the cases of SBPUT's rule; where it stores, the reads are those after one write in canonical form. -/
theorem sbputAppendsAByte : Obligations.SbputAppendsAByte := by
  refine ⟨rfl, fun s => ⟨exec_sbput_of_not_byte, exec_sbput_of_full, fun hwf hbyte hlen => ?_⟩⟩
  have hroom : s.slen.val < 512 := Nat.lt_of_le_of_ne (State.slen_le s) hlen
  refine ⟨_, exec_sbput_of_room hbyte hroom, ?_, ?_, fun a ha => ?_, fun _ => rfl, ⟨rfl, rfl, rfl, rfl, rfl⟩, rfl⟩
  · rw [State.respond_slen, setSlen_slen_val _ hroom]
  · rw [State.respond_sb, State.setSlen_sb, State.memWrite_sb, Memory.read_write hwf, if_pos rfl, lowByte_toNat hbyte]
  · rw [State.respond_sb, State.setSlen_sb, State.memWrite_sb, Memory.read_write hwf, if_neg ha]

/-- Settles O19: NOP only answers; halted, it is ignored as any command is. -/
theorem nopDoesNothing : Obligations.NopDoesNothing :=
  ⟨rfl, exec_nop, fun _ _ _ hhalt hpending => step_of_halted hhalt hpending⟩

/-- Settles O20: SETR is a register result, the data word. -/
theorem setrLoadsWdata : Obligations.SetrLoadsWdata :=
  ⟨decode_setr_word, fun rd s => exec_setr rd s ▸ writeResult_onlyReg s rd s.wdata⟩

/-- Settles O21: GETR only answers. -/
theorem getrAnswersTheRegister : Obligations.GetrAnswersTheRegister :=
  ⟨decode_getr_word, fun ra s => ⟨_, exec_getr ra s, onlyAnswer_respond s (s.reg ra)⟩⟩

/-- Settles O22: SBCLR writes `SLEN` and nothing else. -/
theorem sbclrEmptiesTheString : Obligations.SbclrEmptiesTheString :=
  ⟨rfl, fun s => ⟨_, exec_sbclr s, rfl, sbIn_eq_nil rfl, fun _ => rfl, fun _ => rfl, ⟨rfl, rfl, rfl, rfl, rfl⟩, rfl⟩⟩

/-- Settles O24: SBGET's two cases, the address outside the current string and inside it. -/
theorem sbgetAnswersAByte : Obligations.SbgetAnswersAByte :=
  ⟨decode_sbget_word, fun _ s =>
    ⟨exec_sbget_of_outside, fun hinside => ⟨_, exec_sbget_of_inside hinside, onlyAnswer_respond s _⟩⟩⟩

/-- Settles O25: SBLEN only answers, and `SLEN` fits in the answer. -/
theorem sblenAnswersTheLength : Obligations.SblenAnswersTheLength := by
  refine ⟨rfl, fun s => ⟨_, _, exec_sblen s, onlyAnswer_respond s _, ?_⟩⟩
  have hlen := State.slen_le s
  rw [BitVec.toNat_ofNat]
  omega

end Sys2Proof.HostAccess

namespace Sys2Proof.NameCodec

open Sys2Proof.Machine
open Sys2Proof.HostAccess

/-! The Name alphabet and the words of NENC and NDEC (41_name_codec.md R91; 30_encoding.md R60, R63). -/

theorem nameIdx_lt {b : Byte} {k : Nat} (h : nameIdx b = some k) : k < 32 := by
  unfold nameIdx at h
  split_ifs at h <;> rw [Option.some.injEq] at h <;> omega

theorem decode_nenc_word (rd : Reg) : decode (commandWord 0x10 rd 0 0 0 0) = .ok (.nenc rd) := by
  have hop := fieldOp_of_word 0x10 (by decide) rd 0 0 0 0
  have hzeros := zeroBitsD_of_word 0x10 (by decide) rd
  have hrd := fieldRd_of_word 0x10 (by decide) rd 0 0 0 0
  simp only [decode, hop, hzeros, hrd, requireZero, if_true]

theorem decode_ndec_word (ra : Reg) : decode (commandWord 0x11 0 ra 0 0 0) = .ok (.ndec ra) := by
  have hop := fieldOp_of_word 0x11 (by decide) 0 ra 0 0 0
  have hzeros := zeroBitsS_of_word 0x11 (by decide) ra
  have hra := fieldRa_of_word 0x11 (by decide) 0 ra 0 0 0
  simp only [decode, hop, hzeros, hra, requireZero, if_true]

/-! A Name value from its slots (R90): twelve 5-bit digits, the first highest, above one 4-bit digit. -/

/-- The number whose base-32 digits, highest first, are `f 0` to `f (n − 1)`. -/
def packSlots (f : Nat → Nat) : Nat → Nat
  | 0 => 0
  | n + 1 => packSlots f n * 32 + f n

/-- The value whose slots are `f 0` to `f 12`. -/
def nameWord (f : Nat → Nat) : Word := BitVec.ofNat 64 (packSlots f 12 * 16 + f 12)

section Slots

variable {f : Nat → Nat}

theorem packSlots_lt (hf : ∀ i, f i < 32) (n : Nat) : packSlots f n < 32 ^ n := by
  induction n with
  | zero => exact Nat.one_pos
  | succ n ih =>
    have hlast := hf n
    rw [packSlots, Nat.pow_succ]
    omega

/-- The digit with `d` digits below it. -/
theorem packSlots_digit (hf : ∀ i, f i < 32) (i d : Nat) : packSlots f (i + 1 + d) / 32 ^ d % 32 = f i := by
  induction d with
  | zero =>
    have hdigit := hf i
    rw [Nat.add_zero, Nat.pow_zero, Nat.div_one, packSlots]
    omega
  | succ d ih =>
    have hlast := hf (i + 1 + d)
    have hdrop : packSlots f (i + 1 + d + 1) / 32 = packSlots f (i + 1 + d) := by
      rw [packSlots]
      omega
    rw [Nat.pow_succ', ← Nat.div_div_eq_div_mul, ← Nat.add_assoc, hdrop, ih]

/-- Digits that are 0 shift the number to the left. -/
theorem packSlots_add {m : Nat} (hf : ∀ i, m ≤ i → f i = 0) (d : Nat) :
    packSlots f (m + d) = packSlots f m * 32 ^ d := by
  induction d with
  | zero => simp
  | succ d ih =>
    rw [← Nat.add_assoc, packSlots, ih, hf _ (Nat.le_add_right m d), Nat.add_zero, Nat.pow_succ, Nat.mul_assoc]

theorem nameWord_toNat (hf : ∀ i, f i < 32) (h12 : f 12 < 16) : (nameWord f).toNat = packSlots f 12 * 16 + f 12 := by
  have hlt := packSlots_lt hf 12
  rw [nameWord, BitVec.toNat_ofNat]
  omega

/-- The slots of a value are the digits it is made from. -/
theorem slot_nameWord (hf : ∀ i, f i < 32) (h12 : f 12 < 16) {i : Nat} (hi : i < 13) : slot (nameWord f) i = f i := by
  rw [slot, nameWord_toNat hf h12]
  split_ifs with hlt
  · obtain ⟨d, hd⟩ : ∃ d, 12 = i + 1 + d := ⟨11 - i, by omega⟩
    have hlo : 2 ^ slotLo i = 16 * 32 ^ d := by
      rw [slotLo, if_pos hlt, show 59 - 5 * i = 4 + 5 * d by omega, Nat.pow_add, Nat.pow_mul]
    have hdrop : (packSlots f 12 * 16 + f 12) / 16 = packSlots f 12 := by omega
    rw [hlo, ← Nat.div_div_eq_div_mul, hdrop]
    exact hd ▸ packSlots_digit hf i d
  · obtain rfl : i = 12 := by omega
    omega

/-- ORing a 4-bit index into a value whose last slot is 0 fills that slot. -/
theorem or_lastSlot {n k : Nat} (hn : n < 2 ^ 60) (hk : k < 16) :
    BitVec.ofNat 64 (n * 16) ||| BitVec.ofNat 64 k = BitVec.ofNat 64 (n * 16 + k) := by
  apply BitVec.eq_of_toNat_eq
  rw [BitVec.toNat_or, BitVec.toNat_ofNat, BitVec.toNat_ofNat, BitVec.toNat_ofNat, Nat.mod_eq_of_lt (by omega),
    Nat.mod_eq_of_lt (by omega), Nat.mod_eq_of_lt (by omega), Nat.mul_comm]
  exact (Nat.two_pow_add_eq_or_of_lt (i := 4) hk n).symm

end Slots

/-! NENC's scan of the string, position by position (R93). -/

/-- The index of character `i` of `t`; 0 beyond the string and, though no accepted string has one, at a byte outside
the alphabet. -/
def slotOf (t : List Byte) (i : Nat) : Nat := (t[i]?.bind nameIdx).getD 0

theorem slotOf_of_nameIdx {t : List Byte} {i k : Nat} (h : i < t.length) (hk : nameIdx t[i] = some k) :
    slotOf t i = k := by
  simp [slotOf, h, hk]

theorem slotOf_of_length_le {t : List Byte} {i : Nat} (h : t.length ≤ i) : slotOf t i = 0 := by
  simp [slotOf, h]

theorem slotOf_lt (t : List Byte) (i : Nat) : slotOf t i < 32 := by
  unfold slotOf
  cases hk : t[i]?.bind nameIdx with
  | none => decide
  | some k =>
    obtain ⟨b, -, hb⟩ := Option.bind_eq_some_iff.1 hk
    exact nameIdx_lt hb

/-- The first loop of R93 meets only characters of the alphabet. -/
def FirstTwelveNamed (t : List Byte) : Prop := ∀ i, (h : i < t.length) → i < 12 → nameIdx t[i] ≠ none

theorem namePack_append (t u : List Byte) (acc : Nat) : namePack (t ++ u) acc = (namePack t acc).bind (namePack u) := by
  induction t generalizing acc with
  | nil => rfl
  | cons b t ih =>
    cases hk : nameIdx b with
    | none => simp [namePack, hk, Except.bind]
    | some k => simp [namePack, hk, ih]

theorem namePack_of_unnamed {t : List Byte} (h : ∃ b ∈ t, nameIdx b = none) (acc : Nat) :
    namePack t acc = .error .nameInvalidChar := by
  induction t generalizing acc with
  | nil => simp at h
  | cons b t ih =>
    cases hk : nameIdx b with
    | none => simp [namePack, hk]
    | some k =>
      have htail : ∃ b ∈ t, nameIdx b = none := by simpa [hk] using h
      simp [namePack, hk, ih htail]

/-- The first loop of R93 over `n` characters of the alphabet gives the number of their indexes. -/
theorem namePack_take {t : List Byte} (h : FirstTwelveNamed t) {n : Nat} (hlen : n ≤ t.length) (hn : n ≤ 12) :
    namePack (t.take n) 0 = .ok (packSlots (slotOf t) n) := by
  induction n with
  | zero => rfl
  | succ n ih =>
    obtain ⟨k, hk⟩ := Option.ne_none_iff_exists'.1 (h n hlen hn)
    rw [← List.take_append_getElem hlen, namePack_append, ih (by omega) (by omega)]
    simp [Except.bind, namePack, hk, packSlots, slotOf_of_nameIdx hlen hk]

/-- Bringing the number of the characters there are up to twelve digits is the shift of R93. -/
theorem packSlots_slotOf_twelve (t : List Byte) : packSlots (slotOf t) 12 * 16
    = packSlots (slotOf t) (min t.length 12) * 2 ^ (4 + 5 * (12 - min t.length 12)) := by
  rcases Nat.le_total t.length 12 with hshort | hlong
  · obtain ⟨d, hd⟩ := Nat.exists_eq_add_of_le hshort
    rw [Nat.min_eq_left hshort, hd, Nat.add_sub_cancel_left, packSlots_add fun i hi => slotOf_of_length_le hi,
      Nat.pow_add, Nat.pow_mul, Nat.mul_assoc, Nat.mul_comm (32 ^ d)]
  · rw [Nat.min_eq_right hlong]
    rfl

/-- After the first loop and the shift every slot but the last is in place, for every number of characters
(90_conflicts.md C2): the shift makes the missing digits 0. -/
theorem nameEncode_of_firstTwelveNamed {t : List Byte} (h : FirstTwelveNamed t) :
    nameEncode t = nameThirteenth (BitVec.ofNat 64 (packSlots (slotOf t) 12 * 16)) (t.drop 12) := by
  have hpack : namePack (t.take 12) 0 = .ok (packSlots (slotOf t) (min t.length 12)) := by
    rw [List.take_eq_take_min, Nat.min_comm]
    exact namePack_take h (Nat.min_le_left _ _) (Nat.min_le_right _ _)
  rw [packSlots_slotOf_twelve]
  simp only [nameEncode, hpack, u64, BitVec.ofInt_natCast]

/-- A byte outside the alphabet among the first twelve stops the first loop. -/
theorem nameEncode_of_unnamed {t : List Byte} {i : Nat} (h : i < t.length) (hi : i < 12) (hnone : nameIdx t[i] = none) :
    nameEncode t = .error .nameInvalidChar := by
  have hmem : t[i] ∈ t.take 12 := List.mem_take_iff_getElem.2 ⟨i, by omega, rfl⟩
  rw [nameEncode, namePack_of_unnamed ⟨_, hmem, hnone⟩]

section Thirteenth

variable {t : List Byte} (hfirst : FirstTwelveNamed t) (hlen : 12 < t.length)
include hfirst hlen

theorem nameEncode_of_long :
    nameEncode t = nameThirteenth (BitVec.ofNat 64 (packSlots (slotOf t) 12 * 16)) (t[12] :: t.drop 13) := by
  rw [nameEncode_of_firstTwelveNamed hfirst, List.drop_eq_getElem_cons hlen]

theorem nameEncode_of_unnamed_thirteenth (hnone : nameIdx t[12] = none) : nameEncode t = .error .nameInvalidChar := by
  rw [nameEncode_of_long hfirst hlen]
  simp only [nameThirteenth, hnone]

variable {k : Nat} (hk : nameIdx t[12] = some k)
include hk

theorem nameEncode_of_large_thirteenth (hlarge : 15 < k) : nameEncode t = .error .nameInvalid13th := by
  rw [nameEncode_of_long hfirst hlen]
  simp only [nameThirteenth, hk, if_pos hlarge]

theorem nameEncode_of_fourteenth (hsmall : k ≤ 15) (h14 : 14 ≤ t.length) : nameEncode t = .error .nameTooLong := by
  have hrest : (t.drop 13).isEmpty = false := by
    rw [List.isEmpty_eq_false_iff, ne_eq, List.drop_eq_nil_iff]
    omega
  rw [nameEncode_of_long hfirst hlen]
  simp [nameThirteenth, hk, Nat.not_lt.2 hsmall, hrest]

theorem nameEncode_of_thirteen (hsmall : k ≤ 15) (h13 : t.length = 13) : nameEncode t = .ok (nameWord (slotOf t)) := by
  have hrest : t.drop 13 = [] := List.drop_eq_nil_of_le h13.le
  have hor := or_lastSlot (packSlots_lt (slotOf_lt t) 12) (Nat.lt_succ_of_le hsmall)
  rw [nameEncode_of_long hfirst hlen, hrest, nameWord, slotOf_of_nameIdx hlen hk, ← hor]
  simp [nameThirteenth, hk, Nat.not_lt.2 hsmall]

end Thirteenth

theorem firstTwelveNamed_of_accepted {t : List Byte} (h : AcceptedName t) : FirstTwelveNamed t := by
  intro i hi _
  obtain ⟨k, hk, -⟩ := h.2 i hi
  simp [hk]

/-- NENC packs an accepted string into the value whose slots are its characters' indexes (R93). -/
theorem nameEncode_of_accepted {t : List Byte} (h : AcceptedName t) : nameEncode t = .ok (nameWord (slotOf t)) := by
  have hfirst := firstTwelveNamed_of_accepted h
  obtain ⟨hlen, hchars⟩ := h
  rcases Nat.lt_or_ge 12 t.length with hlong | hshort
  · obtain ⟨k, hk, hsmall⟩ := hchars 12 hlong
    exact nameEncode_of_thirteen hfirst hlong hk (hsmall rfl) (by omega)
  · rw [nameEncode_of_firstTwelveNamed hfirst, List.drop_eq_nil_of_le hshort, nameWord, slotOf_of_length_le hshort]
    rfl

theorem slotOf_twelve_lt {t : List Byte} (h : AcceptedName t) : slotOf t 12 < 16 := by
  rcases Nat.lt_or_ge 12 t.length with hlong | hshort
  · obtain ⟨k, hk, hsmall⟩ := h.2 12 hlong
    rw [slotOf_of_nameIdx hlong hk]
    exact Nat.lt_succ_of_le (hsmall rfl)
  · rw [slotOf_of_length_le hshort]
    decide

/-! What NENC answers (R93). -/

theorem exec_nenc (rd : Reg) (s : State) :
    exec (.nenc rd) s = orRaise s (nameEncode s.sbIn) (fun v => writeResult rd v s) := rfl

theorem exec_nenc_of_ok {s : State} {v : Word} (rd : Reg) (h : nameEncode s.sbIn = .ok v) :
    ∃ t, exec (.nenc rd) s = .next t ∧ OnlyReg rd v s t := by
  rw [exec_nenc, h, orRaise_ok]
  exact writeResult_onlyReg s rd v

theorem exec_nenc_of_error {s : State} {c : FltCode} (rd : Reg) (h : nameEncode s.sbIn = .error c) :
    exec (.nenc rd) s = .next (faulted c.number s) := by
  rw [exec_nenc, h]
  exact raise_eq_faulted c s

/-- Settles O28: an accepted string is packed slot by slot; any other faults where NENC's scan first meets a byte it
refuses, in the first loop, at the 13th character or behind it. -/
theorem nencPacksOrFaults : Obligations.NencPacksOrFaults := by
  refine ⟨decode_nenc_word, fun rd s => ⟨fun haccepted => ?_, fun i hlen hi hnone hbefore => ?_,
    fun hlen hbefore k hk => ?_⟩⟩
  · obtain ⟨t, hexec, honly⟩ := exec_nenc_of_ok rd (nameEncode_of_accepted haccepted)
    exact ⟨t, _, hexec, honly, fun i hi => slot_nameWord (slotOf_lt _) (slotOf_twelve_lt haccepted) hi⟩
  · apply exec_nenc_of_error (c := .nameInvalidChar)
    rcases Nat.lt_or_ge i 12 with hlt | hge
    · exact nameEncode_of_unnamed hlen hlt hnone
    · obtain rfl : i = 12 := by omega
      exact nameEncode_of_unnamed_thirteenth (fun j _ hj => hbefore j hj) hlen hnone
  · have hfirst : FirstTwelveNamed s.sbIn := fun j _ hj => hbefore j hj
    exact ⟨fun hlarge => exec_nenc_of_error rd (nameEncode_of_large_thirteenth hfirst hlen hk hlarge),
      fun hsmall h14 => exec_nenc_of_error rd (nameEncode_of_fourteenth hfirst hlen hk hsmall h14)⟩

/-- Settles O29: the two strings are short enough to be packed by evaluation. -/
theorem nencExactLiterals : Obligations.NencExactLiterals := by
  refine fun rd s => ⟨fun hstring => ?_, fun hstring => ?_⟩
  · obtain ⟨t, hexec, honly⟩ :=
      exec_nenc_of_ok rd (hstring.symm ▸ rfl : nameEncode s.sbIn = .ok 595056260442243615)
    exact ⟨t, hexec, honly, honly.result⟩
  · exact exec_nenc_of_ok rd (hstring.symm ▸ rfl : nameEncode s.sbIn = .ok 0xFFFFFFFFFFFFFFFF)

/-! NDEC: the last non-zero slot, and the string up to it (R94; 42_name_scan.md R103). -/

/-- A search of the positions below `n` from the highest down finds the last one that satisfies `p`. -/
theorem last_of_find?_reverse_range {p : Nat → Bool} {n i : Nat} (h : (List.range n).reverse.find? p = some i) :
    p i = true ∧ i < n ∧ ∀ j, i < j → j < n → p j = false := by
  obtain ⟨hi, k, hk, hki, hbefore⟩ := List.find?_eq_some_iff_getElem.1 h
  rw [List.length_reverse, List.length_range] at hk
  rw [List.getElem_reverse, List.getElem_range, List.length_range] at hki
  refine ⟨hi, by omega, fun j hij hjn => ?_⟩
  have hj := hbefore (n - 1 - j) (by omega)
  rw [List.getElem_reverse, List.getElem_range, List.length_range, show n - 1 - (n - 1 - j) = j by omega] at hj
  simpa using hj

/-- `name_len` counts to the last non-zero slot. -/
theorem nameLen_spec (v : Word) :
    nameLen v ≤ 13 ∧ (∀ i, nameLen v ≤ i → i < 13 → slot v i = 0) ∧ ∀ i, i + 1 = nameLen v → slot v i ≠ 0 := by
  unfold nameLen
  split
  case h_1 hfind =>
    have hzero : ∀ i, i < 13 → slot v i = 0 := by simpa using hfind
    exact ⟨Nat.zero_le 13, fun i _ => hzero i, fun i hi => absurd hi (Nat.succ_ne_zero i)⟩
  case h_2 i hfind =>
    obtain ⟨hi, hlt, hlast⟩ := last_of_find?_reverse_range hfind
    refine ⟨hlt, fun j hj hj13 => by simpa using hlast j hj hj13, ?_⟩
    rintro j hj
    obtain rfl : j = i := by omega
    simpa using hi

theorem exec_ndec (ra : Reg) (s : State) :
    exec (.ndec ra) s = .next ((s.sbOut (nameDecode (s.reg ra))).respond 0) := rfl

/-- A command that ends in `SBout` of a string that fits completes and replaces the current string only (20_memory.md
R44). -/
theorem onlyText_sbOut_respond {s : State} (hwf : s.sb.wf = true) {t : List Byte} (ht : t.length ≤ 512) :
    OnlyText t s ((s.sbOut t).respond 0) where
  length := State.sbOut_slen_val s t ht
  stored := fun k hk => by rw [State.respond_sb, State.sbOut_read s hwf t ht, dif_pos hk]
  kept := fun a ha => by rw [State.respond_sb, State.sbOut_read s hwf t ht, dif_neg (Nat.not_lt.2 ha)]
  regs := fun _ => rfl
  rest := ⟨rfl, rfl, rfl, rfl, rfl⟩
  rdata := rfl

@[simp] theorem nameDecode_length (v : Word) : (nameDecode v).length = nameLen v := by
  simp [nameDecode]

theorem nameDecode_getElem (v : Word) {i : Nat} (h : i < (nameDecode v).length) :
    (nameDecode v)[i] = nameChr (slot v i) := by
  simp [nameDecode]

/-- Settles O30: NDEC writes the characters of the first `name_len` slots. -/
theorem ndecUnpacks : Obligations.NdecUnpacks := by
  refine ⟨decode_ndec_word, fun ra s hwf => ?_⟩
  obtain ⟨hlen, hzero, hlast⟩ := nameLen_spec (s.reg ra)
  have hlength := nameDecode_length (s.reg ra)
  refine ⟨_, nameDecode (s.reg ra), exec_ndec ra s, onlyText_sbOut_respond hwf (by omega), by omega,
    fun i h => nameDecode_getElem _ h, ?_, ?_⟩
  · rwa [hlength]
  · rwa [hlength]

end Sys2Proof.NameCodec

namespace Sys2Proof.NameScan

open Sys2Proof.Machine
open Sys2Proof.HostAccess
open Sys2Proof.NameCodec

/-! The words of NLEN and NSFX, for every operand: both have two register fields and zeros below them (30_encoding.md
R60, R63). -/

/-- A word with two register fields passes the zero check of its format and hands both registers to its command. -/
theorem requireZero_twoRegister_word {op : Nat} (h : op < 256) (rd ra : Reg) (mk : Reg → Reg → Instr) :
    requireZero (zeroBitsDS (commandWord op rd ra 0 0 0))
      (mk (fieldRd (commandWord op rd ra 0 0 0)) (fieldRa (commandWord op rd ra 0 0 0))) = .ok (mk rd ra) := by
  rw [zeroBitsDS_of_word op h, fieldRd_of_word op h, fieldRa_of_word op h]
  rfl

theorem decode_nlen_word (rd ra : Reg) : decode (commandWord 0x12 rd ra 0 0 0) = .ok (.nlen rd ra) := by
  simp only [decode, fieldOp_of_word 0x12 (by decide)]
  exact requireZero_twoRegister_word (by decide) rd ra .nlen

theorem decode_nsfx_word (rd ra : Reg) : decode (commandWord 0x14 rd ra 0 0 0) = .ok (.nsfx rd ra) := by
  simp only [decode, fieldOp_of_word 0x14 (by decide)]
  exact requireZero_twoRegister_word (by decide) rd ra .nsfx

theorem exec_nlen (rd ra : Reg) (s : State) :
    exec (.nlen rd ra) s = writeResult rd (BitVec.ofNat 64 (nameLen (s.reg ra))) s := rfl

theorem exec_nsfx (rd ra : Reg) (s : State) :
    exec (.nsfx rd ra) s = writeResult rd (nameSuffix Config.suffixLeadingDots (s.reg ra)) s := rfl

/-! The scan quantities: where the first non-dot stands, and which dots are followed, leading, separating (R103,
R102). -/

/-- A search of the positions below `n` from the highest down finds the one that satisfies `p` and has none above. -/
theorem find?_reverse_range_eq_some {p : Nat → Bool} {n i : Nat} (hi : p i = true) (hin : i < n)
    (hlast : ∀ j, i < j → j < n → p j = false) : (List.range n).reverse.find? p = some i := by
  cases hfind : (List.range n).reverse.find? p with
  | none =>
    have hnone : ∀ j, j < n → p j = false := by simpa using hfind
    exact absurd hi (by simp [hnone i hin])
  | some j =>
    obtain ⟨hj, hjn, hjlast⟩ := last_of_find?_reverse_range hfind
    rcases Nat.lt_trichotomy i j with hij | rfl | hji
    · exact absurd hj (by simp [hlast j hij hjn])
    · rfl
    · exact absurd hi (by simp [hjlast i hji hin])

/-- `first_char` is below `i` exactly when a slot below `i` holds a non-dot. -/
theorem firstChar_lt_iff {v : Word} {i : Nat} (hi : i ≤ 13) : firstChar v < i ↔ ∃ j, j < i ∧ slot v j ≠ 0 := by
  unfold firstChar
  cases hfind : (List.range 13).find? (fun i => slot v i != 0) with
  | none =>
    have hzero : ∀ j, j < 13 → slot v j = 0 := by simpa using hfind
    have hnone : ¬∃ j, j < i ∧ slot v j ≠ 0 := fun ⟨j, hj, hne⟩ => hne (hzero j (by omega))
    simpa [hnone] using hi
  | some f =>
    obtain ⟨hf, -, hbefore⟩ := List.find?_range_eq_some.1 hfind
    have hbefore : ∀ j, j < f → slot v j = 0 := by simpa using hbefore
    refine ⟨fun hfi => ⟨f, hfi, by simpa using hf⟩, fun ⟨j, hj, hne⟩ => ?_⟩
    exact Nat.lt_of_le_of_lt (Nat.le_of_not_lt fun hjf => hne (hbefore j hjf)) hj

/-- A dot is followed exactly when it stands before the last character. -/
theorem followedDot_iff {v : Word} {i : Nat} : FollowedDot v i ↔ slot v i = 0 ∧ i + 1 < nameLen v := by
  obtain ⟨hlen, hzero, hlast⟩ := nameLen_spec v
  refine and_congr_right fun _ => ⟨fun ⟨j, hij, hj, hne⟩ => ?_, fun hi => ?_⟩
  · have hjlen : j < nameLen v := Nat.lt_of_not_le fun hle => hne (hzero j hle hj)
    omega
  · exact ⟨nameLen v - 1, by omega, by omega, hlast _ (by omega)⟩

/-- No dot of slot 12 is followed. -/
theorem lt_twelve_of_followedDot {v : Word} {i : Nat} (h : FollowedDot v i) : i < 12 := by
  obtain ⟨-, j, hij, hj, -⟩ := h
  omega

theorem ne_zero_of_followedDot {v : Word} {i : Nat} (h : FollowedDot v i) : v ≠ 0 := by
  rintro rfl
  obtain ⟨-, j, -, -, hne⟩ := h
  exact hne (by simp [slot])

/-- A followed dot is leading exactly when it does not stand behind the first character. -/
theorem not_leadingDot_iff_of_followedDot {v : Word} {i : Nat} (h : FollowedDot v i) :
    ¬LeadingDot v i ↔ firstChar v < i := by
  have hi := lt_twelve_of_followedDot h
  rw [firstChar_lt_iff (by omega), LeadingDot, not_and]
  constructor
  · intro hlead
    obtain ⟨j, hj, hne⟩ : ∃ j, j ≤ i ∧ slot v j ≠ 0 := by simpa using hlead (ne_zero_of_followedDot h)
    exact ⟨j, Nat.lt_of_le_of_ne hj fun hji => hne (hji ▸ h.1), hne⟩
  · rintro ⟨j, hj, hne⟩ - hall
    exact hne (hall j hj.le)

/-- The dots the model cuts at are the separators of R102, under either setting of the parameter. -/
theorem isSeparator_iff {p : SuffixLeadingDots} {v : Word} {i : Nat} : isSeparator p v i = true ↔ Separator p v i := by
  have hdot : isSeparator p v i = true ↔ FollowedDot v i ∧ (firstChar v < i ∨ p = .separate) := by
    simp [isSeparator, followedDot_iff]
  rw [hdot, Separator]
  exact and_congr_right fun hfollowed => by rw [not_leadingDot_iff_of_followedDot hfollowed, or_comm]

/-! The suffix: what NSFX's search finds, and the slots of the value it then builds, bit by bit (R102). -/

/-- R102's last line: the characters after slot `d` moved to the front, the 13th by one bit less than the others. -/
def afterDot (v : Word) (d : Nat) : Word :=
  ((v &&& 0xFFFFFFFFFFFFFFF0) <<< (5 * (d + 1))) ||| ((v &&& 0xF) <<< (5 * (d + 1) - 1))

theorem nameSuffix_of_last {p : SuffixLeadingDots} {v : Word} {d : Nat} (hd : Separator p v d)
    (hlast : ∀ j, d < j → ¬Separator p v j) : nameSuffix p v = afterDot v d := by
  have hfind : (List.range 12).reverse.find? (isSeparator p v) = some d :=
    find?_reverse_range_eq_some (isSeparator_iff.2 hd) (lt_twelve_of_followedDot hd.1) fun j hdj _ =>
      Bool.eq_false_of_not_eq_true (mt isSeparator_iff.1 (hlast j hdj))
  simp only [nameSuffix, hfind, afterDot]

theorem nameSuffix_of_none {p : SuffixLeadingDots} {v : Word} (hnone : ∀ d, ¬Separator p v d) :
    nameSuffix p v = v := by
  have hfind : (List.range 12).reverse.find? (isSeparator p v) = none :=
    List.find?_eq_none.2 fun d _ => mt isSeparator_iff.1 (hnone d)
  simp only [nameSuffix, hfind]

/-- Bit `k` of a 5-bit slot. -/
theorem slot_testBit {v : Word} {i : Nat} (hi : i < 12) (k : Nat) :
    (slot v i).testBit k = (decide (k < 5) && v.getLsbD (59 - 5 * i + k)) := by
  rw [slot, if_pos hi, slotLo, if_pos hi, show 32 = 2 ^ 5 from rfl, Nat.testBit_mod_two_pow, Nat.testBit_div_two_pow,
    BitVec.testBit_toNat, Nat.add_comm]

/-- Bit `k` of the 4-bit 13th slot. -/
theorem slot_twelve_testBit (v : Word) (k : Nat) :
    (slot v 12).testBit k = (decide (k < 4) && v.getLsbD k) := by
  rw [slot, if_neg (by decide), show 16 = 2 ^ 4 from rfl, Nat.testBit_mod_two_pow, BitVec.testBit_toNat]

theorem getLsbD_mask_first_twelve {m : Nat} (hm : m < 64) :
    (0xFFFFFFFFFFFFFFF0 : Word).getLsbD m = decide (4 ≤ m) := by
  revert m
  decide

theorem getLsbD_mask_thirteenth (m : Nat) : (0xF : Word).getLsbD m = decide (m < 4) := by
  rw [← BitVec.testBit_toNat]
  exact Nat.testBit_two_pow_sub_one 4 m

/-- Bit `m` of the suffix: a bit of the slots behind `d`, from bit `5 * d + 9` up; a bit of the 13th character, in the
four places from bit `5 * d + 4` up; or 0. -/
theorem afterDot_getLsbD (v : Word) (d : Nat) {m : Nat} (hm : m < 64) : (afterDot v d).getLsbD m
    = ((decide (5 * d + 9 ≤ m) && v.getLsbD (m - (5 * d + 5)))
      || (decide (5 * d + 4 ≤ m ∧ m < 5 * d + 8) && v.getLsbD (m - (5 * d + 4)))) := by
  have hfirst : ((v &&& 0xFFFFFFFFFFFFFFF0) <<< (5 * (d + 1))).getLsbD m
      = (decide (5 * d + 9 ≤ m) && v.getLsbD (m - (5 * d + 5))) := by
    have hcond : (m < 64 ∧ ¬m < 5 * d + 5) ∧ 4 ≤ m - (5 * d + 5) ↔ 5 * d + 9 ≤ m := by omega
    rw [BitVec.getLsbD_shiftLeft, BitVec.getLsbD_and, getLsbD_mask_first_twelve (by omega), Nat.mul_succ,
      Bool.and_comm (v.getLsbD _), ← Bool.and_assoc]
    simp only [← decide_not, ← Bool.decide_and, hcond]
  have hlast : ((v &&& 0xF) <<< (5 * (d + 1) - 1)).getLsbD m
      = (decide (5 * d + 4 ≤ m ∧ m < 5 * d + 8) && v.getLsbD (m - (5 * d + 4))) := by
    have hcond : (m < 64 ∧ ¬m < 5 * d + 4) ∧ m - (5 * d + 4) < 4 ↔ 5 * d + 4 ≤ m ∧ m < 5 * d + 8 := by omega
    rw [BitVec.getLsbD_shiftLeft, BitVec.getLsbD_and, getLsbD_mask_thirteenth, Nat.mul_succ, Nat.add_succ_sub_one,
      Bool.and_comm (v.getLsbD _), ← Bool.and_assoc]
    simp only [← decide_not, ← Bool.decide_and, hcond]
  rw [afterDot, BitVec.getLsbD_or, hfirst, hlast]

/-- A slot of the suffix that a slot of 5 bits moves to. -/
theorem slot_afterDot_of_lt (v : Word) {d j : Nat} (hj : d + j < 11) : slot (afterDot v d) j = slot v (d + 1 + j) := by
  apply Nat.eq_of_testBit_eq
  intro k
  rw [slot_testBit (by omega), slot_testBit (by omega)]
  by_cases hk : k < 5
  · rw [afterDot_getLsbD v d (by omega)]
    have hbelow : ¬(59 - 5 * j + k < 5 * d + 8) := by omega
    have habove : 5 * d + 9 ≤ 59 - 5 * j + k := by omega
    simp only [hbelow, habove, and_false, decide_true, decide_false, Bool.true_and, Bool.false_and, Bool.or_false]
    rw [show 59 - 5 * j + k - (5 * d + 5) = 59 - 5 * (d + 1 + j) + k by omega]
  · simp [hk]

/-- The slot of the suffix that the 13th character moves to: its fifth bit is 0. -/
theorem slot_afterDot_of_eq (v : Word) {d j : Nat} (hj : d + j = 11) : slot (afterDot v d) j = slot v 12 := by
  apply Nat.eq_of_testBit_eq
  intro k
  rw [slot_testBit (by omega), slot_twelve_testBit]
  by_cases hk : k < 5
  · have hplace : 59 - 5 * j + k = 5 * d + 4 + k := by omega
    have hbelow : ¬(5 * d + 9 ≤ 5 * d + 4 + k) := by omega
    have hwidth : 5 * d + 4 + k < 5 * d + 8 ↔ k < 4 := by omega
    rw [hplace, afterDot_getLsbD v d (by omega)]
    simp [hk, hbelow, hwidth]
  · have hk4 : ¬k < 4 := by omega
    simp [hk, hk4]

/-- The other slots of the suffix, which lie below both parts. -/
theorem slot_afterDot_of_gt (v : Word) {d j : Nat} (hj : 11 < d + j) (hj13 : j < 13) : slot (afterDot v d) j = 0 := by
  have hlow : ∀ m, m < 5 * d + 4 → m < 64 → (afterDot v d).getLsbD m = false := fun m hm hm64 => by
    have hfirst : ¬(5 * d + 9 ≤ m) := by omega
    have hlast : ¬(5 * d + 4 ≤ m) := by omega
    simp [afterDot_getLsbD v d hm64, hfirst, hlast]
  apply Nat.eq_of_testBit_eq
  intro k
  rw [Nat.zero_testBit]
  rcases Nat.lt_or_ge j 12 with hlt | hge
  · rw [slot_testBit hlt, Bool.and_eq_false_imp, decide_eq_true_eq]
    exact fun hk => hlow _ (by omega) (by omega)
  · obtain rfl : j = 12 := by omega
    rw [slot_twelve_testBit, Bool.and_eq_false_imp, decide_eq_true_eq]
    exact fun hk => hlow _ (by omega) (by omega)

/-- The slots of the suffix are those behind the dot, moved to the front, and 0 beyond. -/
theorem slot_afterDot (v : Word) {d j : Nat} (hd : d < 12) (hj : j < 13) :
    slot (afterDot v d) j = if j ≤ 11 - d then slot v (d + 1 + j) else 0 := by
  rcases Nat.lt_trichotomy (d + j) 11 with hlt | heq | hgt
  · rw [if_pos (by omega), slot_afterDot_of_lt v hlt]
  · rw [if_pos (by omega), slot_afterDot_of_eq v heq, show d + 1 + j = 12 by omega]
  · rw [if_neg (by omega), slot_afterDot_of_gt v hgt hj]

/-- Settles O32: NLEN answers `name_len`, which is also the length of the string NDEC writes. -/
theorem nlenCountsToTheLastCharacter : Obligations.NlenCountsToTheLastCharacter := by
  refine ⟨decode_nlen_word, fun rd ra s => ?_⟩
  obtain ⟨hlen, hzero, hlast⟩ := nameLen_spec (s.reg ra)
  obtain ⟨t, hexec, honly⟩ := writeResult_onlyReg s rd (BitVec.ofNat 64 (nameLen (s.reg ra)))
  have hfits : (nameDecode (s.reg ra)).length ≤ 512 := by
    rw [nameDecode_length]
    omega
  have hslen : ((s.sbOut (nameDecode (s.reg ra))).respond 0).slen.val = nameLen (s.reg ra) := by
    rw [State.respond_slen, State.sbOut_slen_val s _ hfits, nameDecode_length]
  exact ⟨t, _, exec_nlen rd ra s ▸ hexec, honly, hlen, hzero, hlast, _, exec_ndec ra s, hslen⟩

/-- Settles O34: the search finds the last separator, and the shifts move the slots behind it to the front; without a
separator it finds nothing. -/
theorem nsfxKeepsWhatFollowsTheLastSeparator : Obligations.NsfxKeepsWhatFollowsTheLastSeparator := by
  refine ⟨decode_nsfx_word, fun p v => ⟨fun d hd hlast j hj => ?_, nameSuffix_of_none⟩,
    fun rd ra s => exec_nsfx rd ra s ▸ writeResult_onlyReg s rd _⟩
  rw [nameSuffix_of_last hd hlast]
  exact slot_afterDot v (lt_twelve_of_followedDot hd.1) hj

end Sys2Proof.NameScan

namespace Sys2Proof.SymbolCode

open Sys2Proof.Machine
open Sys2Proof.HostAccess
open Sys2Proof.NameCodec
open Sys2Proof.NameScan

/-! The words of the four commands, for every operand (30_encoding.md R60, R63), and what each command answers
(43_symbol_code.md R112 to R115). -/

/-- A word whose one operand is a destination passes the zero check of its format and hands it to its command. -/
theorem requireZero_destination_word {op : Nat} (h : op < 256) (rd : Reg) (mk : Reg → Instr) :
    requireZero (zeroBitsD (commandWord op rd 0 0 0 0)) (mk (fieldRd (commandWord op rd 0 0 0 0))) = .ok (mk rd) := by
  rw [zeroBitsD_of_word op h, fieldRd_of_word op h]
  rfl

/-- A word whose one operand is a source passes the zero check of its format and hands it to its command. -/
theorem requireZero_source_word {op : Nat} (h : op < 256) (ra : Reg) (mk : Reg → Instr) :
    requireZero (zeroBitsS (commandWord op 0 ra 0 0 0)) (mk (fieldRa (commandWord op 0 ra 0 0 0))) = .ok (mk ra) := by
  rw [zeroBitsS_of_word op h, fieldRa_of_word op h]
  rfl

theorem decode_scenc_word (rd : Reg) : decode (commandWord 0x20 rd 0 0 0 0) = .ok (.scenc rd) := by
  simp only [decode, fieldOp_of_word 0x20 (by decide)]
  exact requireZero_destination_word (by decide) rd .scenc

theorem decode_scdec_word (ra : Reg) : decode (commandWord 0x21 0 ra 0 0 0) = .ok (.scdec ra) := by
  simp only [decode, fieldOp_of_word 0x21 (by decide)]
  exact requireZero_source_word (by decide) ra .scdec

theorem decode_scvalid_word (rd ra : Reg) : decode (commandWord 0x22 rd ra 0 0 0) = .ok (.scvalid rd ra) := by
  simp only [decode, fieldOp_of_word 0x22 (by decide)]
  exact requireZero_twoRegister_word (by decide) rd ra .scvalid

theorem decode_sclen_word (rd ra : Reg) : decode (commandWord 0x23 rd ra 0 0 0) = .ok (.sclen rd ra) := by
  simp only [decode, fieldOp_of_word 0x23 (by decide)]
  exact requireZero_twoRegister_word (by decide) rd ra .sclen

theorem exec_scenc (rd : Reg) (s : State) :
    exec (.scenc rd) s = orRaise s (scEncode s.sbIn) (fun v => writeResult rd v s) := rfl

theorem exec_scdec (ra : Reg) (s : State) :
    exec (.scdec ra) s = .next ((s.sbOut (scStr (s.reg ra))).respond 0) := rfl

theorem exec_scvalid (rd ra : Reg) (s : State) :
    exec (.scvalid rd ra) s = writeResult rd (boolWord (scValid Config.scValidByte7 (s.reg ra))) s := rfl

theorem exec_sclen (rd ra : Reg) (s : State) :
    exec (.sclen rd ra) s = writeResult rd (BitVec.ofNat 64 (scLen (s.reg ra))) s := rfl

theorem exec_scenc_of_ok {s : State} {v : Word} (rd : Reg) (h : scEncode s.sbIn = .ok v) :
    ∃ t, exec (.scenc rd) s = .next t ∧ OnlyReg rd v s t := by
  rw [exec_scenc, h, orRaise_ok]
  exact writeResult_onlyReg s rd v

theorem exec_scenc_of_error {s : State} {c : FltCode} (rd : Reg) (h : scEncode s.sbIn = .error c) :
    exec (.scenc rd) s = .next (faulted c.number s) := by
  rw [exec_scenc, h]
  exact raise_eq_faulted c s

/-! The bytes of a code, and its upper-case letters (R110). -/

theorem isUpper_iff {b : Byte} : isUpper b = true ↔ Upper b := by
  simp [isUpper, Upper]

theorem ne_zero_of_upper {b : Byte} (h : Upper b) : b ≠ 0 := by
  rintro rfl
  exact absurd h.1 (by decide)

theorem scByte_getLsbD (v : Word) (i k : Nat) : (scByte v i).getLsbD k = (decide (k < 8) && v.getLsbD (8 * i + k)) :=
  BitVec.getLsbD_extractLsb' ..

/-! SCENC's packing (R112). -/

theorem scPack_cons (b : Byte) (t : List Byte) : scPack (b :: t) = (scPack t <<< 8) ||| b.setWidth 64 := rfl

theorem scByte_scPack_cons_zero (b : Byte) (t : List Byte) : scByte (scPack (b :: t)) 0 = b := by
  apply BitVec.eq_of_getLsbD_eq
  intro k hk
  rw [scByte_getLsbD, scPack_cons, BitVec.getLsbD_or, BitVec.getLsbD_shiftLeft, BitVec.getLsbD_setWidth]
  have hk64 : k < 64 := by omega
  simp [hk, hk64]

theorem scByte_scPack_cons_succ (b : Byte) (t : List Byte) {i : Nat} (hi : i + 1 < 8) :
    scByte (scPack (b :: t)) (i + 1) = scByte (scPack t) i := by
  apply BitVec.eq_of_getLsbD_eq
  intro k hk
  have hplace : 8 * (i + 1) + k - 8 = 8 * i + k := by omega
  have hinside : 8 * (i + 1) + k < 64 := by omega
  have habove : ¬8 * (i + 1) + k < 8 := by omega
  have hbyte : b.getLsbD (8 * (i + 1) + k) = false := BitVec.getLsbD_of_ge b _ (Nat.le_of_not_lt habove)
  rw [scByte_getLsbD, scByte_getLsbD, scPack_cons, BitVec.getLsbD_or, BitVec.getLsbD_shiftLeft,
    BitVec.getLsbD_setWidth, hplace, hbyte]
  simp [hinside, habove]

/-- Byte `i` of a packed string is character `i`, and 0 beyond the string. -/
theorem scByte_scPack (t : List Byte) {i : Nat} (hi : i < 8) : scByte (scPack t) i = t.getD i 0 := by
  induction t generalizing i with
  | nil => simp [scPack, scByte]
  | cons b t ih =>
    cases i with
    | zero => exact scByte_scPack_cons_zero b t
    | succ i => rw [scByte_scPack_cons_succ b t hi, ih (by omega), List.getD_cons_succ]

/-! SCENC's scan, position by position (R112). -/

/-- The scan passes over upper-case letters at the first seven positions. -/
theorem scScan_append {t u : List Byte} {i : Nat} (hupper : ∀ b ∈ t, Upper b) (hlen : i + t.length ≤ 7) :
    scScan i (t ++ u) = scScan (i + t.length) u := by
  induction t generalizing i with
  | nil => rfl
  | cons b t ih =>
    rw [List.forall_mem_cons] at hupper
    obtain ⟨hb, ht⟩ := hupper
    rw [List.length_cons] at hlen
    rw [List.cons_append, scScan, if_neg (by omega), if_pos (isUpper_iff.2 hb), ih ht (by omega), List.length_cons,
      Nat.add_assoc, Nat.add_comm 1]

theorem scEncode_of_accepted {t : List Byte} (h : AcceptedCode t) : scEncode t = .ok (scPack t) := by
  obtain ⟨hlen, hupper⟩ := h
  have hscan : scScan 0 t = none := by
    simpa [scScan] using scScan_append (u := []) (i := 0) hupper (by omega)
  rw [scEncode, hscan]

/-- Behind `n` letters, `n` at most 7, the scan goes on with the rest of the string. -/
theorem scScan_zero_eq_drop {t : List Byte} {n : Nat} (hlen : n ≤ t.length) (hn : n ≤ 7)
    (hupper : ∀ j, (h : j < n) → Upper t[j]) : scScan 0 t = scScan n (t.drop n) := by
  have htake : (t.take n).length = n := List.length_take_of_le hlen
  have hletters : ∀ b ∈ t.take n, Upper b := fun b hb => by
    obtain ⟨j, hj, rfl⟩ := List.mem_take_iff_getElem.1 hb
    exact hupper j (by omega)
  have hscan := scScan_append (u := t.drop n) (i := 0) hletters (by omega)
  rwa [List.take_append_drop, htake, Nat.zero_add] at hscan

theorem scEncode_of_not_upper {t : List Byte} {i : Nat} (hlen : i < t.length) (hi : i < 7) (hbad : ¬Upper t[i])
    (hbefore : ∀ j, (h : j < i) → Upper t[j]) : scEncode t = .error .scInvalidChar := by
  have hscan : scScan 0 t = some .scInvalidChar := by
    rw [scScan_zero_eq_drop hlen.le hi.le hbefore, List.drop_eq_getElem_cons hlen, scScan, if_neg (by omega),
      if_neg (mt isUpper_iff.1 hbad)]
  rw [scEncode, hscan]

theorem scEncode_of_eighth {t : List Byte} (hlen : 7 < t.length) (hupper : ∀ j, (h : j < 7) → Upper t[j]) :
    scEncode t = .error .scTooLong := by
  have hscan : scScan 0 t = some .scTooLong := by
    rw [scScan_zero_eq_drop hlen.le le_rfl hupper, List.drop_eq_getElem_cons hlen, scScan, if_pos le_rfl]
  rw [scEncode, hscan]

theorem exec_scenc_of_codeFault {s : State} {c : Byte} (rd : Reg) (h : CodeFault s.sbIn c) :
    exec (.scenc rd) s = .next (faulted c s) := by
  rcases h with ⟨rfl, i, hlen, hi, hbad, hbefore⟩ | ⟨rfl, hlen, hupper⟩
  · exact exec_scenc_of_error rd (scEncode_of_not_upper hlen hi hbad hbefore)
  · refine exec_scenc_of_error rd (scEncode_of_eighth hlen fun j hj => ?_)
    have hchar := hupper j hj
    rwa [List.getD_eq_getElem _ _ (by omega)] at hchar

/-- A string SCENC does not accept has a first bad byte among the first seven, or seven letters and an eighth byte. -/
theorem accepted_or_codeFault (t : List Byte) : AcceptedCode t ∨ ∃ c, CodeFault t c := by
  classical
  by_cases hbad : ∃ i, ∃ h : i < t.length, i < 7 ∧ ¬Upper t[i]
  · obtain ⟨hlen, hi, hnot⟩ := Nat.find_spec hbad
    refine .inr ⟨0x21, .inl ⟨rfl, Nat.find hbad, hlen, hi, hnot, fun j hj => ?_⟩⟩
    exact not_not.1 fun hj' => Nat.find_min hbad hj ⟨by omega, by omega, hj'⟩
  · have hupper : ∀ i, (h : i < t.length) → i < 7 → Upper t[i] := fun i h hi =>
      not_not.1 fun hnot => hbad ⟨i, h, hi, hnot⟩
    rcases Nat.lt_or_ge 7 t.length with hlong | hshort
    · refine .inr ⟨0x20, .inr ⟨rfl, hlong, fun j hj => ?_⟩⟩
      rw [List.getD_eq_getElem _ _ (by omega)]
      exact hupper j (by omega) hj
    · refine .inl ⟨hshort, fun b hb => ?_⟩
      obtain ⟨i, hi, rfl⟩ := List.getElem_of_mem hb
      exact hupper i hi (by omega)

/-- Settles O36: the scan passes over letters to the end, to the first other byte, or to the eighth position; what it
accepts is packed with character `i` in byte `i`. -/
theorem scencPacksOrFaults : Obligations.ScencPacksOrFaults := by
  refine ⟨decode_scenc_word, fun rd s => ⟨fun haccepted => ?_, fun c => exec_scenc_of_codeFault rd,
    accepted_or_codeFault s.sbIn⟩⟩
  obtain ⟨t, hexec, honly⟩ := exec_scenc_of_ok rd (scEncode_of_accepted haccepted)
  exact ⟨t, _, hexec, honly, fun i hi => scByte_scPack s.sbIn hi⟩

/-! The length of a code, and its string (R111). -/

/-- `sc_len` counts to the first zero byte, or to seven. -/
theorem scLen_spec (v : Word) :
    scLen v ≤ 7 ∧ (∀ i, i < scLen v → scByte v i ≠ 0) ∧ (scLen v < 7 → scByte v (scLen v) = 0) := by
  unfold scLen
  cases hfind : (List.range 7).find? (fun i => scByte v i == 0) with
  | none =>
    have hnone : ∀ i, i < 7 → scByte v i ≠ 0 := by simpa using hfind
    exact ⟨le_rfl, hnone, fun h => absurd h (lt_irrefl 7)⟩
  | some n =>
    obtain ⟨hzero, hlt, hbefore⟩ := List.find?_range_eq_some.1 hfind
    exact ⟨(List.mem_range.1 hlt).le, fun i hi => by simpa using hbefore i hi, fun _ => by simpa using hzero⟩

/-- A number with the properties of `sc_len` is `sc_len`. -/
theorem scLen_eq_of_leading {v : Word} {n : Nat} (hn : n ≤ 7) (hnonzero : ∀ i, i < n → scByte v i ≠ 0)
    (hend : n < 7 → scByte v n = 0) : scLen v = n := by
  obtain ⟨hlen, hleading, hzero⟩ := scLen_spec v
  rcases Nat.lt_trichotomy (scLen v) n with hlt | heq | hgt
  · exact absurd (hzero (by omega)) (hnonzero _ hlt)
  · exact heq
  · exact absurd (hend (by omega)) (hleading _ hgt)

@[simp] theorem scStr_length (v : Word) : (scStr v).length = scLen v := by
  simp [scStr]

theorem scStr_getElem (v : Word) {i : Nat} (h : i < (scStr v).length) : (scStr v)[i] = scByte v i := by
  simp [scStr]

theorem codeString_scStr (v : Word) : CodeString v (scStr v) := by
  obtain ⟨hlen, hleading, hzero⟩ := scLen_spec v
  have hlength := scStr_length v
  refine ⟨hlength ▸ hlen, fun i hi => ⟨scStr_getElem v hi, ?_⟩, ?_⟩
  · rw [scStr_getElem v hi]
    exact hleading i (hlength ▸ hi)
  · rwa [hlength]

/-- Settles O37: SCDEC ends in `SBout` of the code's string, of at most seven bytes. -/
theorem scdecUnpacks : Obligations.ScdecUnpacks := by
  refine ⟨decode_scdec_word, fun ra s hwf => ?_⟩
  have hcode := codeString_scStr (s.reg ra)
  exact ⟨_, _, exec_scdec ra s, onlyText_sbOut_respond hwf (hcode.1.trans (by decide)), hcode⟩

/-- Settles O39: SCLEN is a register result, the length of the string SCDEC writes. -/
theorem sclenCounts : Obligations.SclenCounts := by
  refine ⟨decode_sclen_word, fun rd ra s => ?_⟩
  obtain ⟨t, hexec, honly⟩ := writeResult_onlyReg s rd (BitVec.ofNat 64 (scLen (s.reg ra)))
  exact ⟨t, scStr (s.reg ra), exec_sclen rd ra s ▸ hexec, codeString_scStr _, scStr_length (s.reg ra) ▸ honly⟩

/-! Valid codes (R114). -/

/-- `sc_valid` in terms of the bytes: letters up to `sc_len`, zeros behind. -/
theorem scValid_eq_true_iff {p : ScValidByte7} {v : Word} : scValid p v = true ↔
    1 ≤ scLen v ∧ (∀ i, i < scLen v → Upper (scByte v i)) ∧ (∀ i, i < 7 → i < scLen v ∨ scByte v i = 0)
      ∧ (scByte v 7 = 0 ∨ p = .skip) := by
  simp [scValid, isUpper_iff, and_assoc]

/-- The number of letters of a valid code is its `sc_len`: letters are no zero bytes, and a zero byte follows them. -/
theorem scValid_iff_validCode {p : ScValidByte7} {v : Word} : scValid p v = true ↔ ValidCode p v := by
  rw [scValid_eq_true_iff]
  constructor
  · rintro ⟨hpos, hletters, hzeros, hbyte7⟩
    obtain ⟨hlen, -, -⟩ := scLen_spec v
    exact ⟨scLen v, hpos, hlen, hletters, fun i hni hi => (hzeros i hi).resolve_left hni.not_gt, hbyte7.symm⟩
  · rintro ⟨n, hpos, hn, hletters, hzeros, hbyte7⟩
    have hlen : scLen v = n :=
      scLen_eq_of_leading hn (fun i hi => ne_zero_of_upper (hletters i hi)) (hzeros n le_rfl)
    rw [hlen]
    exact ⟨hpos, hletters, fun i hi => (Nat.lt_or_ge i n).imp_right fun hni => hzeros i hni hi, hbyte7.symm⟩

/-- Settles O38: the function decides the valid codes under either setting; SCVALID writes its answer under the
unit's. -/
theorem scvalidDecides : Obligations.ScvalidDecides := by
  refine ⟨decode_scvalid_word, fun _ _ => scValid_iff_validCode, fun rd ra s => ?_⟩
  obtain ⟨t, hexec, honly⟩ := writeResult_onlyReg s rd (boolWord (scValid Config.scValidByte7 (s.reg ra)))
  refine ⟨t, _, exec_scvalid rd ra s ▸ hexec, honly, fun hvalid => ?_, fun hinvalid => ?_⟩
  · rw [scValid_iff_validCode.2 hvalid, boolWord, if_pos rfl]
  · rw [boolWord, if_neg (mt scValid_iff_validCode.1 hinvalid)]

end Sys2Proof.SymbolCode

namespace Sys2Proof.SymbolUnit

open Sys2Proof.Machine
open Sys2Proof.HostAccess
open Sys2Proof.NameCodec
open Sys2Proof.NameScan
open Sys2Proof.SymbolCode

/-! The words of the five commands, for every operand (30_encoding.md R60, R63), and what each command answers
(44_symbol.md R122 to R126). -/

theorem decode_sycode_word (rd ra : Reg) : decode (commandWord 0x29 rd ra 0 0 0) = .ok (.sycode rd ra) := by
  simp only [decode, fieldOp_of_word 0x29 (by decide)]
  exact requireZero_twoRegister_word (by decide) rd ra .sycode

theorem decode_syprec_word (rd ra : Reg) : decode (commandWord 0x2A rd ra 0 0 0) = .ok (.syprec rd ra) := by
  simp only [decode, fieldOp_of_word 0x2A (by decide)]
  exact requireZero_twoRegister_word (by decide) rd ra .syprec

theorem decode_syvalid_word (rd ra : Reg) : decode (commandWord 0x2B rd ra 0 0 0) = .ok (.syvalid rd ra) := by
  simp only [decode, fieldOp_of_word 0x2B (by decide)]
  exact requireZero_twoRegister_word (by decide) rd ra .syvalid

theorem decode_syfmt_word (ra : Reg) : decode (commandWord 0x2C 0 ra 0 0 0) = .ok (.syfmt ra) := by
  simp only [decode, fieldOp_of_word 0x2C (by decide)]
  exact requireZero_source_word (by decide) ra .syfmt

theorem decode_syparse_word (rd : Reg) : decode (commandWord 0x2D rd 0 0 0 0) = .ok (.syparse rd) := by
  simp only [decode, fieldOp_of_word 0x2D (by decide)]
  exact requireZero_destination_word (by decide) rd .syparse

theorem exec_sycode (rd ra : Reg) (s : State) : exec (.sycode rd ra) s = writeResult rd (symbolCode (s.reg ra)) s := rfl

theorem exec_syprec (rd ra : Reg) (s : State) :
    exec (.syprec rd ra) s = writeResult rd (zext64 (symbolPrecision (s.reg ra))) s := rfl

theorem exec_syvalid (rd ra : Reg) (s : State) :
    exec (.syvalid rd ra) s = writeResult rd (boolWord (symbolValid (s.reg ra))) s := rfl

theorem exec_syfmt (ra : Reg) (s : State) :
    exec (.syfmt ra) s = .next ((s.sbOut (symbolText (s.reg ra))).respond 0) := rfl

theorem exec_syparse (rd : Reg) (s : State) :
    exec (.syparse rd) s = orRaise s (symbolParse s.sbIn) (fun v => writeResult rd v s) := rfl

theorem exec_syparse_of_ok {s : State} {v : Word} (rd : Reg) (h : symbolParse s.sbIn = .ok v) :
    ∃ t, exec (.syparse rd) s = .next t ∧ OnlyReg rd v s t := by
  rw [exec_syparse, h, orRaise_ok]
  exact writeResult_onlyReg s rd v

theorem exec_syparse_of_error {s : State} {c : FltCode} (rd : Reg) (h : symbolParse s.sbIn = .error c) :
    exec (.syparse rd) s = .next (faulted c.number s) := by
  rw [exec_syparse, h]
  exact raise_eq_faulted c s

/-! The two parts of a Symbol, in terms of its bytes: byte 0 is the precision, byte `i + 1` is byte `i` of the code
(R120). -/

theorem symbolPrecision_toNat (v : Word) : (symbolPrecision v).toNat = v.toNat % 256 :=
  BitVec.toNat_setWidth 8 v

theorem symbolPrecision_eq_scByte_zero (v : Word) : symbolPrecision v = scByte v 0 := by
  apply BitVec.eq_of_toNat_eq
  rw [symbolPrecision_toNat, scByte, BitVec.extractLsb'_toNat, Nat.mul_zero, Nat.shiftRight_zero]

theorem scByte_symbolCode (v : Word) (i : Nat) : scByte (symbolCode v) i = scByte v (i + 1) := by
  apply BitVec.eq_of_getLsbD_eq
  intro k _
  rw [scByte_getLsbD, scByte_getLsbD, symbolCode, BitVec.getLsbD_ushiftRight, Nat.mul_succ, Nat.add_comm (8 * i) 8,
    Nat.add_assoc]

theorem symbolCode_byte_seven (v : Word) : scByte (symbolCode v) 7 = 0 := by
  apply BitVec.eq_of_getLsbD_eq
  intro k _
  rw [scByte_symbolCode, scByte_getLsbD, BitVec.getLsbD_of_ge v _ (by omega), Bool.and_false]
  exact BitVec.getLsbD_zero.symm

theorem symbolCode_low (v : Word) : (symbolCode v).extractLsb' 0 56 = v.extractLsb' 8 56 := by
  apply BitVec.eq_of_getLsbD_eq
  intro k _
  rw [BitVec.getLsbD_extractLsb', BitVec.getLsbD_extractLsb', symbolCode, BitVec.getLsbD_ushiftRight, Nat.zero_add]

/-- Settles O42: SYCODE is a register result, the Symbol shifted right by a byte. -/
theorem sycodeExtracts : Obligations.SycodeExtracts := by
  refine ⟨decode_sycode_word, fun rd ra s => ?_⟩
  obtain ⟨t, hexec, honly⟩ := writeResult_onlyReg s rd (symbolCode (s.reg ra))
  exact ⟨t, _, exec_sycode rd ra s ▸ hexec, honly, symbolCode_low _, symbolCode_byte_seven _⟩

/-- Settles O43: SYPREC is a register result, the Symbol's low byte zero-extended. -/
theorem syprecExtracts : Obligations.SyprecExtracts := by
  refine ⟨decode_syprec_word, fun rd ra s => ?_⟩
  obtain ⟨t, hexec, honly⟩ := writeResult_onlyReg s rd (zext64 (symbolPrecision (s.reg ra)))
  refine ⟨t, _, exec_syprec rd ra s ▸ hexec, honly, ?_⟩
  rw [zext64, BitVec.toNat_setWidth_of_le (by decide), symbolPrecision_toNat]

/-! Valid Symbols (R124). -/

/-- Byte 7 of a Symbol's code is 0, so that both settings of `P_SC_VALID_BYTE7` agree on it. -/
theorem validCode_symbolCode_iff (p q : ScValidByte7) (v : Word) :
    ValidCode p (symbolCode v) ↔ ValidCode q (symbolCode v) := by
  have hbyte7 : (symbolCode v).extractLsb' 56 8 = 0 := symbolCode_byte_seven v
  simp only [ValidCode, hbyte7, or_true]

theorem symbolValid_iff (p : ScValidByte7) (v : Word) : symbolValid v = true ↔ ValidCode p (symbolCode v) :=
  scValid_iff_validCode.trans (validCode_symbolCode_iff _ p v)

/-- Settles O44: SYVALID answers for the code under the unit's setting, which agrees with the other one. -/
theorem syvalidDecides : Obligations.SyvalidDecides := by
  refine ⟨decode_syvalid_word, validCode_symbolCode_iff .check .skip, fun rd ra s => ?_⟩
  obtain ⟨t, hexec, honly⟩ := writeResult_onlyReg s rd (boolWord (symbolValid (s.reg ra)))
  refine ⟨t, _, exec_syvalid rd ra s ▸ hexec, honly, fun hvalid => ?_, fun hinvalid => ?_⟩
  · rw [(symbolValid_iff .check _).2 hvalid, boolWord, if_pos rfl]
  · rw [boolWord, if_neg (mt (symbolValid_iff .check _).1 hinvalid)]

/-! Decimal strings (00_scope.md R15). -/

theorem isDigits_iff {t : List Byte} : isDigits t = true ↔ Digits t := by
  simp [isDigits, isDigit, Digits]

theorem decVal_concat (t : List Byte) (b : Byte) : decVal (t ++ [b]) = decVal t * 10 + (b.toNat - 0x30) := by
  rw [decVal, List.foldl_append]
  rfl

theorem decVal_singleton (b : Byte) : decVal [b] = b.toNat - 0x30 := by
  rw [← List.nil_append [b], decVal_concat]
  exact Nat.zero_add _

theorem digitChr_toNat {k : Nat} (hk : k < 10) : (digitChr k).toNat = 0x30 + k := by
  rw [digitChr, BitVec.toNat_ofNat]
  omega

theorem digits_singleton_digitChr {k : Nat} (hk : k < 10) : Digits [digitChr k] := by
  refine ⟨List.cons_ne_nil _ _, fun b hb => ?_⟩
  rw [List.mem_singleton.1 hb, digitChr_toNat hk]
  omega

theorem decimalOf_singleton_digitChr {k : Nat} (hk : k < 10) : DecimalOf [digitChr k] k := by
  refine ⟨digits_singleton_digitChr hk, ?_, fun hhead => ?_⟩
  · rw [decVal_singleton, digitChr_toNat hk, Nat.add_sub_cancel_left]
  · rw [Option.some.inj hhead]

/-- A digit put behind the decimal string of a positive number: no leading zero can arise. -/
theorem decimalOf_concat_digitChr {d : List Byte} {m k : Nat} (hd : DecimalOf d m) (hm : 0 < m) (hk : k < 10) :
    DecimalOf (d ++ [digitChr k]) (m * 10 + k) := by
  obtain ⟨⟨hne, hdigits⟩, hval, hzero⟩ := hd
  refine ⟨⟨List.append_ne_nil_of_left_ne_nil hne _, fun b hb => ?_⟩, ?_, fun hhead => ?_⟩
  · exact (List.mem_append.1 hb).elim (hdigits b) ((digits_singleton_digitChr hk).2 b)
  · rw [decVal_concat, hval, digitChr_toNat hk, Nat.add_sub_cancel_left]
  · rw [List.head?_append_of_ne_nil d hne] at hhead
    rw [hzero hhead] at hval
    exact absurd hval hm.ne

/-- With fuel for all binary digits of `n`, the loop puts the decimal string of `n` in front. -/
theorem decGo_spec {fuel n : Nat} (acc : List Byte) (hpos : 0 < fuel) (hfuel : n < 2 ^ fuel) :
    ∃ d, decGo fuel n acc = d ++ acc ∧ DecimalOf d n := by
  induction fuel generalizing n acc with
  | zero => exact absurd hpos (lt_irrefl 0)
  | succ fuel ih =>
    rw [decGo]
    have hdigit : n % 10 < 10 := Nat.mod_lt n (by decide)
    split_ifs with hlast
    · refine ⟨[digitChr (n % 10)], rfl, ?_⟩
      rw [show n % 10 = n by omega] at hdigit ⊢
      exact decimalOf_singleton_digitChr hdigit
    · have hrest : n / 10 < 2 ^ fuel := by omega
      have hfuel' : 0 < fuel := Nat.pos_of_ne_zero fun h => hlast (by simpa [h] using hrest)
      obtain ⟨d, hgo, hd⟩ := ih (digitChr (n % 10) :: acc) hfuel' hrest
      refine ⟨d ++ [digitChr (n % 10)], by rw [hgo, List.append_assoc, List.singleton_append], ?_⟩
      have hconcat := decimalOf_concat_digitChr hd (Nat.pos_of_ne_zero hlast) hdigit
      rwa [Nat.div_add_mod'] at hconcat

theorem decimalOf_dec (n : Nat) : DecimalOf (dec n) n := by
  obtain ⟨d, hgo, hd⟩ := decGo_spec (n := n) [] (Nat.succ_pos _) Nat.lt_log2_self
  rwa [dec, hgo, List.append_nil]

theorem leading_digit_le_decVal (b : Byte) (t : List Byte) : (b.toNat - 0x30) * 10 ^ t.length ≤ decVal (b :: t) := by
  induction t using List.reverseRecOn with
  | nil => rw [decVal_singleton, List.length_nil, pow_zero, mul_one]
  | append_singleton t c ih =>
    rw [← List.cons_append, decVal_concat, List.length_append, List.length_singleton, pow_succ, ← mul_assoc]
    exact (Nat.mul_le_mul_right 10 ih).trans (Nat.le_add_right _ _)

/-- A decimal string is no longer than its value needs: its leading digit is not 0, unless it is the only one. -/
theorem length_le_of_decimalOf {d : List Byte} {n k : Nat} (hd : DecimalOf d n) (hk : 0 < k) (hn : n < 10 ^ k) :
    d.length ≤ k := by
  obtain ⟨⟨hne, hdigits⟩, hval, hzero⟩ := hd
  obtain ⟨b, t, rfl⟩ := List.exists_cons_of_ne_nil hne
  by_cases hb : b = 0x30
  · rw [hzero (congrArg some hb)]
    exact hk
  · have hb' : b.toNat ≠ 0x30 := fun h => hb (BitVec.eq_of_toNat_eq h)
    have hlow := (hdigits b List.mem_cons_self).1
    have hle : 10 ^ t.length ≤ n := calc
      10 ^ t.length ≤ (b.toNat - 0x30) * 10 ^ t.length := Nat.le_mul_of_pos_left _ (by omega)
      _ ≤ n := hval ▸ leading_digit_le_decVal b t
    exact (Nat.pow_lt_pow_iff_right (by decide)).1 (hle.trans_lt hn)

/-- Settles O45: SYFMT ends in `SBout` of at most three digits, a comma and at most seven bytes of code. -/
theorem syfmtWritesPrecisionCommaCode : Obligations.SyfmtWritesPrecisionCommaCode := by
  refine ⟨decode_syfmt_word, fun ra s hwf => ?_⟩
  have hprec := decimalOf_dec (symbolPrecision (s.reg ra)).toNat
  have hcode := codeString_scStr (symbolCode (s.reg ra))
  have hdigits := length_le_of_decimalOf hprec (k := 3) (by decide) (by omega)
  have hsome := List.length_pos_iff.2 hprec.1.1
  have hseven := hcode.1
  have hlen : (symbolText (s.reg ra)).length
      = (dec (symbolPrecision (s.reg ra)).toNat).length + ((scStr (symbolCode (s.reg ra))).length + 1) := by
    rw [symbolText, List.length_append, List.length_cons]
  have hfits : (symbolText (s.reg ra)).length ≤ 512 := by omega
  have honly := onlyText_sbOut_respond hwf hfits
  have hslen := honly.length
  refine ⟨_, _, _, exec_syfmt ra s, honly, ?_, hcode, by omega, by omega⟩
  rwa [← symbolPrecision_toNat]

/-! Strings around one separator (R14). -/

theorem countByte_around_sep {sep : Byte} {p c : List Byte} (hp : sep ∉ p) (hc : sep ∉ c) :
    countByte (p ++ sep :: c) sep = 1 := by
  rw [countByte, List.count_append, List.count_cons_self, List.count_eq_zero.2 hp, List.count_eq_zero.2 hc]

theorem before_around_sep {sep : Byte} {p : List Byte} (hp : sep ∉ p) (c : List Byte) :
    before sep (p ++ sep :: c) = p := by
  have hother : ∀ b ∈ p, (b != sep) = true := fun b hb => bne_iff_ne.2 fun h => hp (h ▸ hb)
  rw [before, List.takeWhile_append_of_pos hother, List.takeWhile_cons_of_neg (by simp), List.append_nil]

theorem after_around_sep {sep : Byte} {p : List Byte} (hp : sep ∉ p) (c : List Byte) :
    after sep (p ++ sep :: c) = c := by
  have hother : ∀ b ∈ p, (b != sep) = true := fun b hb => bne_iff_ne.2 fun h => hp (h ▸ hb)
  rw [after, List.dropWhile_append_of_pos hother, List.dropWhile_cons_of_neg (by simp), List.drop_succ_cons,
    List.drop_zero]

/-! SYPARSE, a lemma per case of its rule (R126). -/

theorem scEncode_of_codeFault {t : List Byte} {f : Byte} (h : CodeFault t f) :
    ∃ c : FltCode, scEncode t = .error c ∧ c.number = f := by
  rcases h with ⟨rfl, i, hlen, hi, hbad, hbefore⟩ | ⟨rfl, hlen, hupper⟩
  · exact ⟨_, scEncode_of_not_upper hlen hi hbad hbefore, rfl⟩
  · refine ⟨_, scEncode_of_eighth hlen fun j hj => ?_, rfl⟩
    have hchar := hupper j hj
    rwa [List.getD_eq_getElem _ _ (by omega)] at hchar

/-- A precision byte before a packed code is the packing of that byte and the code's characters. -/
theorem symbolOf_scPack (c : List Byte) {n : Nat} (hn : n ≤ 255) :
    symbolOf (scPack c) (BitVec.ofNat 64 n) = scPack (BitVec.ofNat 8 n :: c) := by
  rw [scPack_cons, BitVec.setWidth_ofNat_of_le_of_lt (by decide) (by omega), symbolOf]

theorem symbolParse_of_count_ne_one {t : List Byte} (h : countByte t chrComma ≠ 1) :
    symbolParse t = .error .symInvalidFormat := by
  rw [symbolParse, if_pos h]

section OneComma

variable {p c : List Byte} (hp : chrComma ∉ p) (hc : chrComma ∉ c)
include hp hc

theorem symbolParse_of_bad_precision (hbad : ¬(Digits p ∧ decVal p ≤ 255)) :
    symbolParse (p ++ chrComma :: c) = .error .symInvalidPrecision := by
  have hcheck : (!isDigits p || decide (255 < decVal p)) = true := by
    rw [← isDigits_iff] at hbad
    simpa [imp_iff_not_or] using hbad
  rw [symbolParse, if_neg (not_not.2 (countByte_around_sep hp hc)), before_around_sep hp, if_pos hcheck]

/-- With a good precision the code part decides. -/
theorem symbolParse_of_precision (hdigits : Digits p) (hbyte : decVal p ≤ 255) :
    symbolParse (p ++ chrComma :: c)
      = (scEncode c).map (fun code => symbolOf code (BitVec.ofNat 64 (decVal p))) := by
  have hcheck : ¬(!isDigits p || decide (255 < decVal p)) = true := by
    simp [isDigits_iff.2 hdigits, hbyte]
  rw [symbolParse, if_neg (not_not.2 (countByte_around_sep hp hc)), before_around_sep hp, if_neg hcheck,
    after_around_sep hp]
  cases scEncode c <;> rfl

theorem symbolParse_of_accepted (hdigits : Digits p) (hbyte : decVal p ≤ 255) (haccepted : AcceptedCode c) :
    symbolParse (p ++ chrComma :: c) = .ok (scPack (BitVec.ofNat 8 (decVal p) :: c)) := by
  rw [symbolParse_of_precision hp hc hdigits hbyte, scEncode_of_accepted haccepted, ← symbolOf_scPack c hbyte]
  rfl

theorem symbolParse_of_codeFault (hdigits : Digits p) (hbyte : decVal p ≤ 255) {f : Byte} (hfault : CodeFault c f) :
    ∃ e : FltCode, symbolParse (p ++ chrComma :: c) = .error e ∧ e.number = f := by
  obtain ⟨e, hencode, hnumber⟩ := scEncode_of_codeFault hfault
  refine ⟨e, ?_, hnumber⟩
  rw [symbolParse_of_precision hp hc hdigits hbyte, hencode]
  rfl

end OneComma

theorem codeValue_symbolCode_scPack (b : Byte) {c : List Byte} (hc : c.length ≤ 7) :
    CodeValue c (symbolCode (scPack (b :: c))) := by
  intro i hi
  rcases Nat.lt_or_ge i 7 with hlt | hge
  · calc scByte (symbolCode (scPack (b :: c))) i
      _ = scByte (scPack (b :: c)) (i + 1) := scByte_symbolCode _ i
      _ = scByte (scPack c) i := scByte_scPack_cons_succ b c (by omega)
      _ = c.getD i 0 := scByte_scPack c hi
  · obtain rfl : i = 7 := by omega
    rw [List.getD_eq_default _ _ hc]
    exact symbolCode_byte_seven _

/-- Settles O46: the rule's cases in its order; an accepted string gives the packing of its precision byte and its
code. -/
theorem syparseParsesOrFaults : Obligations.SyparseParsesOrFaults := by
  refine ⟨decode_syparse_word, fun rd s hcount => exec_syparse_of_error rd (symbolParse_of_count_ne_one hcount),
    fun rd s p c hstring hp hc => ⟨fun hbad => ?_, fun hdigits hbyte => ?_⟩⟩
  · exact exec_syparse_of_error rd (hstring ▸ symbolParse_of_bad_precision hp hc hbad)
  · refine ⟨fun f hfault => ?_, fun haccepted => ?_⟩
    · obtain ⟨e, hparse, rfl⟩ := symbolParse_of_codeFault hp hc hdigits hbyte hfault
      exact exec_syparse_of_error rd (hstring ▸ hparse)
    · obtain ⟨t, hexec, honly⟩ :=
        exec_syparse_of_ok rd (hstring ▸ symbolParse_of_accepted hp hc hdigits hbyte haccepted)
      refine ⟨t, _, hexec, honly, ?_, codeValue_symbolCode_scPack _ haccepted.1⟩
      rw [← symbolPrecision_toNat, symbolPrecision_eq_scByte_zero, scByte_scPack_cons_zero, BitVec.toNat_ofNat]
      exact Nat.mod_eq_of_lt (Nat.lt_succ_of_le hbyte)

end Sys2Proof.SymbolUnit

namespace Sys2Proof.AssetArith

open Sys2Proof.Machine
open Sys2Proof.HostAccess
open Sys2Proof.NameScan
open Sys2Proof.SymbolUnit

/-! The words of the nine commands, for every operand (30_encoding.md R60, R63). -/

/-- A word with all five register fields passes the zero check of its format and hands the registers to its command. -/
theorem requireZero_fiveRegister_word {op : Nat} (h : op < 256) (rd ra rb rc re : Reg)
    (mk : Reg → Reg → Reg → Reg → Reg → Instr) :
    requireZero (zeroBitsA (commandWord op rd ra rb rc re))
      (mk (fieldRd (commandWord op rd ra rb rc re)) (fieldRa (commandWord op rd ra rb rc re))
        (fieldRb (commandWord op rd ra rb rc re)) (fieldRc (commandWord op rd ra rb rc re))
        (fieldRe (commandWord op rd ra rb rc re))) = .ok (mk rd ra rb rc re) := by
  rw [zeroBitsA_of_word op h, fieldRd_of_word op h, fieldRa_of_word op h, fieldRb_of_word op h, fieldRc_of_word op h,
    fieldRe_of_word op h]
  rfl

/-- A word with the registers `rd`, `ra` and `rc` passes the zero check of its format and hands them to its command. -/
theorem requireZero_scalar_word {op : Nat} (h : op < 256) (rd ra rc : Reg) (mk : Reg → Reg → Reg → Instr) :
    requireZero (zeroBitsDSC (commandWord op rd ra 0 rc 0))
      (mk (fieldRd (commandWord op rd ra 0 rc 0)) (fieldRa (commandWord op rd ra 0 rc 0))
        (fieldRc (commandWord op rd ra 0 rc 0))) = .ok (mk rd ra rc) := by
  rw [zeroBitsDSC_of_word op h, fieldRd_of_word op h, fieldRa_of_word op h, fieldRc_of_word op h]
  rfl

theorem decode_arange_word (rd ra : Reg) : decode (commandWord 0x30 rd ra 0 0 0) = .ok (.arange rd ra) := by
  simp only [decode, fieldOp_of_word 0x30 (by decide)]
  exact requireZero_twoRegister_word (by decide) rd ra .arange

theorem decode_avalid_word (rd ra rb : Reg) : decode (commandWord 0x31 rd ra rb 0 0) = .ok (.avalid rd ra rb) := by
  simp only [decode, fieldOp_of_word 0x31 (by decide), zeroBitsDAB_of_word 0x31 (by decide),
    fieldRd_of_word 0x31 (by decide), fieldRa_of_word 0x31 (by decide), fieldRb_of_word 0x31 (by decide), requireZero,
    if_true]

theorem decode_aadd_word (rd ra rb rc re : Reg) :
    decode (commandWord 0x32 rd ra rb rc re) = .ok (.aadd rd ra rb rc re) := by
  simp only [decode, fieldOp_of_word 0x32 (by decide)]
  exact requireZero_fiveRegister_word (by decide) rd ra rb rc re .aadd

theorem decode_asub_word (rd ra rb rc re : Reg) :
    decode (commandWord 0x33 rd ra rb rc re) = .ok (.asub rd ra rb rc re) := by
  simp only [decode, fieldOp_of_word 0x33 (by decide)]
  exact requireZero_fiveRegister_word (by decide) rd ra rb rc re .asub

theorem decode_amul_word (rd ra rc : Reg) : decode (commandWord 0x34 rd ra 0 rc 0) = .ok (.amul rd ra rc) := by
  simp only [decode, fieldOp_of_word 0x34 (by decide)]
  exact requireZero_scalar_word (by decide) rd ra rc .amul

theorem decode_adiv_word (rd ra rc : Reg) : decode (commandWord 0x35 rd ra 0 rc 0) = .ok (.adiv rd ra rc) := by
  simp only [decode, fieldOp_of_word 0x35 (by decide)]
  exact requireZero_scalar_word (by decide) rd ra rc .adiv

theorem decode_adiva_word (rd ra rb rc re : Reg) :
    decode (commandWord 0x36 rd ra rb rc re) = .ok (.adiva rd ra rb rc re) := by
  simp only [decode, fieldOp_of_word 0x36 (by decide)]
  exact requireZero_fiveRegister_word (by decide) rd ra rb rc re .adiva

theorem decode_acmp_word (rd ra rb rc re : Reg) :
    decode (commandWord 0x37 rd ra rb rc re) = .ok (.acmp rd ra rb rc re) := by
  simp only [decode, fieldOp_of_word 0x37 (by decide)]
  exact requireZero_fiveRegister_word (by decide) rd ra rb rc re .acmp

theorem decode_aneg_word (rd ra : Reg) : decode (commandWord 0x38 rd ra 0 0 0) = .ok (.aneg rd ra) := by
  simp only [decode, fieldOp_of_word 0x38 (by decide)]
  exact requireZero_twoRegister_word (by decide) rd ra .aneg

/-! What each command answers (45_asset_arith.md R131 to R139). -/

theorem exec_arange (rd ra : Reg) (s : State) :
    exec (.arange rd ra) s = writeResult rd (boolWord (amountInRange (s.amount ra))) s := rfl

theorem exec_avalid (rd ra rb : Reg) (s : State) :
    exec (.avalid rd ra rb) s
      = writeResult rd (boolWord (amountInRange (s.amount ra) && symbolValid (s.reg rb))) s := rfl

theorem exec_aadd (rd ra rb rc re : Reg) (s : State) :
    exec (.aadd rd ra rb rc re) s
      = orRaise s (sameSymbol (s.asset ra rb) (s.asset rc re) .assetAddSymbolMismatch
          (checkedAmount (s.amount ra + s.amount rc))) (fun v => writeResult rd v s) := rfl

theorem exec_asub (rd ra rb rc re : Reg) (s : State) :
    exec (.asub rd ra rb rc re) s
      = orRaise s (sameSymbol (s.asset ra rb) (s.asset rc re) .assetSubSymbolMismatch
          (checkedAmount (s.amount ra - s.amount rc))) (fun v => writeResult rd v s) := rfl

theorem exec_amul (rd ra rc : Reg) (s : State) :
    exec (.amul rd ra rc) s
      = orRaise s (checkedAmount (s.amount ra * s.amount rc)) (fun v => writeResult rd v s) := rfl

theorem exec_adiv (rd ra rc : Reg) (s : State) :
    exec (.adiv rd ra rc) s
      = orRaise s (checkedDiv (s.amount ra) (s.amount rc)) (fun v => writeResult rd v s) := rfl

theorem exec_adiva (rd ra rb rc re : Reg) (s : State) :
    exec (.adiva rd ra rb rc re) s
      = orRaise s (sameSymbol (s.asset ra rb) (s.asset rc re) .assetDivSymbolMismatch
          (checkedDiv (s.amount ra) (s.amount rc))) (fun v => writeResult rd v s) := rfl

theorem exec_acmp (rd ra rb rc re : Reg) (s : State) :
    exec (.acmp rd ra rb rc re) s
      = orRaise s (sameSymbol (s.asset ra rb) (s.asset rc re) .assetCmpSymbolMismatch
          (.ok (cmpWord (s.amount ra) (s.amount rc)))) (fun v => writeResult rd v s) := rfl

theorem exec_aneg_of_min {ra : Reg} {s : State} (rd : Reg) (h : s.amount ra = -2 ^ 63) :
    exec (.aneg rd ra) s = .next (faulted 0x38 s) :=
  (if_pos h).trans (raise_eq_faulted .assetNegOverflow s)

theorem exec_aneg_of_not_min {ra : Reg} {s : State} (rd : Reg) (h : s.amount ra ≠ -2 ^ 63) :
    exec (.aneg rd ra) s = writeResult rd (u64 (-s.amount ra)) s :=
  if_neg h

/-! A command that computes a value or a fault, and the check of two Assets' Symbols before it (R130). -/

section Computed

variable {i : Instr} {rd : Reg} {s : State} {r : Except FltCode Word}

theorem exec_of_computed_ok {v : Word} (hexec : exec i s = orRaise s r (fun v => writeResult rd v s)) (hr : r = .ok v) :
    ∃ t, exec i s = .next t ∧ OnlyReg rd v s t := by
  rw [hexec, hr, orRaise_ok]
  exact writeResult_onlyReg s rd v

theorem exec_of_computed_error {c : FltCode} (hexec : exec i s = orRaise s r (fun v => writeResult rd v s))
    (hr : r = .error c) : exec i s = .next (faulted c.number s) := by
  rw [hexec, hr]
  exact raise_eq_faulted c s

variable {ra rb rc re : Reg} {c : FltCode}
  (hexec : exec i s = orRaise s (sameSymbol (s.asset ra rb) (s.asset rc re) c r) (fun v => writeResult rd v s))
include hexec

theorem exec_of_symbol_ne (hne : s.reg rb ≠ s.reg re) : exec i s = .next (faulted c.number s) :=
  exec_of_computed_error hexec (if_pos hne)

theorem exec_of_symbol_eq (heq : s.reg rb = s.reg re) : exec i s = orRaise s r (fun v => writeResult rd v s) := by
  have hsame : sameSymbol (s.asset ra rb) (s.asset rc re) c r = r := if_neg (not_not.2 heq)
  rw [hexec, hsame]

end Computed

/-! Amounts as integers (R130, 00_scope.md R12), and the range of an Asset's amount (R131). -/

theorem amount_eq_toInt (s : State) (r : Reg) : s.amount r = (s.reg r).toInt := s64_eq_toInt _

theorem amount_bounds (s : State) (r : Reg) : -2 ^ 63 ≤ s.amount r ∧ s.amount r < 2 ^ 63 := s64_bounds _

theorem u64_toInt {n : Int} (hlo : -2 ^ 63 ≤ n) (hhi : n < 2 ^ 63) : (u64 n).toInt = n :=
  (s64_eq_toInt _).symm.trans (s64_u64 n hlo hhi)

theorem maxAmount_eq : Config.maxAmount = 2 ^ 62 - 1 := rfl

theorem amountInRange_iff_natAbs {a : Int} : amountInRange a = true ↔ a.natAbs ≤ 2 ^ 62 - 1 := by
  rw [amountInRange, decide_eq_true_iff, maxAmount_eq]
  omega

theorem amountInRange_iff {a : Int} : amountInRange a = true ↔ -(2 ^ 62 - 1) ≤ a ∧ a ≤ 2 ^ 62 - 1 := by
  rw [amountInRange_iff_natAbs]
  omega

/-- Settles O48: ARANGE is a register result, the answer of the range check. -/
theorem arangeDecides : Obligations.ArangeDecides := by
  refine ⟨decode_arange_word, fun rd ra s => ?_⟩
  obtain ⟨t, hexec, honly⟩ := writeResult_onlyReg s rd (boolWord (amountInRange (s.amount ra)))
  refine ⟨t, _, exec_arange rd ra s ▸ hexec, honly, ?_⟩
  rw [← amount_eq_toInt]
  exact if_congr amountInRange_iff rfl rfl

/-- Settles O49: AVALID is a register result, the range check and the check of the Symbol's code together. -/
theorem avalidDecides : Obligations.AvalidDecides := by
  refine ⟨decode_avalid_word, fun rd ra rb s => ?_⟩
  obtain ⟨t, hexec, honly⟩ :=
    writeResult_onlyReg s rd (boolWord (amountInRange (s.amount ra) && symbolValid (s.reg rb)))
  have hboth : (amountInRange (s.amount ra) && symbolValid (s.reg rb)) = true
      ↔ (s.reg ra).toInt.natAbs ≤ 2 ^ 62 - 1 ∧ ValidCode .check (s.reg rb >>> 8) := by
    rw [Bool.and_eq_true, amountInRange_iff_natAbs, symbolValid_iff .check, amount_eq_toInt, symbolCode]
  refine ⟨t, _, exec_avalid rd ra rb s ▸ hexec, honly, fun hrange hvalid => ?_, fun hnot => ?_⟩
  · exact if_pos (hboth.2 ⟨hrange, hvalid⟩)
  · exact if_neg (mt hboth.1 hnot)

/-! The range check of a result (R140). -/

theorem checkedAmount_of_gt {r : Int} (h : 2 ^ 62 - 1 < r) : checkedAmount r = .error .assetOverflow := if_pos h

theorem checkedAmount_of_lt {r : Int} (h : r < -(2 ^ 62 - 1)) : checkedAmount r = .error .assetUnderflow := by
  rw [checkedAmount, maxAmount_eq, if_neg (by omega), if_pos h]

theorem checkedAmount_of_inRange {r : Int} (hlo : -(2 ^ 62 - 1) ≤ r) (hhi : r ≤ 2 ^ 62 - 1) :
    checkedAmount r = .ok (u64 r) := by
  rw [checkedAmount, maxAmount_eq, if_neg (not_lt.2 hhi), if_neg (not_lt.2 hlo)]

/-- A result that passed the range check fits in a register as it is. -/
theorem deliversChecked_of_exec {i : Instr} {rd : Reg} {r : Int} {s : State}
    (hexec : exec i s = orRaise s (checkedAmount r) (fun v => writeResult rd v s)) : DeliversChecked i rd r s := by
  refine ⟨fun hgt => exec_of_computed_error hexec (checkedAmount_of_gt hgt),
    fun hlt => exec_of_computed_error hexec (checkedAmount_of_lt hlt), fun hlo hhi => ?_⟩
  obtain ⟨t, hnext, honly⟩ := exec_of_computed_ok hexec (checkedAmount_of_inRange hlo hhi)
  exact ⟨t, _, hnext, honly, u64_toInt (by omega) (by omega)⟩

/-- Settles O50: the Symbols are compared first, then the exact sum is range-checked. -/
theorem aaddAddsExactly : Obligations.AaddAddsExactly := by
  refine ⟨decode_aadd_word, fun rd ra rb rc re s => ?_⟩
  rw [← amount_eq_toInt, ← amount_eq_toInt]
  exact ⟨exec_of_symbol_ne (exec_aadd rd ra rb rc re s),
    fun heq => deliversChecked_of_exec (exec_of_symbol_eq (exec_aadd rd ra rb rc re s) heq)⟩

/-- Settles O51: the Symbols are compared first, then the exact difference is range-checked. -/
theorem asubSubtractsExactly : Obligations.AsubSubtractsExactly := by
  refine ⟨decode_asub_word, fun rd ra rb rc re s => ?_⟩
  rw [← amount_eq_toInt, ← amount_eq_toInt]
  exact ⟨exec_of_symbol_ne (exec_asub rd ra rb rc re s),
    fun heq => deliversChecked_of_exec (exec_of_symbol_eq (exec_asub rd ra rb rc re s) heq)⟩

/-- Settles O52: the exact product is range-checked; no Symbol is compared. -/
theorem amulMultipliesExactly : Obligations.AmulMultipliesExactly := by
  refine ⟨decode_amul_word, fun rd ra rc s => ?_⟩
  rw [← amount_eq_toInt, ← amount_eq_toInt]
  exact deliversChecked_of_exec (exec_amul rd ra rc s)

/-! The quotient rounded toward zero (00_scope.md R16), and where it fits (R136). -/

/-- The signs of two natural numbers do not change their quotient: a sign that is 0 belongs to a quotient that is 0. -/
theorem truncDiv_natCast (a b : Nat) : truncDiv a b = ((a / b : Nat) : Int) := by
  rcases Nat.eq_zero_or_pos a with rfl | ha
  · simp [truncDiv]
  rcases Nat.eq_zero_or_pos b with rfl | hb
  · simp [truncDiv]
  · rw [truncDiv, Int.sign_eq_one_of_pos (Int.natCast_pos.2 ha), Int.sign_eq_one_of_pos (Int.natCast_pos.2 hb), one_mul,
      one_mul, Int.natAbs_natCast, Int.natAbs_natCast]

theorem truncDiv_neg_left (n d : Int) : truncDiv (-n) d = -truncDiv n d := by
  rw [truncDiv, truncDiv, Int.sign_neg, Int.natAbs_neg, neg_mul, neg_mul]

theorem truncDiv_neg_right (n d : Int) : truncDiv n (-d) = -truncDiv n d := by
  rw [truncDiv, truncDiv, Int.sign_neg, Int.natAbs_neg, mul_neg, neg_mul]

/-- The model's truncating division is the library's: they agree on natural numbers and both are odd in each argument. -/
theorem truncDiv_eq_tdiv (n d : Int) : truncDiv n d = Int.tdiv n d := by
  have hnat : ∀ a b : Nat, truncDiv a b = Int.tdiv a b := fun a b => (truncDiv_natCast a b).trans (Int.ofNat_tdiv a b)
  have hleft : ∀ a : Nat, truncDiv a d = Int.tdiv a d := fun a => by
    obtain ⟨b, rfl | rfl⟩ := d.eq_nat_or_neg
    · exact hnat a b
    · rw [truncDiv_neg_right, Int.tdiv_neg, hnat]
  obtain ⟨a, rfl | rfl⟩ := n.eq_nat_or_neg
  · exact hleft a
  · rw [truncDiv_neg_left, Int.neg_tdiv, hleft]

/-- The one quotient of two `i64` values that is no `i64` value is that of −2^63 by −1: any divisor but 1 and −1 halves
the magnitude at least. -/
theorem tdiv_bounds {a k : Int} (hlo : -2 ^ 63 ≤ a) (hhi : a < 2 ^ 63) (hk : k ≠ 0) (hfits : ¬(a = -2 ^ 63 ∧ k = -1)) :
    -2 ^ 63 ≤ Int.tdiv a k ∧ Int.tdiv a k < 2 ^ 63 := by
  by_cases hone : k = 1
  · rw [hone, Int.tdiv_one]
    exact ⟨hlo, hhi⟩
  by_cases hneg : k = -1
  · rw [hneg, Int.tdiv_neg, Int.tdiv_one]
    omega
  · have hhalf : (Int.tdiv a k).natAbs ≤ a.natAbs / 2 := calc
      (Int.tdiv a k).natAbs = a.natAbs / k.natAbs := Int.natAbs_tdiv a k
      _ ≤ a.natAbs / 2 := Nat.div_le_div_left (by omega) (by decide)
    omega

theorem checkedDiv_of_zero {a k : Int} (h : k = 0) : checkedDiv a k = .error .assetDivByZero := if_pos h

theorem checkedDiv_of_overflow {a k : Int} (ha : a = -2 ^ 63) (hk : k = -1) :
    checkedDiv a k = .error .assetDivOverflow := by
  rw [checkedDiv, if_neg (by omega), if_pos ⟨ha, hk⟩]

theorem checkedDiv_of_fits {a k : Int} (hk : k ≠ 0) (hfits : ¬(a = -2 ^ 63 ∧ k = -1)) :
    checkedDiv a k = .ok (u64 (Int.tdiv a k)) := by
  rw [checkedDiv, if_neg hk, if_neg hfits, truncDiv_eq_tdiv]

theorem deliversQuotient_of_exec {i : Instr} {rd ra rc : Reg} {s : State}
    (hexec : exec i s = orRaise s (checkedDiv (s.amount ra) (s.amount rc)) (fun v => writeResult rd v s)) :
    DeliversQuotient i rd (s.amount ra) (s.amount rc) s := by
  refine ⟨fun hzero => exec_of_computed_error hexec (checkedDiv_of_zero hzero),
    fun ha hk => exec_of_computed_error hexec (checkedDiv_of_overflow ha hk), fun hk hfits => ?_⟩
  obtain ⟨t, hnext, honly⟩ := exec_of_computed_ok hexec (checkedDiv_of_fits hk hfits)
  obtain ⟨halo, hahi⟩ := amount_bounds s ra
  obtain ⟨hlo, hhi⟩ := tdiv_bounds halo hahi hk hfits
  exact ⟨t, _, hnext, honly, u64_toInt hlo hhi⟩

/-- Settles O53: every quotient but the two that fault is an `i64` value. -/
theorem adivTruncates : Obligations.AdivTruncates := by
  refine ⟨decode_adiv_word, fun rd ra rc s => ?_⟩
  rw [← amount_eq_toInt, ← amount_eq_toInt]
  exact deliversQuotient_of_exec (exec_adiv rd ra rc s)

/-- Settles O54: the Symbols are compared first, then the division is ADIV's. -/
theorem adivaTruncates : Obligations.AdivaTruncates := by
  refine ⟨decode_adiva_word, fun rd ra rb rc re s => ?_⟩
  rw [← amount_eq_toInt, ← amount_eq_toInt]
  exact ⟨exec_of_symbol_ne (exec_adiva rd ra rb rc re s),
    fun heq => deliversQuotient_of_exec (exec_of_symbol_eq (exec_adiva rd ra rb rc re s) heq)⟩

/-! The three-way comparison (R138) and the negation (R139). -/

theorem cmpWord_of_lt {a b : Int} (h : a < b) : cmpWord a b = 0xFFFFFFFFFFFFFFFF := if_pos h

theorem cmpWord_of_eq {a b : Int} (h : a = b) : cmpWord a b = 0 := by
  rw [cmpWord, if_neg h.not_lt, if_pos h]

theorem cmpWord_of_gt {a b : Int} (h : b < a) : cmpWord a b = 1 := by
  rw [cmpWord, if_neg h.not_gt, if_neg h.ne']

/-- Settles O55: the Symbols are compared first, then the amounts as signed integers. -/
theorem acmpOrders : Obligations.AcmpOrders := by
  refine ⟨decode_acmp_word, fun rd ra rb rc re s => ⟨exec_of_symbol_ne (exec_acmp rd ra rb rc re s), fun heq => ?_⟩⟩
  obtain ⟨t, hnext, honly⟩ := exec_of_computed_ok (exec_of_symbol_eq (exec_acmp rd ra rb rc re s) heq) rfl
  rw [← amount_eq_toInt, ← amount_eq_toInt]
  exact ⟨t, _, hnext, honly, cmpWord_of_lt, cmpWord_of_eq, cmpWord_of_gt⟩

/-- Settles O56: the negation of every other amount is an `i64` value. -/
theorem anegFlipsTheSign : Obligations.AnegFlipsTheSign := by
  refine ⟨decode_aneg_word, fun rd ra s => ?_⟩
  rw [← amount_eq_toInt]
  refine ⟨exec_aneg_of_min rd, fun hne => ?_⟩
  obtain ⟨t, hexec, honly⟩ := writeResult_onlyReg s rd (u64 (-s.amount ra))
  obtain ⟨hlo, hhi⟩ := amount_bounds s ra
  exact ⟨t, _, (exec_aneg_of_not_min rd hne).trans hexec, honly, u64_toInt (by omega) (by omega)⟩

end Sys2Proof.AssetArith

namespace Sys2Proof.AssetText

open Sys2Proof.Machine
open Sys2Proof.HostAccess
open Sys2Proof.NameCodec
open Sys2Proof.SymbolCode
open Sys2Proof.SymbolUnit
open Sys2Proof.AssetArith

/-! The words of AFMT and APARSE (30_encoding.md R60, R63, R65), and what the two commands answer (46_asset_text.md
R151, R152). -/

theorem decode_afmt_word (ra rb : Reg) : decode (commandWord 0x39 0 ra rb 0 0) = .ok (.afmt ra rb) := by
  simp only [decode, fieldOp_of_word 0x39 (by decide), zeroBitsAB_of_word 0x39 (by decide),
    fieldRa_of_word 0x39 (by decide), fieldRb_of_word 0x39 (by decide), requireZero, if_true]

/-- Only the check of the two destinations is left for an APARSE word with its zero bits in place. -/
theorem decode_aparse_fields (rd rd2 : Reg) :
    decode (commandWord 0x3A rd rd2 0 0 0) = requireDistinct (.ok (.aparse rd rd2)) := by
  simp only [decode, fieldOp_of_word 0x3A (by decide), zeroBitsDD_of_word 0x3A (by decide),
    fieldRd_of_word 0x3A (by decide), fieldRa_of_word 0x3A (by decide), requireZero, if_true]

theorem decode_aparse_word {rd rd2 : Reg} (hne : rd ≠ rd2) :
    decode (commandWord 0x3A rd rd2 0 0 0) = .ok (.aparse rd rd2) :=
  (decode_aparse_fields rd rd2).trans (if_pos (decide_eq_true hne))

theorem decode_aparse_same_word (rd : Reg) :
    decode (commandWord 0x3A rd rd 0 0 0) = .error .sameDestination :=
  (decode_aparse_fields rd rd).trans (if_neg (by simp [Instr.wellFormed]))

theorem exec_afmt (ra rb : Reg) (s : State) :
    exec (.afmt ra rb) s = .next ((s.sbOut (assetText (s.amount ra) (s.reg rb))).respond 0) := rfl

theorem exec_aparse (rd rd2 : Reg) (s : State) :
    exec (.aparse rd rd2) s
      = orRaise s (assetParse s.sbIn) (fun v => complete ((s.setReg rd v.1).setReg rd2 v.2)) := rfl

theorem exec_aparse_of_error {s : State} {c : FltCode} (rd rd2 : Reg) (h : assetParse s.sbIn = .error c) :
    exec (.aparse rd rd2) s = .next (faulted c.number s) := by
  rw [exec_aparse, h]
  exact raise_eq_faulted c s

/-- An accepted string changes the two destinations and nothing else. -/
theorem exec_aparse_of_ok {s : State} {rd rd2 : Reg} {amount symbol : Word} (hne : rd ≠ rd2)
    (h : assetParse s.sbIn = .ok (amount, symbol)) :
    ∃ t, exec (.aparse rd rd2) s = .next t ∧ t.reg rd = amount ∧ t.reg rd2 = symbol
      ∧ (∀ r, r ≠ rd → r ≠ rd2 → t.reg r = s.reg r) ∧ SameBuffer s t ∧ Completed s t ∧ t.rdata = 0 := by
  refine ⟨((s.setReg rd amount).setReg rd2 symbol).respond 0, ?_, ?_, ?_, fun r h1 h2 => ?_, ⟨rfl, fun _ => rfl⟩,
    ⟨rfl, rfl, rfl, rfl, rfl⟩, rfl⟩
  · rw [exec_aparse, h]
    rfl
  · rw [State.respond_reg, State.setReg_reg_other _ _ _ _ hne, State.setReg_reg_self]
  · rw [State.respond_reg, State.setReg_reg_self]
  · rw [State.respond_reg, State.setReg_reg_other _ _ _ _ h2, State.setReg_reg_other _ _ _ _ h1]

/-! Digit strings put together and padded (00_scope.md R15). -/

theorem decVal_append (s t : List Byte) : decVal (s ++ t) = decVal s * 10 ^ t.length + decVal t := by
  induction t using List.reverseRecOn with
  | nil => simp [decVal]
  | append_singleton t b ih =>
    rw [← List.append_assoc, decVal_concat, decVal_concat, ih, List.length_append, List.length_singleton, pow_succ]
    ring

theorem pad_length {t : List Byte} {w : Nat} (h : t.length ≤ w) : (pad t w).length = w := by
  rw [pad, List.length_append, List.length_replicate, Nat.sub_add_cancel h]

theorem pad_digits {t : List Byte} (h : ∀ b ∈ t, 0x30 ≤ b.toNat ∧ b.toNat ≤ 0x39) (w : Nat) :
    ∀ b ∈ pad t w, 0x30 ≤ b.toNat ∧ b.toNat ≤ 0x39 := by
  intro b hb
  rcases List.mem_append.1 hb with hzero | hmem
  · rw [List.eq_of_mem_replicate hzero]
    decide
  · exact h b hmem

theorem decVal_cons_zero (t : List Byte) : decVal (chrZero :: t) = decVal t := rfl

theorem decVal_pad (t : List Byte) (w : Nat) : decVal (pad t w) = decVal t := by
  rw [pad]
  induction w - t.length with
  | zero => rfl
  | succ n ih => rw [List.replicate_succ, List.cons_append, decVal_cons_zero, ih]

/-! AFMT's digits before and after the point (R151). -/

/-- The digits after the point of the magnitude `mag` at precision `p`: none, without a point, at precision 0. -/
def fractionDigits (mag p : Nat) : List Byte := if p = 0 then [] else pad (dec (mag % 10 ^ p)) p

theorem fractionDigits_zero (mag : Nat) : fractionDigits mag 0 = [] := rfl

theorem fractionDigits_of_pos (mag : Nat) {p : Nat} (hp : p ≠ 0) :
    fractionDigits mag p = pad (dec (mag % 10 ^ p)) p := if_neg hp

theorem fractionText_eq (mag p : Nat) :
    fractionText mag p = if p = 0 then [] else chrDot :: fractionDigits mag p := by
  by_cases hp : p = 0
  · rw [fractionText, if_pos hp, if_pos hp]
  · rw [fractionText, if_neg hp, if_neg hp, fractionDigits_of_pos mag hp]

theorem fractionDigits_length (mag p : Nat) : (fractionDigits mag p).length = p := by
  by_cases hp : p = 0
  · rw [hp, fractionDigits_zero, List.length_nil]
  · rw [fractionDigits_of_pos mag hp]
    exact pad_length
      (length_le_of_decimalOf (decimalOf_dec _) (Nat.pos_of_ne_zero hp) (Nat.mod_lt mag (Nat.pow_pos (by decide))))

theorem fractionDigits_digits (mag p : Nat) : ∀ b ∈ fractionDigits mag p, 0x30 ≤ b.toNat ∧ b.toNat ≤ 0x39 := by
  by_cases hp : p = 0
  · simp [hp, fractionDigits_zero]
  · rw [fractionDigits_of_pos mag hp]
    exact pad_digits (decimalOf_dec _).1.2 p

theorem decVal_fractionDigits (mag p : Nat) : decVal (fractionDigits mag p) = mag % 10 ^ p := by
  by_cases hp : p = 0
  · rw [hp, fractionDigits_zero, pow_zero, Nat.mod_one]
    rfl
  · rw [fractionDigits_of_pos mag hp, decVal_pad]
    exact (decimalOf_dec _).2.1

/-- The split by `10^p` loses nothing: read through the point, the digits have the magnitude as value. -/
theorem decVal_integer_append_fraction (mag p : Nat) :
    decVal (dec (mag / 10 ^ p) ++ fractionDigits mag p) = mag := by
  rw [decVal_append, (decimalOf_dec _).2.1, fractionDigits_length, decVal_fractionDigits, Nat.div_add_mod']

/-- A magnitude of at most 19 digits has none of the `p` lowest in its integer part, which is `"0"` from `p = 19` on. -/
theorem integerDigits_length_le {mag : Nat} (hmag : mag < 10 ^ 19) (p : Nat) :
    (dec (mag / 10 ^ p)).length ≤ max 1 (19 - p) := by
  refine length_le_of_decimalOf (decimalOf_dec _) (by omega) (Nat.div_lt_of_lt_mul ?_)
  calc mag
    _ < 10 ^ 19 := hmag
    _ ≤ 10 ^ (p + max 1 (19 - p)) := Nat.pow_le_pow_right (by decide) (by omega)
    _ = 10 ^ p * 10 ^ max 1 (19 - p) := pow_add 10 _ _

theorem assetText_eq (a : Int) (sym : Word) :
    assetText a sym = (if a < 0 then [chrMinus] else []) ++ dec (a.natAbs / 10 ^ (sym.toNat % 256))
      ++ (if sym.toNat % 256 = 0 then [] else chrDot :: fractionDigits a.natAbs (sym.toNat % 256))
      ++ chrSpace :: scStr (symbolCode sym) := by
  rw [assetText, amountText, fractionText_eq, symbolPrecision_toNat]

theorem sign_length_le (a : Int) : (if a < 0 then [chrMinus] else []).length ≤ 1 := by
  split <;> simp

theorem fractionText_length_le (mag p : Nat) : (fractionText mag p).length ≤ p + 1 := by
  rw [fractionText_eq]
  split
  · exact Nat.zero_le _
  · rw [List.length_cons, fractionDigits_length]

/-- The longest text has a sign, one integer digit, a point, 255 fraction digits, a space and seven characters of
code. -/
theorem assetText_length_le {a : Int} (ha : a.natAbs < 10 ^ 19) (sym : Word) : (assetText a sym).length ≤ 266 := by
  have hprec := (symbolPrecision sym).isLt
  have hsign := sign_length_le a
  have hint := integerDigits_length_le ha (symbolPrecision sym).toNat
  have hfrac := fractionText_length_le a.natAbs (symbolPrecision sym).toNat
  have hcode := (codeString_scStr (symbolCode sym)).1
  rw [assetText, amountText, List.length_append, List.length_append, List.length_append, List.length_cons]
  omega

/-- Settles O58: AFMT ends in `SBout` of a text that fits the buffer for every amount and Symbol; its digits are those
of the magnitude, split by `10^p`. -/
theorem afmtWritesTheDecimalText : Obligations.AfmtWritesTheDecimalText := by
  refine ⟨decode_afmt_word, fun ra rb s hwf => ?_⟩
  rw [← amount_eq_toInt]
  have hmag : (s.amount ra).natAbs < 10 ^ 19 := by
    have hbounds := amount_bounds s ra
    omega
  have hlen := assetText_length_le hmag (s.reg rb)
  have honly := onlyText_sbOut_respond hwf (hlen.trans (by decide))
  have hslen := honly.length
  refine ⟨_, _, _, _, exec_afmt ra rb s, assetText_eq _ _ ▸ honly, decimalOf_dec _, fractionDigits_length _ _,
    fractionDigits_digits _ _, decVal_integer_append_fraction _ _, codeString_scStr _, hslen.trans_le hlen⟩

/-! The amount token (R152): a signed decimal integer once its point is removed. -/

/-- `t` is an optional `'-'` and digits, and stands for `n`. -/
def SignedDecimal (t : List Byte) (n : Int) : Prop :=
  (Digits t ∧ n = decVal t) ∨ ∃ b, t = chrMinus :: b ∧ Digits b ∧ n = -(decVal b : Int)

theorem not_digits_minus_cons (b : List Byte) : ¬Digits (chrMinus :: b) := fun h =>
  absurd (h.2 _ List.mem_cons_self) (by decide)

theorem no_point_of_digits {t : List Byte} (h : Digits t) : chrDot ∉ t := fun hmem =>
  absurd (h.2 _ hmem) (by decide)

theorem no_point_of_signedDecimal {t : List Byte} {n : Int} (h : SignedDecimal t n) : chrDot ∉ t := by
  rcases h with ⟨hdigits, -⟩ | ⟨b, rfl, hdigits, -⟩
  · exact no_point_of_digits hdigits
  · exact List.not_mem_cons_of_ne_of_not_mem (by decide) (no_point_of_digits hdigits)

theorem signedVal_of_signedDecimal {t : List Byte} {n : Int} (h : SignedDecimal t n) : signedVal t = .ok n := by
  rcases h with ⟨hdigits, rfl⟩ | ⟨b, rfl, hdigits, rfl⟩
  · cases t with
    | nil => exact absurd rfl hdigits.1
    | cons b t =>
      have hminus : b ≠ chrMinus := fun h => not_digits_minus_cons t (h ▸ hdigits)
      rw [signedVal, if_neg hminus, if_pos (isDigits_iff.2 hdigits)]
  · rw [signedVal, if_pos rfl, if_pos (isDigits_iff.2 hdigits)]

/-- What `signedVal` answers is right, and what it refuses it refuses with the one fault. -/
theorem signedVal_cases (t : List Byte) :
    signedVal t = .error .assetInvalidAmount ∨ ∃ n, signedVal t = .ok n ∧ SignedDecimal t n := by
  cases t with
  | nil => exact .inl rfl
  | cons b t =>
    rw [signedVal]
    split_ifs with hminus hrest hall
    · exact .inr ⟨_, rfl, .inr ⟨t, by rw [hminus], isDigits_iff.1 hrest, rfl⟩⟩
    · exact .inl rfl
    · exact .inr ⟨_, rfl, .inl ⟨isDigits_iff.1 hall, rfl⟩⟩
    · exact .inl rfl

/-- A token with at most one point has none, or parts without a point on both sides of it. -/
theorem parts_of_countByte_le_one {t : List Byte} {sep : Byte} (h : countByte t sep ≤ 1) :
    sep ∉ t ∨ ∃ l f, t = l ++ sep :: f ∧ sep ∉ l ∧ sep ∉ f := by
  by_cases hmem : sep ∈ t
  · obtain ⟨l, f, rfl, hl⟩ := List.eq_append_cons_of_mem hmem
    have hf : f.count sep = 0 := by
      rw [countByte, List.count_append, List.count_cons_self] at h
      omega
    exact .inr ⟨l, f, rfl, hl, List.count_eq_zero.1 hf⟩
  · exact .inl hmem

theorem stripPoint_of_no_point {t : List Byte} (h : chrDot ∉ t) : stripPoint t = (t, 0) := by
  have hcount : countByte t chrDot = 0 := List.count_eq_zero.2 h
  rw [stripPoint, if_neg (by omega)]

theorem stripPoint_of_one_point {l f : List Byte} (hl : chrDot ∉ l) (hf : chrDot ∉ f) :
    stripPoint (l ++ chrDot :: f) = (l ++ f, f.length) := by
  rw [stripPoint, if_pos (countByte_around_sep hl hf), before_around_sep hl, after_around_sep hl]

/-- The rule's amount token is what the model parses: at most one point, and a signed decimal without it. -/
theorem amountToken_iff {t : List Byte} {n : Int} {p : Nat} : AmountToken t n p
    ↔ countByte t chrDot ≤ 1 ∧ SignedDecimal (stripPoint t).1 n ∧ (stripPoint t).2 = p := by
  constructor
  · rintro ⟨l, f, ⟨rfl, rfl, rfl⟩ | ⟨rfl, rfl⟩, hsigned⟩
    · rw [List.append_nil] at hsigned
      have hnone := no_point_of_signedDecimal hsigned
      rw [stripPoint_of_no_point hnone, countByte, List.count_eq_zero.2 hnone]
      exact ⟨Nat.zero_le 1, hsigned, rfl⟩
    · have hnone := no_point_of_signedDecimal hsigned
      obtain ⟨hl, hf⟩ := not_or.1 (mt List.mem_append.2 hnone)
      have hstrip : stripPoint (l ++ 0x2E :: f) = (l ++ f, f.length) := stripPoint_of_one_point hl hf
      rw [hstrip]
      exact ⟨(countByte_around_sep hl hf).le, hsigned, rfl⟩
  · rintro ⟨hcount, hsigned, rfl⟩
    rcases parts_of_countByte_le_one hcount with hnone | ⟨l, f, rfl, hl, hf⟩
    · rw [stripPoint_of_no_point hnone] at hsigned ⊢
      exact ⟨t, [], .inl ⟨rfl, rfl, rfl⟩, by rw [List.append_nil]; exact hsigned⟩
    · rw [stripPoint_of_one_point hl hf] at hsigned ⊢
      exact ⟨l, f, .inr ⟨rfl, rfl⟩, hsigned⟩

theorem amountParse_of_token {t : List Byte} {n : Int} {p : Nat} (h : AmountToken t n p) (hlo : -2 ^ 63 ≤ n)
    (hhi : n ≤ 2 ^ 63 - 1) : amountParse t = .ok n := by
  obtain ⟨hcount, hsigned, -⟩ := amountToken_iff.1 h
  simp only [amountParse, if_neg (Nat.not_lt.2 hcount), signedVal_of_signedDecimal hsigned]
  exact if_neg (by omega)

theorem amountParse_of_no_token {t : List Byte}
    (h : ¬∃ n p, AmountToken t n p ∧ -2 ^ 63 ≤ n ∧ n ≤ 2 ^ 63 - 1) : amountParse t = .error .assetInvalidAmount := by
  by_cases hcount : 1 < countByte t chrDot
  · exact if_pos hcount
  · simp only [amountParse, if_neg hcount]
    rcases signedVal_cases (stripPoint t).1 with herror | ⟨n, hok, hsigned⟩
    · rw [herror]
    · have hrange : n < -2 ^ 63 ∨ 2 ^ 63 - 1 < n := by
        by_contra hin
        exact h ⟨n, _, amountToken_iff.2 ⟨Nat.not_lt.1 hcount, hsigned, rfl⟩, by omega, by omega⟩
      rw [hok]
      exact if_pos hrange

/-! APARSE, a lemma per case of its rule (R152). -/

theorem assetParse_of_count_ne_one {t : List Byte} (h : countByte t chrSpace ≠ 1) :
    assetParse t = .error .assetInvalid := by
  rw [assetParse, if_pos h]

section OneSpace

variable {tok code : List Byte} (htok : chrSpace ∉ tok) (hcode : chrSpace ∉ code)
include htok hcode

theorem assetParse_of_bad_amount (hbad : ¬∃ n p, AmountToken tok n p ∧ -2 ^ 63 ≤ n ∧ n ≤ 2 ^ 63 - 1) :
    assetParse (tok ++ chrSpace :: code) = .error .assetInvalidAmount := by
  rw [assetParse, if_neg (not_not.2 (countByte_around_sep htok hcode)), before_around_sep htok,
    amountParse_of_no_token hbad]

variable {n : Int} {p : Nat} (hamount : AmountToken tok n p) (hlo : -2 ^ 63 ≤ n) (hhi : n ≤ 2 ^ 63 - 1)
include hamount hlo hhi

/-- With a good amount the precision decides, then the code part. -/
theorem assetParse_of_amount :
    assetParse (tok ++ chrSpace :: code)
      = if 255 < p then .error .symInvalidPrecision
        else (scEncode code).map (fun c => (u64 n, symbolOf c (BitVec.ofNat 64 p))) := by
  obtain ⟨-, -, hp⟩ := amountToken_iff.1 hamount
  rw [assetParse, if_neg (not_not.2 (countByte_around_sep htok hcode)), before_around_sep htok, after_around_sep htok,
    amountParse_of_token hamount hlo hhi, hp]
  cases scEncode code <;> rfl

theorem assetParse_of_bad_precision (hp : 255 < p) :
    assetParse (tok ++ chrSpace :: code) = .error .symInvalidPrecision := by
  rw [assetParse_of_amount htok hcode hamount hlo hhi, if_pos hp]

theorem assetParse_of_codeFault (hp : p ≤ 255) {f : Byte} (hfault : CodeFault code f) :
    ∃ e : FltCode, assetParse (tok ++ chrSpace :: code) = .error e ∧ e.number = f := by
  obtain ⟨e, hencode, hnumber⟩ := scEncode_of_codeFault hfault
  refine ⟨e, ?_, hnumber⟩
  rw [assetParse_of_amount htok hcode hamount hlo hhi, if_neg (Nat.not_lt.2 hp), hencode]
  rfl

theorem assetParse_of_accepted (hp : p ≤ 255) (haccepted : AcceptedCode code) :
    assetParse (tok ++ chrSpace :: code) = .ok (u64 n, scPack (BitVec.ofNat 8 p :: code)) := by
  rw [assetParse_of_amount htok hcode hamount hlo hhi, if_neg (Nat.not_lt.2 hp), scEncode_of_accepted haccepted,
    ← symbolOf_scPack code hp]
  rfl

end OneSpace

theorem scPack_cons_low_byte {p : Nat} (hp : p ≤ 255) (code : List Byte) :
    (scPack (BitVec.ofNat 8 p :: code)).toNat % 256 = p := by
  rw [← symbolPrecision_toNat, symbolPrecision_eq_scByte_zero, scByte_scPack_cons_zero, BitVec.toNat_ofNat]
  exact Nat.mod_eq_of_lt (Nat.lt_succ_of_le hp)

/-- Settles O59: the rule's cases in its order; an accepted string gives its amount and the packing of its precision
byte and its code. -/
theorem aparseParsesOrFaults : Obligations.AparseParsesOrFaults := by
  refine ⟨decode_aparse_same_word, fun rd rd2 hne => decode_aparse_word hne,
    fun rd rd2 s _ hcount => exec_aparse_of_error rd rd2 (assetParse_of_count_ne_one hcount),
    fun rd rd2 s tok code hne hstring htok hcode =>
      ⟨fun hbad => ?_, fun n p hamount hlo hhi => ⟨fun hp => ?_, fun hp => ⟨fun f hfault => ?_, fun haccepted => ?_⟩⟩⟩⟩
  · exact exec_aparse_of_error rd rd2 (hstring ▸ assetParse_of_bad_amount htok hcode hbad)
  · exact exec_aparse_of_error rd rd2 (hstring ▸ assetParse_of_bad_precision htok hcode hamount hlo hhi hp)
  · obtain ⟨e, hparse, rfl⟩ := assetParse_of_codeFault htok hcode hamount hlo hhi hp hfault
    exact exec_aparse_of_error rd rd2 (hstring ▸ hparse)
  · obtain ⟨t, hexec, hrd, hrd2, hothers, hbuffer, hrest, hrdata⟩ :=
      exec_aparse_of_ok hne (hstring ▸ assetParse_of_accepted htok hcode hamount hlo hhi hp haccepted)
    refine ⟨t, hexec, ?_, ?_, ?_, hothers, hbuffer, hrest, hrdata⟩
    · rw [hrd]
      exact u64_toInt hlo (by omega)
    · rw [hrd2]
      exact scPack_cons_low_byte hp code
    · rw [hrd2]
      exact codeValue_symbolCode_scPack _ haccepted.1

end Sys2Proof.AssetText

namespace Sys2Proof.Exceptions

open Sys2Proof.Machine
open Sys2Proof.HostAccess

/-! The two ways the rule of a command ends (60_exceptions.md R163, R165; 40_host_access.md R87): it responds, or it is
abandoned for fault entry in the state it started from. -/

/-- What a command started in `s` can answer: a response, from whatever state its rule leads to, or a fault raised in
`s` itself. -/
inductive RespondsOrRaises (s : State) : Answer → Prop where
  | responds (u : State) (v : Word) : RespondsOrRaises s (.next (u.respond v))
  | raises (c : FltCode) : RespondsOrRaises s (raise c s)

namespace RespondsOrRaises

variable {s : State}

theorem complete (u : State) : RespondsOrRaises s (Machine.complete u) := .responds u 0

theorem writeResult (rd : Reg) (v : Word) : RespondsOrRaises s (Machine.writeResult rd v s) :=
  .complete (s.setReg rd v)

theorem ite {p : Prop} [Decidable p] {a b : Answer} (ha : RespondsOrRaises s a) (hb : RespondsOrRaises s b) :
    RespondsOrRaises s (if p then a else b) := by
  split
  · exact ha
  · exact hb

/-- A computation that fails raises in the state it was given, before anything is written. -/
theorem orRaise {α : Type} {k : α → Answer} (r : Except FltCode α) (hk : ∀ a, RespondsOrRaises s (k a)) :
    RespondsOrRaises s (Machine.orRaise s r k) :=
  match r with
  | .ok a => hk a
  | .error c => .raises c

theorem computed (rd : Reg) (r : Except FltCode Word) :
    RespondsOrRaises s (Machine.orRaise s r (fun v => Machine.writeResult rd v s)) :=
  .orRaise r (.writeResult rd)

/-- A response carries fault 0; otherwise the state is the one fault entry leaves. -/
theorem fault_eq_zero_or_eq_faulted {t : State} (h : RespondsOrRaises s (.next t)) :
    t.fault = 0 ∨ t = faulted t.fault s := by
  cases h with
  | responds u v => exact .inl (State.respond_fault u v)
  | raises c => exact .inr rfl

end RespondsOrRaises

/-- No rule writes the state before its last check, so a fault is always raised in the state the command started
from. -/
theorem exec_respondsOrRaises (i : Instr) (s : State) : RespondsOrRaises s (exec i s) :=
  match i with
  | .nop | .sbclr | .ndec _ | .scdec _ | .syfmt _ | .afmt _ _ => .complete _
  | .getr _ | .sblen => .responds s _
  | .setr rd | .nlen rd _ | .npfx rd _ | .nsfx rd _ | .scvalid rd _ | .sclen rd _ | .sycode rd _ | .syprec rd _
  | .syvalid rd _ | .arange rd _ | .avalid rd _ _ => .writeResult rd _
  | .nenc rd | .scenc rd | .syparse rd | .aadd rd _ _ _ _ | .asub rd _ _ _ _ | .amul rd _ _ | .adiv rd _ _
  | .adiva rd _ _ _ _ | .acmp rd _ _ _ _ => .computed rd _
  | .sbput => .ite (.raises .operandRange) (.ite (.complete _) (.raises .sbBounds))
  | .sbget _ => .ite (.raises .sbBounds) (.responds s _)
  | .symk rd _ _ => .ite (.raises .operandRange) (.writeResult rd _)
  | .aneg rd _ => .ite (.raises .assetNegOverflow) (.writeResult rd _)
  | .aparse _ _ => .orRaise _ (fun _ => .complete _)

/-- Settles O4: `raise` is fault entry with a code that is not 0, and every command's rule responds or raises. -/
theorem faultsArePrecise : Obligations.FaultsArePrecise :=
  ⟨fun c s => ⟨c.number_ne_zero, raise_eq_faulted c s⟩,
    fun i s _ hexec => (hexec ▸ exec_respondsOrRaises i s).fault_eq_zero_or_eq_faulted⟩

end Sys2Proof.Exceptions

namespace Sys2Proof.Reset

open Sys2Proof.Machine
open Sys2Proof.HostAccess

/-! What a step does with each event but a command of a running unit (60_exceptions.md R165, R166;
70_reset_and_hazards.md R180). For a command of a halted unit it is `step_of_halted`. -/

/-- Reset is taken whatever the state is, halted or running. -/
theorem step_of_reset {s : State} {rest : List HostEvent} (hpending : s.pending = .reset :: rest) :
    step s = .next (s.resetWith rest) := by
  have htake : takeEvent s = .settled (s.resetWith rest) := by simp [takeEvent, hpending]
  rw [step, htake]

/-- A unit to which nothing is presented holds its state. -/
theorem step_of_no_event {s : State} (hpending : s.pending = []) : step s = .next s := by
  have htake : takeEvent s = .settled s := by simp [takeEvent, hpending]
  rw [step, htake]

/-- A halted unit leaves a step running only if the step took a reset: nothing presented leaves it as it is, and a
command is ignored (60_exceptions.md R164). -/
theorem pending_reset_of_step_clears_halt {s t : State} (hhalt : s.halt = true) (hstep : step s = .next t)
    (hrun : t.halt = false) : ∃ rest, s.pending = .reset :: rest := by
  match hpending : s.pending with
  | .reset :: rest => exact ⟨rest, rfl⟩
  | [] =>
    cases (step_of_no_event hpending).symm.trans hstep
    exact absurd hhalt (Bool.eq_false_iff.1 hrun)
  | .command _ _ :: _ =>
    cases (step_of_halted hhalt hpending).symm.trans hstep
    exact absurd hhalt (Bool.eq_false_iff.1 hrun)

/-- Every byte of the buffer is 0 after reset: no cell is listed (70_reset_and_hazards.md R180; log 12). -/
theorem resetWith_sb_read (s : State) (rest : List HostEvent) (a : Nat) : (s.resetWith rest).sb.read a = 0 := rfl

/-- Settles O1: a reset event leads to the reset state but for the host's list, and no other event clears HALT. -/
theorem resetLeavesEverythingZero : Obligations.ResetLeavesEverythingZero :=
  ⟨State.reset_reg, rfl, resetWith_sb_read State.reset [], rfl, rfl,
    fun s rest hpending => ⟨s.resetWith rest, step_of_reset hpending, s.resetWith_reg rest, s.resetWith_slen rest,
      resetWith_sb_read s rest, s.resetWith_fcode rest, s.resetWith_halt rest⟩,
    fun _ _ hhalt hstep hrun => pending_reset_of_step_clears_halt hhalt hstep hrun⟩

end Sys2Proof.Reset

namespace Sys2Proof.Encoding

open Sys2Proof.Machine
open Sys2Proof.HostAccess
open Sys2Proof.NameCodec
open Sys2Proof.NameScan
open Sys2Proof.SymbolCode
open Sys2Proof.SymbolUnit
open Sys2Proof.AssetArith
open Sys2Proof.AssetText

/-! Decoding what was encoded: the words of the commands no earlier statement needed, then all 33 (30_encoding.md R60,
R63, R65). -/

theorem decode_npfx_word (rd ra : Reg) : decode (commandWord 0x13 rd ra 0 0 0) = .ok (.npfx rd ra) := by
  simp only [decode, fieldOp_of_word 0x13 (by decide)]
  exact requireZero_twoRegister_word (by decide) rd ra .npfx

theorem decode_symk_word (rd ra rc : Reg) : decode (commandWord 0x28 rd ra 0 rc 0) = .ok (.symk rd ra rc) := by
  simp only [decode, fieldOp_of_word 0x28 (by decide)]
  exact requireZero_scalar_word (by decide) rd ra rc .symk

theorem decode_encode {i : Instr} (hwf : i.wellFormed = true) : decode (encode i) = .ok i :=
  match i with
  | .nop | .sbclr | .sbput | .sblen => rfl
  | .setr rd => decode_setr_word rd
  | .getr ra => decode_getr_word ra
  | .sbget imm16 => decode_sbget_word imm16
  | .nenc rd => decode_nenc_word rd
  | .ndec ra => decode_ndec_word ra
  | .nlen rd ra => decode_nlen_word rd ra
  | .npfx rd ra => decode_npfx_word rd ra
  | .nsfx rd ra => decode_nsfx_word rd ra
  | .scenc rd => decode_scenc_word rd
  | .scdec ra => decode_scdec_word ra
  | .scvalid rd ra => decode_scvalid_word rd ra
  | .sclen rd ra => decode_sclen_word rd ra
  | .symk rd ra rc => decode_symk_word rd ra rc
  | .sycode rd ra => decode_sycode_word rd ra
  | .syprec rd ra => decode_syprec_word rd ra
  | .syvalid rd ra => decode_syvalid_word rd ra
  | .syfmt ra => decode_syfmt_word ra
  | .syparse rd => decode_syparse_word rd
  | .arange rd ra => decode_arange_word rd ra
  | .avalid rd ra rb => decode_avalid_word rd ra rb
  | .aadd rd ra rb rc re => decode_aadd_word rd ra rb rc re
  | .asub rd ra rb rc re => decode_asub_word rd ra rb rc re
  | .amul rd ra rc => decode_amul_word rd ra rc
  | .adiv rd ra rc => decode_adiv_word rd ra rc
  | .adiva rd ra rb rc re => decode_adiva_word rd ra rb rc re
  | .acmp rd ra rb rc re => decode_acmp_word rd ra rb rc re
  | .aneg rd ra => decode_aneg_word rd ra
  | .afmt ra rb => decode_afmt_word ra rb
  | .aparse _ _ => decode_aparse_word (of_decide_eq_true hwf)

/-- Settles O9: a word lemma for each command; APARSE's needs its two destinations to differ. -/
theorem decodeOfEncodeIsTheCommand : Obligations.DecodeOfEncodeIsTheCommand := fun _ => decode_encode

/-! Encoding what was decoded: a word is its opcode, its register fields and its bits 3:0, and the must-be-zero bits of
its format clear the fields its command does not name (R60, R61). -/

/-- Bits 3:0 are the only part of a word without a field of its own. -/
theorem toNat_eq_fields (c : Cmd) : c.toNat = fieldOp c * 2 ^ 24 + (fieldRd c).val * 2 ^ 20 + (fieldRa c).val * 2 ^ 16
    + (fieldRb c).val * 2 ^ 12 + (fieldRc c).val * 2 ^ 8 + (fieldRe c).val * 2 ^ 4 + bits c 3 0 := by
  have hlt := c.isLt
  simp only [fieldOp, fieldRd, fieldRa, fieldRb, fieldRc, fieldRe, bits, Fin.ofNat]
  omega

theorem commandWord_of_fields {c : Cmd} {op : Nat} {rd ra rb rc re : Reg} (hop : fieldOp c = op) (hrd : fieldRd c = rd)
    (hra : fieldRa c = ra) (hrb : fieldRb c = rb) (hrc : fieldRc c = rc) (hre : fieldRe c = re)
    (hlow : bits c 3 0 = 0) : commandWord op rd ra rb rc re = c := by
  subst hop hrd hra hrb hrc hre
  have hnat := toNat_eq_fields c
  rw [hlow, Nat.add_zero] at hnat
  rw [commandWord, ← hnat, BitVec.ofNat_toNat, BitVec.setWidth_eq]

theorem bits_testBit (c : Cmd) (hi lo k : Nat) :
    (bits c hi lo).testBit k = (decide (k < hi + 1 - lo) && c.getLsbD (lo + k)) := by
  rw [bits, Nat.testBit_mod_two_pow, Nat.testBit_div_two_pow, BitVec.testBit_toNat, Nat.add_comm k lo]

/-- Bits inside a range of zero bits are zero. -/
theorem bits_eq_zero_of_range {c : Cmd} {hi lo hi' lo' : Nat} (hzero : bits c hi lo = 0) (hlo : lo ≤ lo')
    (hhi : hi' ≤ hi) : bits c hi' lo' = 0 := by
  apply Nat.eq_of_testBit_eq
  intro k
  rw [bits_testBit, Nat.zero_testBit, Bool.and_eq_false_imp, decide_eq_true_eq]
  intro hk
  have hbit := bits_testBit c hi lo (lo' + k - lo)
  rw [hzero, Nat.zero_testBit, decide_eq_true (by omega), Bool.true_and, show lo + (lo' + k - lo) = lo' + k by omega]
    at hbit
  exact hbit.symm

theorem field_eq_zero {c : Cmd} {hi lo hi' lo' : Nat} (hzero : bits c hi lo = 0) (hlo : lo ≤ lo') (hhi : hi' ≤ hi) :
    Fin.ofNat 16 (bits c hi' lo') = 0 := by
  rw [bits_eq_zero_of_range hzero hlo hhi]
  rfl

section Formats

variable {c : Cmd} {op : Nat} (hop : fieldOp c = op)
include hop

theorem commandWord_of_zeroBitsZ (hzeros : zeroBitsZ c = true) : commandWord op 0 0 0 0 0 = c := by
  have h : bits c 23 0 = 0 := beq_iff_eq.1 hzeros
  exact commandWord_of_fields hop (field_eq_zero h (by decide) (by decide)) (field_eq_zero h (by decide) (by decide))
    (field_eq_zero h (by decide) (by decide)) (field_eq_zero h (by decide) (by decide))
    (field_eq_zero h (by decide) (by decide)) (bits_eq_zero_of_range h (by decide) (by decide))

theorem commandWord_of_zeroBitsD (hzeros : zeroBitsD c = true) : commandWord op (fieldRd c) 0 0 0 0 = c := by
  have h : bits c 19 0 = 0 := beq_iff_eq.1 hzeros
  exact commandWord_of_fields hop rfl (field_eq_zero h (by decide) (by decide))
    (field_eq_zero h (by decide) (by decide)) (field_eq_zero h (by decide) (by decide))
    (field_eq_zero h (by decide) (by decide)) (bits_eq_zero_of_range h (by decide) (by decide))

theorem commandWord_of_zeroBitsS (hzeros : zeroBitsS c = true) : commandWord op 0 (fieldRa c) 0 0 0 = c := by
  rw [zeroBitsS, Bool.and_eq_true, beq_iff_eq, beq_iff_eq] at hzeros
  obtain ⟨hrd, h⟩ := hzeros
  exact commandWord_of_fields hop (field_eq_zero hrd le_rfl le_rfl) rfl (field_eq_zero h (by decide) (by decide))
    (field_eq_zero h (by decide) (by decide)) (field_eq_zero h (by decide) (by decide))
    (bits_eq_zero_of_range h (by decide) (by decide))

theorem commandWord_of_zeroBitsDS (hzeros : zeroBitsDS c = true) :
    commandWord op (fieldRd c) (fieldRa c) 0 0 0 = c := by
  have h : bits c 15 0 = 0 := beq_iff_eq.1 hzeros
  exact commandWord_of_fields hop rfl rfl (field_eq_zero h (by decide) (by decide))
    (field_eq_zero h (by decide) (by decide)) (field_eq_zero h (by decide) (by decide))
    (bits_eq_zero_of_range h (by decide) (by decide))

theorem commandWord_of_zeroBitsDSC (hzeros : zeroBitsDSC c = true) :
    commandWord op (fieldRd c) (fieldRa c) 0 (fieldRc c) 0 = c := by
  rw [zeroBitsDSC, Bool.and_eq_true, beq_iff_eq, beq_iff_eq] at hzeros
  obtain ⟨hrb, h⟩ := hzeros
  exact commandWord_of_fields hop rfl rfl (field_eq_zero hrb le_rfl le_rfl) rfl
    (field_eq_zero h (by decide) (by decide)) (bits_eq_zero_of_range h (by decide) (by decide))

theorem commandWord_of_zeroBitsDAB (hzeros : zeroBitsDAB c = true) :
    commandWord op (fieldRd c) (fieldRa c) (fieldRb c) 0 0 = c := by
  have h : bits c 11 0 = 0 := beq_iff_eq.1 hzeros
  exact commandWord_of_fields hop rfl rfl rfl (field_eq_zero h (by decide) (by decide))
    (field_eq_zero h (by decide) (by decide)) (bits_eq_zero_of_range h (by decide) (by decide))

theorem commandWord_of_zeroBitsA (hzeros : zeroBitsA c = true) :
    commandWord op (fieldRd c) (fieldRa c) (fieldRb c) (fieldRc c) (fieldRe c) = c :=
  commandWord_of_fields hop rfl rfl rfl rfl rfl (beq_iff_eq.1 hzeros)

theorem commandWord_of_zeroBitsAB (hzeros : zeroBitsAB c = true) :
    commandWord op 0 (fieldRa c) (fieldRb c) 0 0 = c := by
  rw [zeroBitsAB, Bool.and_eq_true, beq_iff_eq, beq_iff_eq] at hzeros
  obtain ⟨hrd, h⟩ := hzeros
  exact commandWord_of_fields hop (field_eq_zero hrd le_rfl le_rfl) rfl rfl (field_eq_zero h (by decide) (by decide))
    (field_eq_zero h (by decide) (by decide)) (bits_eq_zero_of_range h (by decide) (by decide))

/-- Format I has no register fields: the immediate is what stands below the opcode and the zero bits. -/
theorem immediateWord_of_zeroBitsI (hzeros : zeroBitsI c = true) :
    BitVec.ofNat 32 (op * 2 ^ 24 + (fieldImm16 c).toNat) = c := by
  have h : bits c 23 16 = 0 := beq_iff_eq.1 hzeros
  have hlt := c.isLt
  apply BitVec.eq_of_toNat_eq
  rw [← hop, fieldImm16, BitVec.toNat_ofNat, BitVec.toNat_ofNat]
  simp only [fieldOp, bits] at h ⊢
  omega

end Formats

/-- A command the decoder reads from a word is well formed, and its encoding is that word: the arms of the decoder,
grouped by format. -/
theorem wellFormed_and_encode_of_decode {c : Cmd} {i : Instr} (h : decode c = .ok i) :
    i.wellFormed = true ∧ encode i = c := by
  unfold decode at h
  generalize hop : fieldOp c = op at h
  split at h
  case h_34 => cases h
  case h_33 =>
    obtain ⟨h, hwf⟩ := requireDistinct_eq_ok_iff.1 h
    obtain ⟨hzeros, rfl⟩ := requireZero_eq_ok_iff.1 h
    exact ⟨hwf, commandWord_of_zeroBitsDS hop hzeros⟩
  all_goals
    obtain ⟨hzeros, rfl⟩ := requireZero_eq_ok_iff.1 h
    refine ⟨rfl, ?_⟩
  case h_1 | h_4 | h_5 | h_7 => exact commandWord_of_zeroBitsZ hop hzeros
  case h_2 | h_8 | h_13 | h_22 => exact commandWord_of_zeroBitsD hop hzeros
  case h_3 | h_9 | h_14 | h_21 => exact commandWord_of_zeroBitsS hop hzeros
  case h_6 => exact immediateWord_of_zeroBitsI hop hzeros
  case h_10 | h_11 | h_12 | h_15 | h_16 | h_18 | h_19 | h_20 | h_23 | h_31 =>
    exact commandWord_of_zeroBitsDS hop hzeros
  case h_17 | h_27 | h_28 => exact commandWord_of_zeroBitsDSC hop hzeros
  case h_24 => exact commandWord_of_zeroBitsDAB hop hzeros
  case h_25 | h_26 | h_29 | h_30 => exact commandWord_of_zeroBitsA hop hzeros
  case h_32 => exact commandWord_of_zeroBitsAB hop hzeros

/-- Settles O10: the fields and the zero bits of an accepted word leave no bit out. -/
theorem legalWordIsTheEncodingOfItsCommand : Obligations.LegalWordIsTheEncodingOfItsCommand :=
  fun _ _ => wellFormed_and_encode_of_decode

/-! The opcode map (R63): a row's mask is the opcode field with the must-be-zero bits of the row's format. -/

theorem opcodeRows_form : ∀ row ∈ opcodeRows,
    row.1 < 256 ∧ row.2.1 = BitVec.ofNat 32 (row.1 * 2 ^ 24) ∧ row.2.2 = 0xFF000000 ||| (row.2.2 &&& 0x00FFFFFF)
      ∧ row.2.1 &&& 0xFF000000 = row.2.1 ∧ row.2.1 &&& (row.2.2 &&& 0x00FFFFFF) = 0 := by
  decide

theorem or_and_cancel_left (m z : Cmd) : (m ||| z) &&& m = m := by
  ext k
  simp +contextual

/-- A word matches a row exactly when it has the row's opcode and the zero bits of the row's format are clear. -/
theorem match_row_iff {row : Nat × Cmd × Cmd} (hrow : row ∈ opcodeRows) (c : Cmd) :
    c &&& row.2.2 = row.2.1 ↔ fieldOp c = row.1 ∧ c &&& (row.2.2 &&& 0x00FFFFFF) = 0 := by
  obtain ⟨hlt, hmatch, hmask, hop, hzeros⟩ := opcodeRows_form row hrow
  rw [fieldOp_eq_iff c hlt, ← hmatch]
  generalize row.2.2 &&& 0x00FFFFFF = zeros at hmask hzeros ⊢
  rw [hmask]
  constructor
  · intro h
    constructor
    · rw [← hop, ← h, BitVec.and_assoc, or_and_cancel_left]
    · rw [← hzeros, ← h, BitVec.and_assoc, BitVec.or_comm, or_and_cancel_left]
  · rintro ⟨h, hz⟩
    rw [BitVec.and_or_distrib_left, h, hz]
    exact BitVec.or_zero

/-- One arm of the decoder for each row: a word of the row's opcode with its zero bits clear is refused by nothing but
APARSE's check of its destinations (the last row, goal 33). -/
theorem decode_of_row {row : Nat × Cmd × Cmd} (hrow : row ∈ opcodeRows) {c : Cmd} (hop : fieldOp c = row.1)
    (hzeros : c &&& (row.2.2 &&& 0x00FFFFFF) = 0) (hne : row.1 = 0x3A → fieldRd c ≠ fieldRa c) :
    ∃ i, decode c = .ok i := by
  unfold opcodeRows at hrow
  fin_cases hrow
  on_goal 33 =>
    have hdd : zeroBitsDD c = true := (zeroBitsDD_iff c).2 hzeros
    have hwf : (Instr.aparse (fieldRd c) (fieldRa c)).wellFormed = true := decide_eq_true (hne rfl)
    simp only [decode, hop, requireDistinct_eq_ok_iff, requireZero_eq_ok_iff]
    exact ⟨_, ⟨hdd, rfl⟩, hwf⟩
  all_goals
    simp only [decode, hop, requireZero_eq_ok_iff, zeroBitsZ_iff, zeroBitsD_iff, zeroBitsS_iff, zeroBitsDS_iff,
      zeroBitsDSC_iff, zeroBitsDAB_iff, zeroBitsA_iff, zeroBitsAB_iff, zeroBitsI_iff]
    exact ⟨_, hzeros, rfl⟩

/-- The opcode in an accepted word is its command's. -/
theorem fieldOp_of_decode {c : Cmd} {i : Instr} (h : decode c = .ok i) : fieldOp c = i.opcode := by
  obtain ⟨row, hrow, hopcode, hmatch⟩ := row_of_decode h
  exact hopcode ▸ ((match_row_iff hrow c).1 hmatch).1

theorem fieldRd_eq_fieldRa_iff (c : Cmd) : fieldRd c = fieldRa c ↔ c.extractLsb' 20 4 = c.extractLsb' 16 4 := by
  refine ⟨fun h => ?_, fieldRd_eq_fieldRa⟩
  have hrd : bits c 23 20 = (c.extractLsb' 20 4).toNat := bits_eq_toNat_extractLsb' c 23 20
  have hra : bits c 19 16 = (c.extractLsb' 16 4).toNat := bits_eq_toNat_extractLsb' c 19 16
  have hval := congrArg Fin.val h
  rw [fieldRd, fieldRa, Fin.val_ofNat, Fin.val_ofNat, hrd, hra] at hval
  apply BitVec.eq_of_toNat_eq
  omega

/-- Rows of one opcode are one row. -/
theorem row_unique {row row' : Nat × Cmd × Cmd} (h : row ∈ opcodeRows) (h' : row' ∈ opcodeRows)
    (hop : row'.1 = row.1) : row' = row :=
  List.inj_on_of_nodup_map (f := Prod.fst) (by decide) h' h hop

/-- Settles O11: a word that matches a row has the row's opcode and zero bits, which is what the decoder's arm asks; an
accepted word matches its own command's row, and rows differ in their opcodes. -/
theorem opcodeMapMasks : Obligations.OpcodeMapMasks := by
  intro row hrow c
  rw [ne_eq, ← fieldRd_eq_fieldRa_iff]
  constructor
  · rintro ⟨hmatch, hne⟩
    obtain ⟨hop, hzeros⟩ := (match_row_iff hrow c).1 hmatch
    obtain ⟨i, hdecode⟩ := decode_of_row hrow hop hzeros hne
    exact ⟨i, hdecode, (fieldOp_of_decode hdecode).symm.trans hop⟩
  · rintro ⟨i, hdecode, hopcode⟩
    obtain ⟨row', hrow', hop', hmatch⟩ := row_of_decode hdecode
    refine ⟨row_unique hrow hrow' (hop'.trans hopcode) ▸ hmatch, fun haparse hsame => ?_⟩
    exact decode_aparse_ne_ok ((fieldOp_of_decode hdecode).trans (hopcode.trans haparse)) hsame i hdecode

/-- Settles O13: the eleven words are decoded by evaluation. -/
theorem sampleWordsDecode : Obligations.SampleWordsDecode := by
  unfold Obligations.SampleWordsDecode
  decide

end Sys2Proof.Encoding

namespace Sys2Proof.AssetText

open Sys2Proof.Machine
open Sys2Proof.NameCodec
open Sys2Proof.SymbolCode
open Sys2Proof.SymbolUnit
open Sys2Proof.AssetArith

/-! The decimal helpers (00_scope.md R15). -/

/-- A string of `k` digits has a value of at most `k` digits. -/
theorem decVal_lt {t : List Byte} (h : ∀ b ∈ t, 0x30 ≤ b.toNat ∧ b.toNat ≤ 0x39) : decVal t < 10 ^ t.length := by
  induction t using List.reverseRecOn with
  | nil => decide
  | append_singleton t b ih =>
    have hlt := ih fun c hc => h c (List.mem_append_left _ hc)
    obtain ⟨-, hb⟩ := h b (List.mem_append_right _ (List.mem_singleton_self b))
    rw [decVal_concat, List.length_append, List.length_singleton, Nat.pow_succ]
    omega

/-- Settles O18: a digit string of the value of `dec n` is at least as long, since `dec n` has no leading zero; padding
adds zeros in front. -/
theorem decimalStrings : Obligations.DecimalStrings := fun n =>
  ⟨decimalOf_dec n, fun _ ⟨hne, hdigits⟩ hval =>
    length_le_of_decimalOf (decimalOf_dec n) (List.length_pos_iff.2 hne) (hval ▸ decVal_lt hdigits),
    fun t w hw => ⟨pad_length hw, decVal_pad t w⟩⟩

/-! The lengths of the four texts (20_memory.md R45). -/

theorem nameDecode_length_le (v : Word) : (nameDecode v).length ≤ 13 := by
  rw [nameDecode_length]
  exact (nameLen_spec v).1

theorem scStr_length_le (v : Word) : (scStr v).length ≤ 7 := (codeString_scStr v).1

/-- At most three digits of precision, the comma, and at most seven characters of code. -/
theorem symbolText_length_le (v : Word) : (symbolText v).length ≤ 11 := by
  have hprec := (symbolPrecision v).isLt
  have hdigits := length_le_of_decimalOf (decimalOf_dec (symbolPrecision v).toNat) (k := 3) (by decide) (by omega)
  have hcode := scStr_length_le (symbolCode v)
  rw [symbolText, List.length_append, List.length_cons]
  omega

theorem natAbs_amount_lt (s : State) (r : Reg) : (s.amount r).natAbs < 10 ^ 19 := by
  have hbounds := amount_bounds s r
  omega

/-- The sign, the integer digits, the fraction with its point, the space, and at most seven characters of code. -/
theorem assetText_length_le_parts {a : Int} (ha : a.natAbs < 10 ^ 19) (sym : Word) :
    (assetText a sym).length ≤ 1 + max 1 (19 - sym.toNat % 256)
      + (if sym.toNat % 256 = 0 then 0 else sym.toNat % 256 + 1) + 8 := by
  have hsign := sign_length_le a
  have hint := integerDigits_length_le ha (sym.toNat % 256)
  have hfrac : (if sym.toNat % 256 = 0 then [] else chrDot :: fractionDigits a.natAbs (sym.toNat % 256)).length
      = if sym.toNat % 256 = 0 then 0 else sym.toNat % 256 + 1 := by
    rw [apply_ite List.length, List.length_cons, fractionDigits_length, List.length_nil]
  have hcode := scStr_length_le (symbolCode sym)
  rw [assetText_eq, List.length_append, List.length_append, List.length_append, List.length_cons, hfrac]
  omega

/-- Settles O17: each command leaves the length of its text in `SLEN`. -/
theorem outputBounds : Obligations.OutputBounds := by
  intro s t ra rb
  have hslen : ∀ {txt : List Byte}, txt.length ≤ 512 →
      (Host.Outcome.next ((s.sbOut txt).respond 0) : Answer) = .next t → t.slen.val = txt.length := by
    rintro txt htxt ⟨⟩
    exact State.sbOut_slen_val s txt htxt
  refine ⟨fun hexec => ?_, fun hexec => ?_, fun hexec => ?_, fun hexec => ?_⟩
  · have hlen := nameDecode_length_le (s.reg ra)
    exact (hslen (hlen.trans (by decide)) hexec).trans_le hlen
  · have hlen := scStr_length_le (s.reg ra)
    exact (hslen (hlen.trans (by decide)) hexec).trans_le hlen
  · have hlen := symbolText_length_le (s.reg ra)
    exact (hslen (hlen.trans (by decide)) hexec).trans_le hlen
  · have hmag := natAbs_amount_lt s ra
    have hlen := assetText_length_le hmag (s.reg rb)
    have hparts := assetText_length_le_parts hmag (s.reg rb)
    rw [hslen (hlen.trans (by decide)) hexec]
    refine ⟨hlen, fun hp => ?_, fun hp => ?_⟩ <;> split_ifs at hparts <;> omega

end Sys2Proof.AssetText

namespace Sys2Proof.Commands

open Sys2Proof.Machine
open Sys2Proof.HostAccess
open Sys2Proof.NameCodec
open Sys2Proof.SymbolCode
open Sys2Proof.SymbolUnit
open Sys2Proof.AssetArith
open Sys2Proof.AssetText

/-! What any command can do (40_host_access.md R87, 60_exceptions.md R163): one of seven effects, within the rows of the
command in the tables of destinations, string-changing commands and fault codes. -/

/-- What a command does to the state it started from. -/
inductive Effect where
  /-- It only answers. -/
  | answer (v : Word)
  /-- It writes a register. -/
  | write (rd : Reg) (v : Word)
  /-- It writes an amount and a Symbol, in this order. -/
  | writeAsset (rd rd2 : Reg) (amount symbol : Word)
  /-- It replaces the current string. -/
  | text (t : List Byte)
  /-- It empties the current string. -/
  | clear
  /-- It puts a byte behind the current string. -/
  | append (b : Byte)
  /-- It takes a fault. -/
  | fault (c : FltCode)

namespace Effect

/-- The state the effect leads to, its response included. -/
def apply (s : State) : Effect → State
  | answer v => s.respond v
  | write rd v => (s.setReg rd v).respond 0
  | writeAsset rd rd2 amount symbol => ((s.setReg rd amount).setReg rd2 symbol).respond 0
  | text t => (s.sbOut t).respond 0
  | clear => (s.setSlen 0).respond 0
  | append b => ((s.memWrite s.slen.val b).setSlen (s.slen.val + 1)).respond 0
  | fault c => s.faultEntry c

/-- The effects the tables allow the command `i` in a state of string length `slen`. -/
def Permitted (i : Instr) (slen : Nat) : Effect → Prop
  | answer _ => True
  | write rd _ => rd ∈ destinations i
  | writeAsset rd rd2 _ _ => rd ∈ destinations i ∧ rd2 ∈ destinations i
  | text t => changesString i = true ∧ t.length ≤ 512
  | clear => changesString i = true
  | append _ => changesString i = true ∧ slen < 512
  | fault c => c.number ∈ mayRaise i

end Effect

/-- The command `i`, answering `a` in `s` and `a'` in `s'`, has one and the same permitted effect in both. -/
def SameEffect (i : Instr) (s s' : State) (a a' : Answer) : Prop :=
  ∃ e : Effect, e.Permitted i s.slen.val ∧ a = .next (e.apply s) ∧ a' = .next (e.apply s')

namespace SameEffect

variable {i : Instr} {s s' : State}

theorem answer (v : Word) : SameEffect i s s' (.next (s.respond v)) (.next (s'.respond v)) :=
  ⟨.answer v, trivial, rfl, rfl⟩

theorem write {rd : Reg} (hrd : rd ∈ destinations i) (v : Word) :
    SameEffect i s s' (writeResult rd v s) (writeResult rd v s') :=
  ⟨.write rd v, hrd, rfl, rfl⟩

theorem text (hi : changesString i = true) {t : List Byte} (ht : t.length ≤ 512) :
    SameEffect i s s' (complete (s.sbOut t)) (complete (s'.sbOut t)) :=
  ⟨.text t, ⟨hi, ht⟩, rfl, rfl⟩

theorem raise {c : FltCode} (hc : c.number ∈ mayRaise i) : SameEffect i s s' (raise c s) (raise c s') :=
  ⟨.fault c, hc, rfl, rfl⟩

theorem ite {p : Prop} [Decidable p] {a a' b b' : Answer} (ha : p → SameEffect i s s' a a')
    (hb : ¬p → SameEffect i s s' b b') : SameEffect i s s' (if p then a else b) (if p then a' else b') := by
  split
  case isTrue hp => exact ha hp
  case isFalse hp => exact hb hp

/-- A computation of the same result in both states, whose faults the table lists. -/
theorem orRaise {α : Type} {k k' : α → Answer} {r r' : Except FltCode α} (hr : r' = r)
    (hfault : ∀ c, r = .error c → c.number ∈ mayRaise i) (hk : ∀ v, SameEffect i s s' (k v) (k' v)) :
    SameEffect i s s' (orRaise s r k) (orRaise s' r' k') := by
  subst hr
  cases r' with
  | ok v => exact hk v
  | error c => exact .raise (hfault c rfl)

theorem computed {rd : Reg} (hrd : rd ∈ destinations i) {r r' : Except FltCode Word} (hr : r' = r)
    (hfault : ∀ c, r = .error c → c.number ∈ mayRaise i) :
    SameEffect i s s' (Machine.orRaise s r (fun v => writeResult rd v s))
      (Machine.orRaise s' r' (fun v => writeResult rd v s')) :=
  .orRaise hr hfault (.write hrd)

end SameEffect

/-! The faults of each computation (60_exceptions.md R161). -/

theorem namePack_error {t : List Byte} {acc : Nat} {c : FltCode} (h : namePack t acc = .error c) :
    c = .nameInvalidChar := by
  induction t generalizing acc with
  | nil => cases h
  | cons b t ih =>
    cases hidx : nameIdx b with
    | none =>
      simp only [namePack, hidx] at h
      exact (Except.error.inj h).symm
    | some k =>
      simp only [namePack, hidx] at h
      exact ih h

theorem nameThirteenth_error {v : Word} {t : List Byte} {c : FltCode} (h : nameThirteenth v t = .error c) :
    c.number ∈ [0x10, 0x11, 0x12] := by
  cases t with
  | nil => cases h
  | cons b t =>
    cases hidx : nameIdx b with
    | none =>
      simp only [nameThirteenth, hidx] at h
      cases h
      decide
    | some k =>
      simp only [nameThirteenth, hidx] at h
      split_ifs at h <;> cases h <;> decide

theorem nameEncode_error {t : List Byte} {c : FltCode} (h : nameEncode t = .error c) :
    c.number ∈ [0x10, 0x11, 0x12] := by
  cases hpack : namePack (t.take 12) 0 with
  | error d =>
    simp only [nameEncode, hpack] at h
    cases h
    rw [namePack_error hpack]
    decide
  | ok acc =>
    simp only [nameEncode, hpack] at h
    exact nameThirteenth_error h

theorem scEncode_error {t : List Byte} {c : FltCode} (h : scEncode t = .error c) : c.number ∈ [0x20, 0x21] := by
  rcases accepted_or_codeFault t with haccepted | ⟨f, hfault⟩
  · cases (scEncode_of_accepted haccepted).symm.trans h
  · obtain ⟨d, hd, hf⟩ := scEncode_of_codeFault hfault
    cases hd.symm.trans h
    rw [hf]
    rcases hfault with ⟨rfl, -⟩ | ⟨rfl, -⟩ <;> decide

theorem symbolParse_error {t : List Byte} {c : FltCode} (h : symbolParse t = .error c) :
    c.number ∈ [0x20, 0x21, 0x28, 0x29] := by
  unfold symbolParse at h
  split_ifs at h
  · cases h
    decide
  · cases h
    decide
  · cases hcode : scEncode (after chrComma t) with
    | ok code => simp [hcode] at h
    | error d =>
      simp only [hcode] at h
      cases h
      exact List.mem_append_left [0x28, 0x29] (scEncode_error hcode)

theorem amountParse_error {t : List Byte} {c : FltCode} (h : amountParse t = .error c) : c = .assetInvalidAmount := by
  by_cases htoken : ∃ n p, AmountToken t n p ∧ -2 ^ 63 ≤ n ∧ n ≤ 2 ^ 63 - 1
  · obtain ⟨n, p, hamount, hlo, hhi⟩ := htoken
    cases (amountParse_of_token hamount hlo hhi).symm.trans h
  · exact (Except.error.inj ((amountParse_of_no_token htoken).symm.trans h)).symm

theorem assetParse_error {t : List Byte} {c : FltCode} (h : assetParse t = .error c) :
    c.number ∈ [0x20, 0x21, 0x29, 0x39, 0x3A] := by
  by_cases hspace : countByte t chrSpace = 1
  · rw [assetParse, if_neg (not_not.2 hspace)] at h
    cases hamount : amountParse (before chrSpace t) with
    | error d =>
      rw [hamount] at h
      cases h
      rw [amountParse_error hamount]
      decide
    | ok n =>
      simp only [hamount] at h
      split_ifs at h
      · cases h
        decide
      · cases hcode : scEncode (after chrSpace t) with
        | ok code => simp [hcode] at h
        | error d =>
          simp only [hcode] at h
          cases h
          exact List.mem_append_left [0x29, 0x39, 0x3A] (scEncode_error hcode)
  · cases (assetParse_of_count_ne_one hspace).symm.trans h
    decide

theorem checkedAmount_error {r : Int} {c : FltCode} (h : checkedAmount r = .error c) : c.number ∈ [0x34, 0x35] := by
  unfold checkedAmount at h
  split_ifs at h <;> cases h <;> decide

theorem checkedDiv_error {a k : Int} {c : FltCode} (h : checkedDiv a k = .error c) : c.number ∈ [0x36, 0x37] := by
  unfold checkedDiv at h
  split_ifs at h <;> cases h <;> decide

/-- The check of two Symbols has one fault of its own, in front of those of the computation behind it. -/
theorem sameSymbol_error {a b : Asset} {c d : FltCode} {r : Except FltCode Word} {l : List Byte}
    (hr : ∀ d, r = .error d → d.number ∈ l) (h : sameSymbol a b c r = .error d) : d.number ∈ c.number :: l := by
  unfold sameSymbol at h
  split_ifs at h
  · exact Except.error.inj h ▸ List.mem_cons_self
  · exact List.mem_cons_of_mem _ (hr d h)

/-! The effect of a command is fixed by the registers, the current string and, for SETR and SBPUT, the data word. -/

/-- `s` with other bytes in the buffer and another data word at the port. -/
def altered (m : Memory) (w : Word) (s : State) : State := { s with sb := m, wdata := w }

section Determined

variable {s : State} {m : Memory} {w : Word} (hstring : (altered m w s).sbIn = s.sbIn)
include hstring

/-- A byte of the current string reads the same from both buffers. -/
theorem altered_read {a : Nat} (ha : a < s.slen.val) : m.read a = s.sb.read a := by
  have h : a < s.sbIn.length := (State.sbIn_length s).symm ▸ ha
  have h' : a < (altered m w s).sbIn.length := hstring.symm ▸ h
  calc m.read a = (altered m w s).sbIn[a] := (State.sbIn_getElem _ a h').symm
    _ = s.sbIn[a] := List.getElem_of_eq hstring h'
    _ = s.sb.read a := State.sbIn_getElem s a h

theorem sbget_sameEffect (k : BitVec 16) :
    SameEffect (.sbget k) s (altered m w s) (exec (.sbget k) s) (exec (.sbget k) (altered m w s)) := by
  rcases Nat.lt_or_ge k.toNat s.slen.val with hinside | houtside
  · have hread : (altered m w s).sb.read k.toNat = s.sb.read k.toNat := altered_read hstring hinside
    rw [exec_sbget_of_inside hinside, exec_sbget_of_inside (s := altered m w s) hinside, hread]
    exact .answer _
  · rw [exec_sbget_of_outside houtside, exec_sbget_of_outside (s := altered m w s) houtside]
    exact .raise (c := .sbBounds) (by simp [mayRaise, FltCode.number])

/-- Every command has one permitted effect in all states with the same registers and the same string, if it does not
use the data word or that is the same too. -/
theorem exec_sameEffect {i : Instr} (hw : usesWdata i = true → w = s.wdata) :
    SameEffect i s (altered m w s) (exec i s) (exec i (altered m w s)) :=
  match i with
  | .nop => .answer 0
  | .getr ra => .answer (s.reg ra)
  | .sblen => .answer (BitVec.ofNat 64 s.slen.val)
  | .sbget k => sbget_sameEffect hstring k
  | .sbclr => ⟨.clear, rfl, rfl, rfl⟩
  | .setr rd => by
    obtain rfl := hw rfl
    exact .write (List.mem_singleton_self rd) s.wdata
  | .sbput => by
    obtain rfl := hw rfl
    exact .ite (fun _ => .raise (by decide)) fun _ =>
      .ite (fun hroom => ⟨.append (lowByte s.wdata), ⟨rfl, hroom⟩, rfl, rfl⟩) fun _ => .raise (by decide)
  | .ndec ra => .text rfl ((nameDecode_length_le _).trans (by decide))
  | .scdec ra => .text rfl ((scStr_length_le _).trans (by decide))
  | .syfmt ra => .text rfl ((symbolText_length_le _).trans (by decide))
  | .afmt ra rb => .text rfl ((assetText_length_le (natAbs_amount_lt s ra) _).trans (by decide))
  | .nlen rd _ | .npfx rd _ | .nsfx rd _ | .scvalid rd _ | .sclen rd _ | .sycode rd _ | .syprec rd _ | .syvalid rd _
  | .arange rd _ | .avalid rd _ _ => .write (List.mem_singleton_self rd) _
  | .symk rd _ _ =>
    .ite (fun _ => .raise (List.mem_singleton_self _)) fun _ => .write (List.mem_singleton_self rd) _
  | .aneg rd _ =>
    .ite (fun _ => .raise (List.mem_singleton_self _)) fun _ => .write (List.mem_singleton_self rd) _
  | .nenc rd =>
    .computed (List.mem_singleton_self rd) (congrArg nameEncode hstring) fun _ => nameEncode_error
  | .scenc rd => .computed (List.mem_singleton_self rd) (congrArg scEncode hstring) fun _ => scEncode_error
  | .syparse rd =>
    .computed (List.mem_singleton_self rd) (congrArg symbolParse hstring) fun _ => symbolParse_error
  | .aparse rd rd2 =>
    .orRaise (congrArg assetParse hstring) (fun _ => assetParse_error) fun v =>
      ⟨.writeAsset rd rd2 v.1 v.2, ⟨List.mem_cons_self, List.mem_cons_of_mem rd List.mem_cons_self⟩, rfl, rfl⟩
  | .aadd rd _ _ _ _ | .asub rd _ _ _ _ =>
    .computed (List.mem_singleton_self rd) rfl fun _ => sameSymbol_error fun _ => checkedAmount_error
  | .amul rd _ _ => .computed (List.mem_singleton_self rd) rfl fun _ => checkedAmount_error
  | .adiv rd _ _ => .computed (List.mem_singleton_self rd) rfl fun _ => checkedDiv_error
  | .adiva rd _ _ _ _ =>
    .computed (List.mem_singleton_self rd) rfl fun _ => sameSymbol_error fun _ => checkedDiv_error
  | .acmp rd _ _ _ _ =>
    .computed (List.mem_singleton_self rd) rfl fun _ => sameSymbol_error (l := []) fun _ h => nomatch h

end Determined

/-- Every command answers a next state, by one permitted effect. -/
theorem exec_effect (i : Instr) (s : State) :
    ∃ e : Effect, e.Permitted i s.slen.val ∧ exec i s = .next (e.apply s) := by
  obtain ⟨e, hpermitted, hexec, -⟩ := exec_sameEffect (m := s.sb) (w := s.wdata) (s := s) rfl (i := i) fun _ => rfl
  exact ⟨e, hpermitted, hexec⟩

/-- Settles O5: the fault table is part of what an effect is permitted; every other effect answers fault 0. -/
theorem faultCodesPerCommand : Obligations.FaultCodesPerCommand := by
  intro i s t hexec
  obtain ⟨e, hpermitted, heffect⟩ := exec_effect i s
  cases heffect.symm.trans hexec
  cases e with
  | fault c => exact .inr hpermitted
  | _ => exact .inl rfl

/-- Settles O14: a command that does not use the data word has the same effect with any other, and no effect writes
it. -/
theorem wdataIsIgnored : Obligations.WdataIsIgnored := by
  intro i s w hunused
  obtain ⟨e, -, hexec, hexec'⟩ := exec_sameEffect (m := s.sb) (w := w) (s := s) rfl (i := i)
    fun hused => absurd hused (Bool.eq_false_iff.1 hunused)
  have hcommute : e.apply (altered s.sb w s) = { e.apply s with wdata := w } := by cases e <;> rfl
  exact ⟨e.apply s, hexec, hexec'.trans (congrArg _ hcommute)⟩

/-! What an effect leaves unchanged. -/

theorem reg_of_effect {i : Instr} {s : State} {e : Effect} (h : e.Permitted i s.slen.val) {r : Reg}
    (hr : r ∉ destinations i) : (e.apply s).reg r = s.reg r := by
  have hne : ∀ {rd : Reg}, rd ∈ destinations i → r ≠ rd := fun hrd heq => hr (heq ▸ hrd)
  cases e with
  | write rd v => exact State.setReg_reg_other s rd r v (hne h)
  | writeAsset rd rd2 amount symbol =>
    obtain ⟨hrd, hrd2⟩ := h
    exact (State.setReg_reg_other _ rd2 r symbol (hne hrd2)).trans (State.setReg_reg_other s rd r amount (hne hrd))
  | _ => rfl

theorem sameBuffer_of_effect {i : Instr} {s : State} {e : Effect} (h : e.Permitted i s.slen.val)
    (hi : changesString i = false) : SameBuffer s (e.apply s) := by
  have hnot := Bool.eq_false_iff.1 hi
  cases e with
  | text t => exact absurd h.1 hnot
  | clear => exact absurd h hnot
  | append b => exact absurd h.1 hnot
  | _ => exact ⟨rfl, fun _ => rfl⟩

/-- Only a fault changes `FCODE` and `HALT`, and no fault answers the code 0. -/
theorem fcode_halt_of_effect (s : State) (e : Effect) (h : (e.apply s).fault = 0) :
    (e.apply s).fcode = s.fcode ∧ (e.apply s).halt = s.halt := by
  cases e with
  | fault c => exact absurd h c.number_ne_zero
  | _ => exact ⟨rfl, rfl⟩

/-- Settles O16: the destinations and the string-changing commands are part of what an effect is permitted. -/
theorem onlyDestinationsChange : Obligations.OnlyDestinationsChange := by
  intro i s t hexec
  obtain ⟨e, hpermitted, heffect⟩ := exec_effect i s
  cases heffect.symm.trans hexec
  exact ⟨fun r => reg_of_effect hpermitted, sameBuffer_of_effect hpermitted, by cases e <;> rfl, by cases e <;> rfl,
    fcode_halt_of_effect s e⟩

end Sys2Proof.Commands

namespace Sys2Proof.Stepping

open Sys2Proof.Machine
open Sys2Proof.HostAccess
open Sys2Proof.Encoding
open Sys2Proof.Reset
open Sys2Proof.Commands

/-! What a step can do (60_exceptions.md R165): nothing, reset, ignore a command, refuse it, or run it. -/

/-- A running unit performs the command it decodes. -/
theorem step_of_running {s : State} {c : Cmd} {w : Word} {rest : List HostEvent} {i : Instr} (hrun : s.halt = false)
    (hpending : s.pending = .command c w :: rest) (hdecode : decode c = .ok i) :
    step s = exec i (s.present w rest) := by
  have htake : takeEvent s = .run i (s.present w rest) := by simp [takeEvent, hpending, hrun, hdecode]
  rw [step, htake]

/-- The answer of a step, by the host's next event and by whether the unit is halted. -/
inductive StepCases (s : State) : Answer → Prop where
  | idle (hpending : s.pending = []) : StepCases s (.next s)
  | reset {rest : List HostEvent} (hpending : s.pending = .reset :: rest) : StepCases s (.next (s.resetWith rest))
  | ignored {c : Cmd} {w : Word} {rest : List HostEvent} (hpending : s.pending = .command c w :: rest)
      (hhalt : s.halt = true) : StepCases s (.next (s.present w rest).ignoreCommand)
  | illegal {c : Cmd} {w : Word} {rest : List HostEvent} (hpending : s.pending = .command c w :: rest)
      (hrun : s.halt = false) (hrefused : ∀ i, decode c ≠ .ok i) :
      StepCases s (.next ((s.present w rest).faultEntry .illegalCmd))
  | performs {c : Cmd} {w : Word} {rest : List HostEvent} {i : Instr} (hpending : s.pending = .command c w :: rest)
      (hrun : s.halt = false) (hdecode : decode c = .ok i) : StepCases s (exec i (s.present w rest))

theorem step_cases (s : State) : StepCases s (step s) := by
  match hpending : s.pending with
  | [] => exact step_of_no_event hpending ▸ .idle hpending
  | .reset :: rest => exact step_of_reset hpending ▸ .reset hpending
  | .command c w :: rest =>
    cases hhalt : s.halt with
    | true => exact step_of_halted hhalt hpending ▸ .ignored hpending hhalt
    | false =>
      cases hdecode : decode c with
      | ok i => exact step_of_running hhalt hpending hdecode ▸ .performs hpending hhalt hdecode
      | error e =>
        have hrefused : ∀ i, decode c ≠ .ok i := fun i hok => by cases hok.symm.trans hdecode
        exact step_of_refused hhalt hpending hrefused ▸ .illegal hpending hhalt hrefused

/-- Settles O2: the three cases of a presented command; what the decoder reads is well formed. -/
theorem stepRunsTheDecodedCommand : Obligations.StepRunsTheDecodedCommand := by
  intro s c w rest hpending
  refine ⟨fun hhalt => step_of_halted hhalt hpending, fun hrun e hdecode => ?_, fun hrun i hdecode => ?_⟩
  · exact step_of_refused hrun hpending fun i hok => by cases hok.symm.trans hdecode
  · exact ⟨(wellFormed_and_encode_of_decode hdecode).1, step_of_running hrun hpending hdecode⟩

/-- Settles O3: each case of a step is a next state, a command's by its effect. -/
theorem stepIsTotal : Obligations.StepIsTotal := by
  intro s
  have hcases := step_cases s
  generalize step s = a at hcases ⊢
  cases hcases with
  | performs =>
    obtain ⟨e, -, hexec⟩ := exec_effect _ _
    exact ⟨_, hexec⟩
  | _ => exact ⟨_, rfl⟩

/-! Sound states (10_state.md R24, R25; 20_memory.md R42 to R45). -/

/-- Settles O7: the reset state lists no cell, and no fault has been taken. -/
theorem resetIsSound : Obligations.ResetIsSound where
  buffer := State.reset_sb_wf
  code := .inl rfl
  halted := by decide

/-- Fault entry sets `HALT` with a code of the table, which is not 0. -/
theorem sound_faultEntry {s : State} (hwf : s.sb.wf = true) (c : FltCode) : Sound (s.faultEntry c) where
  buffer := hwf
  code := .inr ⟨c, rfl⟩
  halted := iff_of_true rfl c.number_ne_zero

/-- A permitted effect stores only inside the buffer, and only a fault changes `FCODE` and `HALT`. -/
theorem sound_of_effect {i : Instr} {s : State} {e : Effect} (h : e.Permitted i s.slen.val) (hs : Sound s) :
    Sound (e.apply s) := by
  obtain ⟨hwf, hcode, hhalted⟩ := hs
  cases e with
  | fault c => exact sound_faultEntry hwf c
  | text t =>
    obtain ⟨-, hfits⟩ := h
    exact ⟨Memory.writeAll_wf t ((Nat.zero_add _).trans_le hfits) hwf, hcode, hhalted⟩
  | append b =>
    obtain ⟨-, hroom⟩ := h
    exact ⟨Memory.write_wf hroom hwf, hcode, hhalted⟩
  | _ => exact ⟨hwf, hcode, hhalted⟩

theorem sound_present {s : State} (hs : Sound s) (w : Word) (rest : List HostEvent) : Sound (s.present w rest) :=
  ⟨hs.buffer, hs.code, hs.halted⟩

/-- Settles O6: each case of a step keeps a state sound, a command's because its effect does. -/
theorem everyStepKeepsSound : Obligations.EveryStepKeepsSound := by
  intro s t hs hstep
  have hcases := step_cases s
  generalize step s = a at hcases hstep
  cases hcases with
  | idle => exact Host.Outcome.next.inj hstep ▸ hs
  | reset =>
    cases hstep
    exact ⟨resetIsSound.buffer, resetIsSound.code, resetIsSound.halted⟩
  | ignored =>
    cases hstep
    exact ⟨hs.buffer, hs.code, hs.halted⟩
  | illegal =>
    cases hstep
    exact sound_faultEntry (sound_present hs _ _).buffer .illegalCmd
  | performs =>
    obtain ⟨e, hpermitted, hexec⟩ := exec_effect _ _
    cases hexec.symm.trans hstep
    exact sound_of_effect hpermitted (sound_present hs _ _)

/-! The halted unit (60_exceptions.md R164, R165). -/

theorem run_succ_of_step {s t : State} (h : step s = .next t) (k : Nat) :
    Host.Core.run Sys2Proof.core (k + 1) s = Host.Core.run Sys2Proof.core k t := by
  have hcore : Sys2Proof.core.step s = .next t := h
  simp only [Host.Core.run, hcore]

/-- `t` is halted with the registers, the buffer, the length and the code of `s`. -/
structure KeptHalted (s t : State) : Prop where
  regs : SameRegs s t
  sb : t.sb = s.sb
  slen : t.slen = s.slen
  fcode : t.fcode = s.fcode
  halt : t.halt = true

/-- The last response is the one a halted unit gives to a command. -/
def AnsweredHalted (s : State) : Prop := s.rdata = 0 ∧ s.fault = s.fcode

/-- By induction on the number of steps: nothing presented leaves the state as it is, and an ignored command changes
the response only, to the one that all later commands get too. -/
theorem run_of_halted (k : Nat) {s : State} (hhalt : s.halt = true) (hnoreset : ∀ e ∈ s.pending.take k, e ≠ .reset) :
    ∃ t, Host.Core.run Sys2Proof.core k s = .next t ∧ KeptHalted s t
      ∧ (s.pending.take k ≠ [] ∨ AnsweredHalted s → AnsweredHalted t) := by
  induction k generalizing s with
  | zero => exact ⟨s, rfl, ⟨fun _ => rfl, rfl, rfl, rfl, hhalt⟩, fun h => h.resolve_left (absurd rfl)⟩
  | succ k ih =>
    match hpending : s.pending with
    | [] =>
      obtain ⟨t, hrun, hkept, hanswered⟩ := ih hhalt (by simp [hpending])
      rw [hpending, List.take_nil] at hanswered
      exact ⟨t, (run_succ_of_step (step_of_no_event hpending) k).trans hrun, hkept, hanswered⟩
    | .reset :: rest =>
      rw [hpending] at hnoreset
      exact absurd rfl (hnoreset .reset List.mem_cons_self)
    | .command c w :: rest =>
      rw [hpending, List.take_succ_cons, List.forall_mem_cons] at hnoreset
      obtain ⟨t, hrun, hkept, hanswered⟩ := ih (s := (s.present w rest).ignoreCommand) hhalt hnoreset.2
      exact ⟨t, (run_succ_of_step (step_of_halted hhalt hpending) k).trans hrun,
        ⟨hkept.regs, hkept.sb, hkept.slen, hkept.fcode, hkept.halt⟩, fun _ => hanswered (.inr ⟨rfl, rfl⟩)⟩

/-- Settles O8: what a run of the halted unit keeps, and the answer it gives from its first command on. -/
theorem haltedUntilReset : Obligations.HaltedUntilReset := by
  intro k s hhalt hnoreset
  obtain ⟨t, hrun, ⟨hregs, hsb, hslen, hfcode, hhalt'⟩, hanswered⟩ := run_of_halted k hhalt hnoreset
  refine ⟨t, hrun, hregs, hsb, hslen, hfcode, hhalt', fun hsome => ?_⟩
  obtain ⟨hrdata, hfault⟩ := hanswered (.inl hsome)
  exact ⟨hrdata, hfault.trans hfcode⟩

/-! What a host can see (10_state.md R28; 20_memory.md R41). -/

/-- States that agree on all a command can read differ in unreadable bytes of the buffer only. -/
theorem eq_altered_of_sameObservable {s s' : State} (h : SameObservable s s') : s' = altered s'.sb s.wdata s := by
  obtain ⟨hregs, hslen, -, hfcode, hhalt, hpending, hwdata, hrdata, hfault⟩ := h
  have hx : s'.x = s.x := Vector.ext fun k hk => hregs ⟨k, hk⟩
  cases s'
  cases s
  simp only at hx hslen hfcode hhalt hpending hwdata hrdata hfault
  subst hx hslen hfcode hhalt hpending hwdata hrdata hfault
  rfl

theorem sbIn_of_sameObservable {s s' : State} (h : SameObservable s s') : s'.sbIn = s.sbIn := by
  have hlen : s'.sbIn.length = s.sbIn.length := by rw [State.sbIn_length, State.sbIn_length, h.slen]
  refine List.ext_getElem hlen fun k hk hk' => ?_
  rw [State.sbIn_getElem, State.sbIn_getElem]
  exact h.string k (State.sbIn_length s ▸ hk')

theorem sameObservable_present {s s' : State} (h : SameObservable s s') (w : Word) (rest : List HostEvent) :
    SameObservable (s.present w rest) (s'.present w rest) :=
  ⟨h.regs, h.slen, h.string, h.fcode, h.halt, rfl, rfl, h.rdata, h.fault⟩

/-- A permitted effect makes a new string of what it is given and of readable bytes. -/
theorem sameObservable_of_effect {i : Instr} {s s' : State} {e : Effect} (hwf : s.sb.wf = true) (hwf' : s'.sb.wf = true)
    (h : SameObservable s s') (hpermitted : e.Permitted i s.slen.val) : SameObservable (e.apply s) (e.apply s') := by
  obtain ⟨hregs, hslen, hstring, hfcode, hhalt, hpending, hwdata, -, -⟩ := h
  cases e with
  | answer v => exact ⟨hregs, hslen, hstring, hfcode, hhalt, hpending, hwdata, rfl, rfl⟩
  | write rd v =>
    refine ⟨fun r => ?_, hslen, hstring, hfcode, hhalt, hpending, hwdata, rfl, rfl⟩
    simp only [Effect.apply, State.respond_reg, State.setReg_reg, hregs r]
  | writeAsset rd rd2 amount symbol =>
    refine ⟨fun r => ?_, hslen, hstring, hfcode, hhalt, hpending, hwdata, rfl, rfl⟩
    simp only [Effect.apply, State.respond_reg, State.setReg_reg, hregs r]
  | text t =>
    obtain ⟨-, hfits⟩ := hpermitted
    refine ⟨hregs, rfl, fun a ha => ?_, hfcode, hhalt, hpending, hwdata, rfl, rfl⟩
    have hlen : ((Effect.text t).apply s).slen.val = t.length := State.sbOut_slen_val s t hfits
    have hin : a < t.length := hlen ▸ ha
    simp only [Effect.apply, State.respond_sb, State.sbOut_read s hwf t hfits, State.sbOut_read s' hwf' t hfits,
      dif_pos hin]
  | clear => exact ⟨hregs, rfl, fun a ha => absurd ha (Nat.not_lt_zero a), hfcode, hhalt, hpending, hwdata, rfl, rfl⟩
  | append b =>
    obtain ⟨-, hroom⟩ := hpermitted
    have hlen : ((Effect.append b).apply s).slen.val = s.slen.val + 1 :=
      setSlen_slen_val (s.memWrite s.slen.val b) hroom
    refine ⟨hregs, by simp only [Effect.apply, hslen, State.respond_slen, State.setSlen_slen], fun a ha => ?_, hfcode,
      hhalt, hpending, hwdata, rfl, rfl⟩
    simp only [Effect.apply, State.respond_sb, State.setSlen_sb, State.memWrite_sb, Memory.read_write hwf,
      Memory.read_write hwf', hslen]
    split_ifs with hlast
    · rfl
    · exact hstring a (by omega)
  | fault c => exact ⟨hregs, hslen, hstring, rfl, rfl, hpending, hwdata, rfl, rfl⟩

/-- Settles O15: both states take the same case of a step, and a command has the same effect in both. -/
theorem bytesBeyondTheStringAreUnobservable : Obligations.BytesBeyondTheStringAreUnobservable := by
  intro s s' t hwf hwf' h hstep
  have hcases := step_cases s
  generalize step s = a at hcases hstep
  cases hcases with
  | idle hpending =>
    cases hstep
    exact ⟨s', step_of_no_event (h.pending.trans hpending), h⟩
  | reset hpending =>
    cases hstep
    exact ⟨_, step_of_reset (h.pending.trans hpending), fun _ => rfl, rfl, fun _ _ => rfl, rfl, rfl, rfl, rfl, rfl, rfl⟩
  | ignored hpending hhalt =>
    cases hstep
    exact ⟨_, step_of_halted (h.halt.trans hhalt) (h.pending.trans hpending), h.regs, h.slen, h.string, h.fcode, h.halt,
      rfl, rfl, rfl, h.fcode⟩
  | illegal hpending hrun hrefused =>
    cases hstep
    exact ⟨_, step_of_refused (h.halt.trans hrun) (h.pending.trans hpending) hrefused, h.regs, h.slen, h.string, rfl,
      rfl, rfl, rfl, rfl, rfl⟩
  | @performs c w rest i hpending hrun hdecode =>
    have hpresent := sameObservable_present h w rest
    have heq := eq_altered_of_sameObservable hpresent
    have hstring := sbIn_of_sameObservable hpresent
    rw [heq] at hstring
    obtain ⟨e, hpermitted, hexec, hexec'⟩ := exec_sameEffect hstring (i := i) fun _ => rfl
    cases hexec.symm.trans hstep
    rw [← heq] at hexec'
    exact ⟨_, (step_of_running (h.halt.trans hrun) (h.pending.trans hpending) hdecode).trans hexec',
      sameObservable_of_effect (i := i) hwf hwf' hpresent hpermitted⟩

end Sys2Proof.Stepping

namespace Sys2Proof.NameCodec

open Sys2Proof.Machine
open Sys2Proof.HostAccess
open Sys2Proof.NameScan
open Sys2Proof.AssetText

/-! The two alphabet tables (41_name_codec.md R91). -/

theorem nameIdx_nameChr {k : Nat} (hk : k < 32) : nameIdx (nameChr k) = some k := by
  revert k
  decide

theorem nameChr_of_nameIdx {b : Byte} {k : Nat} (h : nameIdx b = some k) : nameChr k = b := by
  have hb := b.isLt
  apply BitVec.eq_of_toNat_eq
  unfold nameIdx at h
  split_ifs at h with hdot hdigit hletter <;> obtain rfl := Option.some.inj h
  · exact hdot.symm
  · rw [nameChr, if_neg (by omega), if_pos (by omega), BitVec.toNat_ofNat]
    omega
  · rw [nameChr, if_neg (by omega), if_neg (by omega), BitVec.toNat_ofNat]
    omega

/-- Settles O26: the first table and its inversion are checked index by index, the second table case by case. -/
theorem nameAlphabet : Obligations.NameAlphabet :=
  ⟨by decide, fun _ => nameIdx_nameChr, fun _ _ h => ⟨nameIdx_lt h, nameChr_of_nameIdx h⟩⟩

/-! The slots of a value (R90). -/

theorem slot_lt (v : Word) (i : Nat) : slot v i < 32 := by
  unfold slot
  split
  · exact Nat.mod_lt _ (by decide)
  · exact (Nat.mod_lt _ (by decide)).trans (by decide : 16 < 32)

theorem slot_twelve_lt (v : Word) : slot v 12 < 16 := Nat.mod_lt _ (by decide)

theorem slot_eq_extractLsb' (v : Word) {i : Nat} (hi : i < 12) : slot v i = (v.extractLsb' (59 - 5 * i) 5).toNat := by
  rw [slot, if_pos hi, slotLo, if_pos hi, BitVec.extractLsb'_toNat, Nat.shiftRight_eq_div_pow]

theorem slot_twelve_eq_extractLsb' (v : Word) : slot v 12 = (v.extractLsb' 0 4).toNat := by
  rw [slot, if_neg (by decide), BitVec.extractLsb'_toNat, Nat.shiftRight_zero]

/-- Bit `m` of a value is bit `m` of slot 12 for `m` below 4, and bit `(m − 4) % 5` of slot `11 − (m − 4) / 5` above. -/
theorem eq_of_slots {v w : Word} (h : ∀ i, i < 13 → slot v i = slot w i) : v = w := by
  apply BitVec.eq_of_getLsbD_eq
  intro m hm
  rcases Nat.lt_or_ge m 4 with hlow | hhigh
  · have hbit := congrArg (Nat.testBit · m) (h 12 (by decide))
    simpa [slot_twelve_testBit, hlow] using hbit
  · obtain ⟨q, k, hk, rfl⟩ : ∃ q k, k < 5 ∧ m = 4 + 5 * q + k := ⟨(m - 4) / 5, (m - 4) % 5, by omega, by omega⟩
    have hplace : 59 - 5 * (11 - q) = 4 + 5 * q := by omega
    have hbit := congrArg (Nat.testBit · k) (h (11 - q) (by omega))
    simpa only [slot_testBit (show 11 - q < 12 by omega), hplace, decide_eq_true hk, Bool.true_and] using hbit

/-- Settles O27: each slot is its field of bits, and every bit lies in one of the fields. -/
theorem nameSlotsTileTheWord : Obligations.NameSlotsTileTheWord :=
  ⟨fun v _ => slot_eq_extractLsb' v, slot_twelve_eq_extractLsb', fun _ _ => eq_of_slots⟩

/-- A number with the properties of `name_len` is `name_len`. -/
theorem nameLen_eq_of_last {v : Word} {n : Nat} (hn : n ≤ 13) (hzero : ∀ i, n ≤ i → i < 13 → slot v i = 0)
    (hlast : ∀ i, i + 1 = n → slot v i ≠ 0) : nameLen v = n := by
  obtain ⟨hlen, hzero', hlast'⟩ := nameLen_spec v
  rcases Nat.lt_trichotomy (nameLen v) n with hlt | heq | hgt
  · exact absurd (hzero' (n - 1) (by omega) (by omega)) (hlast (n - 1) (by omega))
  · exact heq
  · exact absurd (hzero (nameLen v - 1) (by omega) (by omega)) (hlast' (nameLen v - 1) (by omega))

/-! What NENC accepts, and what NDEC makes of it. -/

/-- NENC accepts no other strings: each of the others has an offending position. -/
theorem accepted_of_nameEncode {t : List Byte} {v : Word} (h : nameEncode t = .ok v) : AcceptedName t := by
  have hnot : ∀ {c : FltCode}, nameEncode t ≠ .error c := fun herror => by cases h.symm.trans herror
  have hfirst : FirstTwelveNamed t := fun i hi hi12 hnone => hnot (nameEncode_of_unnamed hi hi12 hnone)
  have hthirteenth : (hlen : 12 < t.length) → ∃ k, nameIdx t[12] = some k ∧ k ≤ 15 := fun hlen => by
    obtain ⟨k, hk⟩ := Option.ne_none_iff_exists'.1 fun hnone =>
      hnot (nameEncode_of_unnamed_thirteenth hfirst hlen hnone)
    exact ⟨k, hk, Nat.le_of_not_lt fun hlarge => hnot (nameEncode_of_large_thirteenth hfirst hlen hk hlarge)⟩
  have hlength : t.length ≤ 13 := Nat.le_of_not_lt fun hlong => by
    obtain ⟨k, hk, hsmall⟩ := hthirteenth (by omega)
    exact hnot (nameEncode_of_fourteenth hfirst (by omega) hk hsmall hlong)
  refine ⟨hlength, fun i hi => ?_⟩
  rcases Nat.lt_or_ge i 12 with hlt | hge
  · obtain ⟨k, hk⟩ := Option.ne_none_iff_exists'.1 (hfirst i hi hlt)
    exact ⟨k, hk, fun h12 => absurd h12 hlt.ne⟩
  · obtain rfl : i = 12 := by omega
    obtain ⟨k, hk, hsmall⟩ := hthirteenth hi
    exact ⟨k, hk, fun _ => hsmall⟩

theorem nameChr_slotOf {t : List Byte} (h : AcceptedName t) {i : Nat} (hi : i < t.length) :
    nameChr (slotOf t i) = t[i] := by
  obtain ⟨k, hk, -⟩ := h.2 i hi
  rw [slotOf_of_nameIdx hi hk, nameChr_of_nameIdx hk]

/-- Only a dot has the index 0. -/
theorem slotOf_eq_zero_iff {t : List Byte} (h : AcceptedName t) {i : Nat} (hi : i < t.length) :
    slotOf t i = 0 ↔ t[i] = 0x2E := by
  obtain ⟨k, hk, -⟩ := h.2 i hi
  rw [slotOf_of_nameIdx hi hk]
  constructor
  · rintro rfl
    exact (nameChr_of_nameIdx hk).symm
  · intro hdot
    rw [hdot] at hk
    exact (Option.some.inj hk).symm

/-- A character behind the string without its trailing dots is a dot. -/
theorem getElem_of_rdropWhile_length_le {p : Byte → Bool} {t : List Byte} {i : Nat} (hi : i < t.length)
    (hle : (t.rdropWhile p).length ≤ i) : p t[i] = true := by
  have happend := List.rdropWhile_append_rtakeWhile (p := p) (l := t)
  have hi' : i < (t.rdropWhile p ++ t.rtakeWhile p).length := happend.symm ▸ hi
  have hmem : (t.rdropWhile p ++ t.rtakeWhile p)[i] ∈ t.rtakeWhile p := by
    rw [List.getElem_append_right hle]
    exact List.getElem_mem _
  have helem : (t.rdropWhile p ++ t.rtakeWhile p)[i] = t[i] := List.getElem_of_eq happend hi'
  exact helem ▸ List.mem_rtakeWhile_imp hmem

/-- NDEC of the packed value gives the characters up to the last that is no dot. -/
theorem nameDecode_of_accepted {t : List Byte} (h : AcceptedName t) :
    nameDecode (nameWord (slotOf t)) = t.rdropWhile (fun b => b == 0x2E) := by
  obtain ⟨hlen13, -⟩ := id h
  have hinitial : t.rdropWhile (fun b => b == 0x2E) <+: t := List.rdropWhile_prefix _ t
  have hle := hinitial.length_le
  have hslot : ∀ i, i < 13 → slot (nameWord (slotOf t)) i = slotOf t i := fun i hi =>
    slot_nameWord (slotOf_lt t) (slotOf_twelve_lt h) hi
  have hlen : nameLen (nameWord (slotOf t)) = (t.rdropWhile (fun b => b == 0x2E)).length := by
    refine nameLen_eq_of_last (by omega) (fun i hi hi13 => ?_) (fun i hi => ?_)
    · rw [hslot i hi13]
      rcases Nat.lt_or_ge i t.length with hin | hout
      · have hdot := getElem_of_rdropWhile_length_le hin hi
        exact (slotOf_eq_zero_iff h hin).2 (by simpa using hdot)
      · exact slotOf_of_length_le hout
    · rw [hslot i (by omega), ne_eq, slotOf_eq_zero_iff h (by omega), ← hinitial.getElem (by omega)]
      have hne : t.rdropWhile (fun b => b == 0x2E) ≠ [] := List.ne_nil_of_length_pos (by omega)
      have hlast := List.rdropWhile_last_not _ t hne
      simp only [List.getLast_eq_getElem, ← hi, Nat.add_sub_cancel] at hlast
      simpa using hlast
  apply List.ext_getElem
  · rw [nameDecode_length, hlen]
  · intro i hi hi'
    rw [nameDecode_getElem _ hi, hslot i (by omega), nameChr_slotOf h (by omega), hinitial.getElem hi']

/-! NENC of what NDEC writes. -/

theorem accepted_nameDecode (v : Word) : AcceptedName (nameDecode v) := by
  refine ⟨nameDecode_length_le v, fun i hi => ?_⟩
  rw [nameDecode_getElem v hi]
  refine ⟨slot v i, nameIdx_nameChr (slot_lt v i), ?_⟩
  rintro rfl
  exact Nat.le_of_lt_succ (slot_twelve_lt v)

theorem slotOf_nameDecode (v : Word) {i : Nat} (hi : i < 13) : slotOf (nameDecode v) i = slot v i := by
  rcases Nat.lt_or_ge i (nameDecode v).length with hin | hout
  · refine slotOf_of_nameIdx hin ?_
    rw [nameDecode_getElem v hin, nameIdx_nameChr (slot_lt v i)]
  · obtain ⟨-, hzero, -⟩ := nameLen_spec v
    rw [slotOf_of_length_le hout, hzero i (nameDecode_length v ▸ hout) hi]

theorem nameEncode_nameDecode (v : Word) : nameEncode (nameDecode v) = .ok v := by
  have haccepted := accepted_nameDecode v
  rw [nameEncode_of_accepted haccepted]
  refine congrArg _ (eq_of_slots fun i hi => ?_)
  rw [slot_nameWord (slotOf_lt _) (slotOf_twelve_lt haccepted) hi, slotOf_nameDecode v hi]

/-! The commands one after the other. -/

/-- A computed register result that answers no fault was computed without one. -/
theorem eq_of_computed {i : Instr} {rd : Reg} {s t : State} {r : Except FltCode Word}
    (hexec : exec i s = orRaise s r (fun v => writeResult rd v s)) (hnext : exec i s = .next t) (hfault : t.fault = 0) :
    ∃ v, r = .ok v ∧ t = (s.setReg rd v).respond 0 := by
  rcases orRaise_cases (hexec.symm.trans hnext) with ⟨v, hok, hv⟩ | ⟨c, -, rfl⟩
  · exact ⟨v, hok, (Host.Outcome.next.inj hv).symm⟩
  · exact absurd hfault c.number_ne_zero

/-- The next command reads the string a command wrote. -/
theorem sbIn_sbOut_respond {s : State} (hwf : s.sb.wf = true) {t : List Byte} (ht : t.length ≤ 512) (v : Word) :
    ((s.sbOut t).respond v).sbIn = t :=
  State.sbIn_sbOut s hwf t ht

/-- Settles O31: NDEC gives an accepted string back but for its trailing dots, and NENC accepts whatever NDEC writes. -/
theorem nameRoundTrip : Obligations.NameRoundTrip := by
  refine ⟨fun rd s t hwf hexec hfault => ?_, fun ra rd s hwf => ?_⟩
  · obtain ⟨v, hencode, rfl⟩ := eq_of_computed (exec_nenc rd s) hexec hfault
    have haccepted := accepted_of_nameEncode hencode
    obtain rfl : nameWord (slotOf s.sbIn) = v := Except.ok.inj ((nameEncode_of_accepted haccepted).symm.trans hencode)
    refine ⟨_, exec_ndec rd _, rfl, ?_⟩
    rw [State.respond_reg, State.setReg_reg_self]
    exact (sbIn_sbOut_respond hwf ((nameDecode_length_le _).trans (by decide)) 0).trans
      (nameDecode_of_accepted haccepted)
  · have hstring := sbIn_sbOut_respond hwf ((nameDecode_length_le (s.reg ra)).trans (by decide)) 0
    obtain ⟨u, hexec, honly⟩ := exec_nenc_of_ok rd (hstring.symm ▸ nameEncode_nameDecode (s.reg ra))
    exact ⟨_, u, exec_ndec ra s, hexec, honly.rest.fault, honly.result⟩

end Sys2Proof.NameCodec

namespace Sys2Proof.NameScan

open Sys2Proof.Machine
open Sys2Proof.HostAccess
open Sys2Proof.NameCodec
open Sys2Proof.Encoding

/-! NPFX's scan finds the last followed dot and clears the slots from it on (42_name_scan.md R101). -/

/-- The value with every bit below slot `d` cleared. -/
def cutAt (v : Word) (d : Nat) : Word := (v >>> slotLo d) <<< slotLo d

/-- With leading dots let in, the dots NSFX can cut at are the followed ones. -/
theorem isSeparator_separate_iff {v : Word} {i : Nat} :
    isSeparator .separate v i = true ↔ FollowedDot v i :=
  isSeparator_iff.trans (and_iff_left (.inl rfl))

theorem prefixScan_succ (v : Word) (n : Nat) (seen : Bool) : prefixScan v (List.range (n + 1)).reverse seen
    = if slot v n = 0 then (if seen then cutAt v n else prefixScan v (List.range n).reverse seen)
      else prefixScan v (List.range n).reverse true := by
  rw [List.range_succ, List.reverse_concat]
  rfl

/-- The scan of the slots below `n` cuts at the last followed dot among them, if it is told whether a non-dot stands
from `n` on. -/
theorem prefixScan_eq (v : Word) {n : Nat} (hn : n ≤ 13) {seen : Bool} (hseen : seen = decide (n < nameLen v)) :
    prefixScan v (List.range n).reverse seen
      = ((List.range n).reverse.find? (isSeparator .separate v)).elim v (cutAt v) := by
  obtain ⟨-, hzero, hlast⟩ := nameLen_spec v
  induction n generalizing seen with
  | zero => rfl
  | succ n ih =>
    have hfollowed : isSeparator .separate v n = true ↔ slot v n = 0 ∧ n + 1 < nameLen v := by
      rw [isSeparator_separate_iff, followedDot_iff]
    rw [prefixScan_succ, List.range_succ, List.reverse_concat, hseen]
    by_cases hdot : slot v n = 0
    · rw [if_pos hdot]
      by_cases hright : n + 1 < nameLen v
      · rw [if_pos (decide_eq_true hright), List.find?_cons_of_pos (hfollowed.2 ⟨hdot, hright⟩), Option.elim_some]
      · have hnot : nameLen v ≠ n + 1 := fun h => hlast n h.symm hdot
        rw [if_neg (by simpa using hright), List.find?_cons_of_neg fun h => hright (hfollowed.1 h).2]
        exact ih (by omega) (decide_eq_decide.2 (by omega))
    · have hlen : n < nameLen v := Nat.lt_of_not_le fun hle => hdot (hzero n hle hn)
      rw [if_neg hdot, List.find?_cons_of_neg fun h => hdot (hfollowed.1 h).1]
      exact ih (by omega) (decide_eq_true hlen).symm

theorem namePrefix_eq (v : Word) :
    namePrefix v = ((List.range 13).reverse.find? (isSeparator .separate v)).elim v (cutAt v) := by
  have hlen := (nameLen_spec v).1
  exact prefixScan_eq v le_rfl (decide_eq_false (by omega)).symm

theorem namePrefix_of_last {v : Word} {d : Nat} (hd : FollowedDot v d) (hlast : ∀ j, d < j → ¬FollowedDot v j) :
    namePrefix v = cutAt v d := by
  have hfind : (List.range 13).reverse.find? (isSeparator .separate v) = some d :=
    find?_reverse_range_eq_some (isSeparator_separate_iff.2 hd)
      ((lt_twelve_of_followedDot hd).trans (by decide)) fun j hdj _ =>
        Bool.eq_false_of_not_eq_true fun h => hlast j hdj (isSeparator_separate_iff.1 h)
  rw [namePrefix_eq, hfind, Option.elim_some]

theorem namePrefix_of_none {v : Word} (hnone : ∀ d, ¬FollowedDot v d) : namePrefix v = v := by
  have hfind : (List.range 13).reverse.find? (isSeparator .separate v) = none :=
    List.find?_eq_none.2 fun d _ h => hnone d (isSeparator_separate_iff.1 h)
  rw [namePrefix_eq, hfind, Option.elim_none]

theorem cutAt_getLsbD (v : Word) (d : Nat) {m : Nat} (hm : m < 64) :
    (cutAt v d).getLsbD m = (decide (slotLo d ≤ m) && v.getLsbD m) := by
  rw [cutAt, BitVec.getLsbD_shiftLeft, BitVec.getLsbD_ushiftRight, decide_eq_true hm, Bool.true_and, ← decide_not]
  by_cases hlo : slotLo d ≤ m
  · simp [hlo]
  · simp [hlo, Nat.lt_of_not_le hlo]

/-- The cut keeps the slots up to `d` and clears the others. -/
theorem slot_cutAt (v : Word) {d j : Nat} (hd : d < 12) (hj : j < 13) :
    slot (cutAt v d) j = if j ≤ d then slot v j else 0 := by
  have hlo : slotLo d = 59 - 5 * d := if_pos hd
  apply Nat.eq_of_testBit_eq
  intro k
  rcases Nat.lt_or_ge j 12 with hlt | hge
  · rw [slot_testBit hlt]
    by_cases hk : k < 5
    · rw [cutAt_getLsbD v d (by omega), hlo]
      split_ifs with hjd
      · rw [slot_testBit hlt, decide_eq_true (show 59 - 5 * d ≤ 59 - 5 * j + k by omega), Bool.true_and]
      · rw [decide_eq_false (show ¬59 - 5 * d ≤ 59 - 5 * j + k by omega), Bool.false_and, Bool.and_false,
          Nat.zero_testBit]
    · split_ifs with hjd <;> simp [slot_testBit hlt, hk]
  · obtain rfl : j = 12 := by omega
    rw [slot_twelve_testBit, if_neg (by omega), Nat.zero_testBit, Bool.and_eq_false_imp, decide_eq_true_eq]
    intro hk
    rw [cutAt_getLsbD v d (by omega), hlo, decide_eq_false (by omega), Bool.false_and]

/-- The slots of the value before the last followed dot: slot `d` itself is a dot. -/
theorem slot_cutAt_of_followedDot {v : Word} {d j : Nat} (hd : FollowedDot v d) (hj : j < 13) :
    slot (cutAt v d) j = if j < d then slot v j else 0 := by
  rw [slot_cutAt v (lt_twelve_of_followedDot hd) hj]
  rcases Nat.lt_trichotomy j d with hlt | rfl | hgt
  · rw [if_pos hlt.le, if_pos hlt]
  · rw [if_pos le_rfl, if_neg (lt_irrefl j)]
    exact hd.1
  · rw [if_neg (by omega), if_neg (by omega)]

theorem exec_npfx (rd ra : Reg) (s : State) : exec (.npfx rd ra) s = writeResult rd (namePrefix (s.reg ra)) s := rfl

/-- Settles O33: the scan cuts at the last followed dot, and leaves a value without one as it is. -/
theorem npfxCutsAtTheLastFollowedDot : Obligations.NpfxCutsAtTheLastFollowedDot := by
  refine ⟨decode_npfx_word, fun rd ra s => ?_⟩
  obtain ⟨t, hexec, honly⟩ := writeResult_onlyReg s rd (namePrefix (s.reg ra))
  refine ⟨t, _, exec_npfx rd ra s ▸ hexec, honly, fun d hd hlast j hj => ?_, namePrefix_of_none⟩
  rw [namePrefix_of_last hd hlast]
  exact slot_cutAt_of_followedDot hd hj

/-! The two parts of a name (42_name_scan.md section 5). -/

/-- A value whose slots are 0 behind the last character of another is no longer than it. -/
theorem nameLen_le_of_slots {v w : Word} (h : ∀ i, nameLen v ≤ i → i < 13 → slot w i = 0) :
    nameLen w ≤ nameLen v := by
  obtain ⟨hlen, -, hlast⟩ := nameLen_spec w
  by_contra hlonger
  exact hlast (nameLen w - 1) (by omega) (h (nameLen w - 1) (by omega) (by omega))

theorem nameLen_namePrefix_le (v : Word) : nameLen (namePrefix v) ≤ nameLen v := by
  obtain ⟨-, hzero, -⟩ := nameLen_spec v
  rw [namePrefix_eq]
  cases hfind : (List.range 13).reverse.find? (isSeparator .separate v) with
  | none => exact le_rfl
  | some d =>
    have hd := isSeparator_separate_iff.1 (List.find?_some hfind)
    refine nameLen_le_of_slots fun i hi hi13 => ?_
    rw [Option.elim_some, slot_cutAt_of_followedDot hd hi13]
    split_ifs
    · exact hzero i hi hi13
    · rfl

theorem slot_afterDot_of_nameLen_le {v : Word} {d i : Nat} (hd : d < 12) (hi : nameLen v ≤ d + 1 + i) (hi13 : i < 13) :
    slot (afterDot v d) i = 0 := by
  obtain ⟨-, hzero, -⟩ := nameLen_spec v
  rw [slot_afterDot v hd hi13]
  split_ifs with hmoved
  · exact hzero _ hi (by omega)
  · rfl

theorem nameLen_nameSuffix_le (p : SuffixLeadingDots) (v : Word) : nameLen (nameSuffix p v) ≤ nameLen v := by
  unfold nameSuffix
  split
  case h_1 => exact le_rfl
  case h_2 d hfind =>
    have hd := (isSeparator_iff.1 (List.find?_some hfind)).1
    exact nameLen_le_of_slots fun i hi hi13 =>
      slot_afterDot_of_nameLen_le (lt_twelve_of_followedDot hd) (by omega) hi13

/-- Behind a followed dot stands the rest of the name. -/
theorem nameLen_afterDot {v : Word} {d : Nat} (hd : FollowedDot v d) : nameLen (afterDot v d) = nameLen v - (d + 1) := by
  obtain ⟨hlen, -, hlast⟩ := nameLen_spec v
  have hd12 := lt_twelve_of_followedDot hd
  obtain ⟨-, hright⟩ := followedDot_iff.1 hd
  refine nameLen_eq_of_last (by omega) (fun i hi hi13 => slot_afterDot_of_nameLen_le hd12 (by omega) hi13) fun i hi => ?_
  rw [slot_afterDot v hd12 (by omega), if_pos (by omega)]
  exact hlast (d + 1 + i) (by omega)

/-- The characters of a name before a followed dot, the dot, and the characters behind it. -/
theorem nameDecode_split {v : Word} {d : Nat} (hd : FollowedDot v d) :
    nameDecode v = (List.range d).map (fun i => nameChr (slot v i)) ++ 0x2E :: nameDecode (afterDot v d) := by
  obtain ⟨hlen, -, -⟩ := nameLen_spec v
  obtain ⟨hdot, hright⟩ := followedDot_iff.1 hd
  have hparts : nameLen v = d + (nameLen (afterDot v d) + 1) := by
    rw [nameLen_afterDot hd]
    omega
  have hchr : nameChr (slot v d) = 0x2E := by
    rw [hdot]
    rfl
  rw [nameDecode, hparts, List.range_add, List.map_append, List.range_succ_eq_map, nameDecode]
  simp only [List.map_cons, List.map_map, Nat.add_zero, hchr]
  congr 2
  refine List.map_congr_left fun i hi => ?_
  have hi' := List.mem_range.1 hi
  rw [slot_afterDot v (lt_twelve_of_followedDot hd) (by omega), if_pos (by omega)]
  simp only [Function.comp_apply, Nat.succ_eq_add_one, Nat.add_assoc, Nat.add_comm 1]

/-- Settles O35: both parts end where the name ends at the latest, and a last followed dot that is not leading is where
NPFX and NSFX both cut. -/
theorem nameSplitsAtItsLastDot : Obligations.NameSplitsAtItsLastDot := by
  refine fun p v => ⟨nameLen_namePrefix_le v, nameLen_nameSuffix_le p v, fun d hd hleading hlast => ?_⟩
  rw [nameSuffix_of_last ⟨hd, .inr hleading⟩ fun j hj hseparator => hlast j hj hseparator.1,
    namePrefix_of_last hd hlast, nameDecode_split hd]
  congr 1
  refine List.map_congr_left fun i hi => ?_
  have hi' := List.mem_range.1 hi
  have hd12 := lt_twelve_of_followedDot hd
  rw [slot_cutAt_of_followedDot hd (by omega), if_pos hi']

end Sys2Proof.NameScan

namespace Sys2Proof.SymbolCode

open Sys2Proof.Machine
open Sys2Proof.HostAccess
open Sys2Proof.NameCodec
open Sys2Proof.SymbolUnit
open Sys2Proof.AssetText

/-! A word is its eight bytes (43_symbol_code.md R110), and a code is the packing of its string up to byte 7. -/

theorem eq_of_scBytes {v w : Word} (h : ∀ i, i < 8 → scByte v i = scByte w i) : v = w := by
  apply BitVec.eq_of_getLsbD_eq
  intro m hm
  obtain ⟨i, k, hk, rfl⟩ : ∃ i k, k < 8 ∧ m = 8 * i + k := ⟨m / 8, m % 8, by omega, by omega⟩
  have hbit := congrArg (BitVec.getLsbD · k) (h i (by omega))
  simpa only [scByte_getLsbD, decide_eq_true hk, Bool.true_and] using hbit

theorem accepted_of_scEncode {t : List Byte} {v : Word} (h : scEncode t = .ok v) : AcceptedCode t := by
  refine (accepted_or_codeFault t).resolve_right fun ⟨f, hfault⟩ => ?_
  obtain ⟨c, herror, -⟩ := scEncode_of_codeFault hfault
  cases h.symm.trans herror

/-- Letters are no zero bytes, so the string of a packed code ends where the packed string does. -/
theorem scStr_scPack {t : List Byte} (h : AcceptedCode t) : scStr (scPack t) = t := by
  obtain ⟨hlen, hupper⟩ := h
  have hscLen : scLen (scPack t) = t.length := by
    refine scLen_eq_of_leading hlen (fun i hi => ?_) fun hlt => ?_
    · rw [scByte_scPack t (by omega), List.getD_eq_getElem _ _ hi]
      exact ne_zero_of_upper (hupper _ (List.getElem_mem hi))
    · rw [scByte_scPack t (by omega), List.getD_eq_default _ _ le_rfl]
  apply List.ext_getElem
  · rw [scStr_length, hscLen]
  · intro i hi hi'
    rw [scStr_getElem _ hi, scByte_scPack t (by omega), List.getD_eq_getElem _ _ hi']

theorem accepted_scStr {p : ScValidByte7} {v : Word} (h : scValid p v = true) : AcceptedCode (scStr v) := by
  obtain ⟨-, hletters, -, -⟩ := scValid_eq_true_iff.1 h
  refine ⟨scStr_length_le v, fun b hb => ?_⟩
  obtain ⟨i, hi, rfl⟩ := List.getElem_of_mem hb
  rw [scStr_getElem v hi]
  exact hletters i (scStr_length v ▸ hi)

/-- Packing the string of a valid code gives its first seven bytes back: those behind the letters are zero. -/
theorem scByte_scPack_scStr {p : ScValidByte7} {v : Word} (h : scValid p v = true) {i : Nat} (hi : i < 7) :
    scByte (scPack (scStr v)) i = scByte v i := by
  obtain ⟨-, -, hzeros, -⟩ := scValid_eq_true_iff.1 h
  rw [scByte_scPack _ (by omega)]
  rcases Nat.lt_or_ge i (scStr v).length with hin | hout
  · rw [List.getD_eq_getElem _ _ hin, scStr_getElem v hin]
  · rw [List.getD_eq_default _ _ hout]
    exact ((hzeros i hi).resolve_left (scStr_length v ▸ hout).not_gt).symm

theorem scByte_scPack_scStr_seven (v : Word) : scByte (scPack (scStr v)) 7 = 0 := by
  rw [scByte_scPack _ (by decide), List.getD_eq_default _ _ (scStr_length_le v)]

theorem scByte_and_lowBytes (v : Word) {i : Nat} (hi : i < 8) :
    scByte (v &&& 0x00FFFFFFFFFFFFFF) i = if i < 7 then scByte v i else 0 := by
  have hmask : ∀ m, (0x00FFFFFFFFFFFFFF : Word).getLsbD m = decide (m < 56) := fun m => by
    rw [← BitVec.testBit_toNat]
    exact Nat.testBit_two_pow_sub_one 56 m
  apply BitVec.eq_of_getLsbD_eq
  intro k hk
  rw [scByte_getLsbD, BitVec.getLsbD_and, hmask]
  split_ifs with hlow
  · rw [scByte_getLsbD, decide_eq_true (show 8 * i + k < 56 by omega), Bool.and_true]
  · rw [decide_eq_false (show ¬8 * i + k < 56 by omega), Bool.and_false, Bool.and_false]
    exact BitVec.getLsbD_zero.symm

/-- Packing the string of a valid code clears byte 7. -/
theorem scPack_scStr {p : ScValidByte7} {v : Word} (h : scValid p v = true) :
    scPack (scStr v) = v &&& 0x00FFFFFFFFFFFFFF := by
  refine eq_of_scBytes fun i hi => ?_
  rw [scByte_and_lowBytes v hi]
  split_ifs with hlow
  · exact scByte_scPack_scStr h hlow
  · obtain rfl : i = 7 := by omega
    exact scByte_scPack_scStr_seven v

/-- Under CHECK a valid code has no byte 7 to lose. -/
theorem scPack_scStr_of_check {v : Word} (h : scValid .check v = true) : scPack (scStr v) = v := by
  obtain ⟨-, -, -, hbyte7⟩ := scValid_eq_true_iff.1 h
  refine eq_of_scBytes fun i hi => ?_
  rcases Nat.lt_or_ge i 7 with hlow | hhigh
  · exact scByte_scPack_scStr h hlow
  · obtain rfl : i = 7 := by omega
    rw [scByte_scPack_scStr_seven, hbyte7.resolve_right (by decide)]

/-- Settles O40: the string of a packed code is the string packed, and the string of a valid code is accepted. -/
theorem symbolCodeRoundTrip : Obligations.SymbolCodeRoundTrip := by
  refine ⟨fun rd s t hwf hexec hfault => ?_, fun p ra rd s hwf hvalid => ?_⟩
  · obtain ⟨v, hencode, rfl⟩ := eq_of_computed (exec_scenc rd s) hexec hfault
    have haccepted := accepted_of_scEncode hencode
    obtain rfl : scPack s.sbIn = v := Except.ok.inj ((scEncode_of_accepted haccepted).symm.trans hencode)
    refine ⟨_, exec_scdec rd _, rfl, ?_⟩
    rw [State.respond_reg, State.setReg_reg_self]
    exact (sbIn_sbOut_respond hwf ((scStr_length_le _).trans (by decide)) 0).trans (scStr_scPack haccepted)
  · have hstring := sbIn_sbOut_respond hwf ((scStr_length_le (s.reg ra)).trans (by decide)) 0
    have hencode : scEncode ((s.sbOut (scStr (s.reg ra))).respond 0).sbIn = .ok (scPack (scStr (s.reg ra))) := by
      rw [hstring, scEncode_of_accepted (accepted_scStr hvalid)]
    obtain ⟨u, hexec, honly⟩ := exec_scenc_of_ok rd hencode
    refine ⟨_, u, exec_scdec ra s, hexec, honly.rest.fault, honly.result.trans (scPack_scStr hvalid), ?_⟩
    rintro rfl
    exact honly.result.trans (scPack_scStr_of_check hvalid)

end Sys2Proof.SymbolCode

namespace Sys2Proof.SymbolUnit

open Sys2Proof.Machine
open Sys2Proof.HostAccess
open Sys2Proof.NameCodec
open Sys2Proof.SymbolCode
open Sys2Proof.Encoding
open Sys2Proof.AssetText

/-! SYMK: a code moved up by a byte over a precision byte (44_symbol.md R121). -/

theorem exec_symk_of_not_byte {rc : Reg} {s : State} (rd ra : Reg) (h : 255 < (s.reg rc).toNat) :
    exec (.symk rd ra rc) s = .next (faulted 0x03 s) :=
  (if_pos h).trans (raise_eq_faulted .operandRange s)

theorem exec_symk_of_byte {rc : Reg} {s : State} (rd ra : Reg) (h : (s.reg rc).toNat ≤ 255) :
    exec (.symk rd ra rc) s = writeResult rd (symbolOf (s.reg ra) (s.reg rc)) s :=
  if_neg (Nat.not_lt.2 h)

/-- Below bit 8 stands the precision, above it the code without its last byte. -/
theorem symbolOf_getLsbD (code : Word) {p : Word} (hp : p.toNat ≤ 255) {m : Nat} (hm : m < 64) :
    (symbolOf code p).getLsbD m = if m < 8 then p.getLsbD m else code.getLsbD (m - 8) := by
  rw [symbolOf, BitVec.getLsbD_or, BitVec.getLsbD_shiftLeft, decide_eq_true hm, Bool.true_and]
  split_ifs with hlow
  · rw [decide_eq_true hlow, Bool.not_true, Bool.false_and, Bool.false_or]
  · have hzero : p.getLsbD m = false := by
      rw [← BitVec.testBit_toNat]
      refine Nat.testBit_lt_two_pow (hp.trans_lt ?_)
      calc 255 < 2 ^ 8 := by decide
        _ ≤ 2 ^ m := Nat.pow_le_pow_right (by decide) (Nat.le_of_not_lt hlow)
    rw [decide_eq_false hlow, Bool.not_false, Bool.true_and, hzero, Bool.or_false]

theorem symbolPrecision_symbolOf (code : Word) {p : Word} (hp : p.toNat ≤ 255) :
    symbolPrecision (symbolOf code p) = lowByte p := by
  apply BitVec.eq_of_getLsbD_eq
  intro k hk
  rw [symbolPrecision, lowByte, lowByte, BitVec.getLsbD_setWidth, BitVec.getLsbD_setWidth,
    symbolOf_getLsbD code hp (by omega), if_pos hk]

theorem symbolOf_high (code : Word) {p : Word} (hp : p.toNat ≤ 255) :
    (symbolOf code p).extractLsb' 8 56 = code.extractLsb' 0 56 := by
  apply BitVec.eq_of_getLsbD_eq
  intro k hk
  rw [BitVec.getLsbD_extractLsb', BitVec.getLsbD_extractLsb', symbolOf_getLsbD code hp (by omega), if_neg (by omega),
    Nat.add_sub_cancel_left, Nat.zero_add]

/-- Settles O41: SYMK checks the precision, then is a register result. -/
theorem symkComposes : Obligations.SymkComposes := by
  refine ⟨decode_symk_word, fun rd ra rc s => ⟨exec_symk_of_not_byte rd ra, fun hbyte => ?_⟩⟩
  obtain ⟨t, hexec, honly⟩ := writeResult_onlyReg s rd (symbolOf (s.reg ra) (s.reg rc))
  refine ⟨t, _, (exec_symk_of_byte rd ra hbyte).trans hexec, honly, ?_, symbolOf_high _ hbyte⟩
  rw [← symbolPrecision_toNat, symbolPrecision_symbolOf _ hbyte, lowByte_toNat hbyte]

/-! A Symbol put together from its parts (44_symbol.md section 7). -/

theorem precisionWord_toNat_le (v : Word) : (zext64 (symbolPrecision v)).toNat ≤ 255 := by
  have hbyte := (symbolPrecision v).isLt
  rw [zext64, BitVec.toNat_setWidth_of_le (by decide)]
  omega

theorem symbolOf_parts (v : Word) : symbolOf (symbolCode v) (zext64 (symbolPrecision v)) = v := by
  apply BitVec.eq_of_getLsbD_eq
  intro m hm
  rw [symbolOf_getLsbD _ (precisionWord_toNat_le v) hm]
  split_ifs with hlow
  · rw [zext64, symbolPrecision, lowByte, BitVec.getLsbD_setWidth, BitVec.getLsbD_setWidth, decide_eq_true hm,
      decide_eq_true hlow, Bool.true_and, Bool.true_and]
  · rw [symbolCode, BitVec.getLsbD_ushiftRight, Nat.add_sub_cancel' (Nat.le_of_not_lt hlow)]

/-- SYCODE and SYPREC take the Symbol apart, and SYMK puts it together, if the parts do not overwrite each other or the
Symbol. -/
theorem symk_of_parts {ra rb rc : Reg} (rd : Reg) (s : State) (hab : rb ≠ ra) (hbc : rc ≠ rb) :
    ∃ t u w, exec (.sycode rb ra) s = .next t ∧ exec (.syprec rc ra) t = .next u ∧ exec (.symk rd rb rc) u = .next w
      ∧ w.fault = 0 ∧ w.reg rd = s.reg ra := by
  obtain ⟨t, hsycode, htOnly⟩ := writeResult_onlyReg s rb (symbolCode (s.reg ra))
  obtain ⟨u, hsyprec, huOnly⟩ := writeResult_onlyReg t rc (zext64 (symbolPrecision (t.reg ra)))
  have hra : t.reg ra = s.reg ra := htOnly.others ra hab.symm
  have hrb : u.reg rb = symbolCode (s.reg ra) := (huOnly.others rb hbc.symm).trans htOnly.result
  have hrc : u.reg rc = zext64 (symbolPrecision (s.reg ra)) := hra ▸ huOnly.result
  have hbyte : (u.reg rc).toNat ≤ 255 := hrc ▸ precisionWord_toNat_le _
  obtain ⟨w, hsymk, hwOnly⟩ := writeResult_onlyReg u rd (symbolOf (u.reg rb) (u.reg rc))
  refine ⟨t, u, w, exec_sycode rb ra s ▸ hsycode, exec_syprec rc ra t ▸ hsyprec,
    (exec_symk_of_byte rd rb hbyte).trans hsymk, hwOnly.rest.fault, ?_⟩
  rw [hwOnly.result, hrb, hrc, symbolOf_parts]

/-! A number has one decimal string (00_scope.md R15). -/

/-- Digit strings of one length and one value are equal, digit by digit from the last. -/
theorem eq_of_decVal {t u : List Byte} (ht : ∀ b ∈ t, 0x30 ≤ b.toNat ∧ b.toNat ≤ 0x39)
    (hu : ∀ b ∈ u, 0x30 ≤ b.toNat ∧ b.toNat ≤ 0x39) (hlen : t.length = u.length) (hval : decVal t = decVal u) :
    t = u := by
  induction t using List.reverseRecOn generalizing u with
  | nil => exact (List.length_eq_zero_iff.1 hlen.symm).symm
  | append_singleton t b ih =>
    rcases List.eq_nil_or_concat' u with rfl | ⟨u, c, rfl⟩
    · simp at hlen
    · rw [decVal_concat, decVal_concat] at hval
      obtain ⟨hblo, hbhi⟩ := ht b (List.mem_append_right _ (List.mem_singleton_self b))
      obtain ⟨hclo, hchi⟩ := hu c (List.mem_append_right _ (List.mem_singleton_self c))
      obtain rfl : b = c := BitVec.eq_of_toNat_eq (by omega)
      rw [ih (fun x hx => ht x (List.mem_append_left _ hx)) (fun x hx => hu x (List.mem_append_left _ hx))
        (by simpa using hlen) (by omega)]

theorem length_le_of_decimalOf_of_digits {d t : List Byte} {n : Nat} (hd : DecimalOf d n) (ht : Digits t)
    (hval : decVal t = n) : d.length ≤ t.length := by
  obtain ⟨hne, hdigits⟩ := ht
  exact length_le_of_decimalOf hd (List.length_pos_iff.2 hne) (hval ▸ decVal_lt hdigits)

theorem decimalOf_unique {d d' : List Byte} {n : Nat} (hd : DecimalOf d n) (hd' : DecimalOf d' n) : d = d' := by
  obtain ⟨hdigits, hval, -⟩ := id hd
  obtain ⟨hdigits', hval', -⟩ := id hd'
  exact eq_of_decVal hdigits.2 hdigits'.2 (le_antisymm (length_le_of_decimalOf_of_digits hd hdigits' hval')
    (length_le_of_decimalOf_of_digits hd' hdigits hval)) (hval.trans hval'.symm)

/-! SYFMT of what SYPARSE accepted (44_symbol.md R125, R126). -/

/-- An accepted string is a precision and a code around one comma, packed into the Symbol. -/
theorem parts_of_symbolParse {t : List Byte} {v : Word} (h : symbolParse t = .ok v) :
    ∃ p c, t = p ++ chrComma :: c ∧ Digits p ∧ decVal p ≤ 255 ∧ AcceptedCode c
      ∧ v = scPack (BitVec.ofNat 8 (decVal p) :: c) := by
  have hnot : ∀ {e : FltCode}, symbolParse t ≠ .error e := fun herror => by cases h.symm.trans herror
  have hcount : countByte t chrComma = 1 := not_not.1 fun hne => hnot (symbolParse_of_count_ne_one hne)
  rcases parts_of_countByte_le_one hcount.le with hnone | ⟨p, c, rfl, hp, hc⟩
  · exact absurd (List.count_eq_zero.2 hnone) (by rw [countByte] at hcount; omega)
  · obtain ⟨hdigits, hbyte⟩ := not_not.1 fun hbad => hnot (symbolParse_of_bad_precision hp hc hbad)
    have haccepted : AcceptedCode c := (accepted_or_codeFault c).resolve_right fun ⟨f, hfault⟩ => by
      obtain ⟨e, herror, -⟩ := symbolParse_of_codeFault hp hc hdigits hbyte hfault
      exact hnot herror
    exact ⟨p, c, rfl, hdigits, hbyte, haccepted,
      Except.ok.inj (h.symm.trans (symbolParse_of_accepted hp hc hdigits hbyte haccepted))⟩

theorem symbolCode_scPack (b : Byte) {c : List Byte} (hc : c.length ≤ 7) : symbolCode (scPack (b :: c)) = scPack c :=
  eq_of_scBytes fun i hi => (codeValue_symbolCode_scPack b hc i hi).trans (scByte_scPack c hi).symm

/-- The text of a packed Symbol is the string it was packed from, if that had no leading zeros. -/
theorem symbolText_scPack {p c : List Byte} (hp : DecimalOf p (decVal p)) (hbyte : decVal p ≤ 255)
    (hc : AcceptedCode c) : symbolText (scPack (BitVec.ofNat 8 (decVal p) :: c)) = p ++ chrComma :: c := by
  have hprec : (symbolPrecision (scPack (BitVec.ofNat 8 (decVal p) :: c))).toNat = decVal p := by
    rw [symbolPrecision_toNat, scPack_cons_low_byte hbyte]
  rw [symbolText, hprec, symbolCode_scPack _ hc.1, scStr_scPack hc, decimalOf_unique (decimalOf_dec _) hp]

/-- Settles O47: an accepted string without leading zeros is the text of its Symbol, and a Symbol is its code over its
precision. -/
theorem symbolRoundTrip : Obligations.SymbolRoundTrip := by
  refine ⟨fun rd s t hwf hexec hfault hzeros => ?_, fun ra rb rc rd s hab hbc => symk_of_parts rd s hab hbc⟩
  obtain ⟨v, hparse, rfl⟩ := eq_of_computed (exec_syparse rd s) hexec hfault
  obtain ⟨p, c, hstring, hdigits, hbyte, haccepted, rfl⟩ := parts_of_symbolParse hparse
  refine ⟨_, exec_syfmt rd _, rfl, ?_⟩
  rw [State.respond_reg, State.setReg_reg_self, hstring,
    ← symbolText_scPack ⟨hdigits, rfl, hzeros p c hstring⟩ hbyte haccepted]
  exact sbIn_sbOut_respond hwf ((symbolText_length_le _).trans (by decide)) 0

end Sys2Proof.SymbolUnit

namespace Sys2Proof.AssetArith

open Sys2Proof.Machine
open Sys2Proof.HostAccess
open Sys2Proof.Commands

/-! Amounts in range stay in range (45_asset_arith.md section 8). -/

/-- The state a command leads to, with destination `rd`, holds an amount in range there unless it faulted, and the fault
is neither 0x37 nor 0x38. -/
def KeepsRange (rd : Reg) (t : State) : Prop :=
  (t.fault = 0 → (t.reg rd).toInt.natAbs ≤ 2 ^ 62 - 1) ∧ t.fault ≠ 0x37 ∧ t.fault ≠ 0x38

/-- A computation whose values are in range, with neither of the two faults. -/
def RangeSafe (r : Except FltCode Word) : Prop :=
  (∀ v, r = .ok v → v.toInt.natAbs ≤ 2 ^ 62 - 1) ∧ ∀ c, r = .error c → c.number ≠ 0x37 ∧ c.number ≠ 0x38

theorem keepsRange_of_computed {i : Instr} {rd : Reg} {s t : State} {r : Except FltCode Word} (hr : RangeSafe r)
    (hexec : exec i s = orRaise s r (fun v => writeResult rd v s)) (hnext : exec i s = .next t) : KeepsRange rd t := by
  obtain ⟨hok, herror⟩ := hr
  rcases orRaise_cases (hexec.symm.trans hnext) with ⟨v, hv, hwrite⟩ | ⟨c, hc, rfl⟩
  · obtain rfl := Host.Outcome.next.inj hwrite
    refine ⟨fun _ => ?_, (by decide : (0 : Byte) ≠ 0x37), (by decide : (0 : Byte) ≠ 0x38)⟩
    rw [State.respond_reg, State.setReg_reg_self]
    exact hok v hv
  · exact ⟨fun h => absurd h c.number_ne_zero, herror c hc⟩

theorem rangeSafe_error {c : FltCode} (hc : c.number ≠ 0x37 ∧ c.number ≠ 0x38) : RangeSafe (.error c) :=
  ⟨fun _ => nofun, fun _ herror => Except.error.inj herror ▸ hc⟩

/-- The check of the two Symbols adds one fault. -/
theorem rangeSafe_sameSymbol {r : Except FltCode Word} (hr : RangeSafe r) (a b : Asset) {c : FltCode}
    (hc : c.number ≠ 0x37 ∧ c.number ≠ 0x38) : RangeSafe (sameSymbol a b c r) := by
  unfold sameSymbol
  split_ifs
  · exact rangeSafe_error hc
  · exact hr

theorem rangeSafe_ok {n : Int} (h : n.natAbs ≤ 2 ^ 62 - 1) : RangeSafe (.ok (u64 n)) := by
  refine ⟨fun v hv => ?_, fun c hc => by cases hc⟩
  rw [← Except.ok.inj hv, u64_toInt (by omega) (by omega)]
  exact h

theorem rangeSafe_checkedAmount (r : Int) : RangeSafe (checkedAmount r) := by
  rcases Int.lt_or_le (2 ^ 62 - 1) r with hgt | hle
  · rw [checkedAmount_of_gt hgt]
    exact rangeSafe_error (by decide)
  rcases Int.lt_or_le r (-(2 ^ 62 - 1)) with hlt | hge
  · rw [checkedAmount_of_lt hlt]
    exact rangeSafe_error (by decide)
  · rw [checkedAmount_of_inRange hge hle]
    exact rangeSafe_ok (by omega)

/-- A quotient is no larger than its dividend, and −2^63 is no amount in range. -/
theorem rangeSafe_checkedDiv {a : Int} (ha : a.natAbs ≤ 2 ^ 62 - 1) (k : Int) : RangeSafe (checkedDiv a k) := by
  by_cases hk : k = 0
  · rw [checkedDiv_of_zero hk]
    exact rangeSafe_error (by decide)
  · rw [checkedDiv_of_fits hk (by omega)]
    refine rangeSafe_ok ?_
    calc (Int.tdiv a k).natAbs = a.natAbs / k.natAbs := Int.natAbs_tdiv a k
      _ ≤ a.natAbs := Nat.div_le_self _ _
      _ ≤ 2 ^ 62 - 1 := ha

/-- Settles O57: the range check bounds AADD, ASUB and AMUL; ADIV and ANEG do not increase the magnitude. The premise on
`x[rc]` is not needed. -/
theorem amountsStayInRange : Obligations.AmountsStayInRange := by
  intro rd ra rb rc re s t hra _
  rw [← amount_eq_toInt] at hra
  simp only [List.forall_mem_cons, List.not_mem_nil, false_imp_iff, implies_true, and_true]
  refine ⟨?_, ?_, ?_, ?_, ?_⟩
  · exact keepsRange_of_computed (rangeSafe_sameSymbol (rangeSafe_checkedAmount _) _ _ (by decide))
      (exec_aadd rd ra rb rc re s)
  · exact keepsRange_of_computed (rangeSafe_sameSymbol (rangeSafe_checkedAmount _) _ _ (by decide))
      (exec_asub rd ra rb rc re s)
  · exact keepsRange_of_computed (rangeSafe_checkedAmount _) (exec_amul rd ra rc s)
  · exact keepsRange_of_computed (rangeSafe_checkedDiv hra _) (exec_adiv rd ra rc s)
  · exact keepsRange_of_computed (rangeSafe_ok (by rwa [Int.natAbs_neg]))
      (exec_aneg_of_not_min (s := s) (ra := ra) rd (by omega))

end Sys2Proof.AssetArith

namespace Sys2Proof.AssetText

open Sys2Proof.Machine
open Sys2Proof.HostAccess
open Sys2Proof.NameCodec
open Sys2Proof.SymbolCode
open Sys2Proof.SymbolUnit
open Sys2Proof.AssetArith

/-! APARSE of what AFMT writes (46_asset_text.md section 4). -/

/-- The digits on both sides of the point, read together, are a digit string. -/
theorem digits_integer_append_fraction (mag p : Nat) : Digits (dec (mag / 10 ^ p) ++ fractionDigits mag p) := by
  obtain ⟨hne, hdigits⟩ := (decimalOf_dec (mag / 10 ^ p)).1
  exact ⟨List.append_ne_nil_of_left_ne_nil hne _, fun b hb =>
    (List.mem_append.1 hb).elim (hdigits b) (fractionDigits_digits mag p b)⟩

/-- The amount part is the sign and the digits of the magnitude, with a point put in at every precision but 0. -/
theorem amountToken_amountText (a : Int) (p : Nat) : AmountToken (amountText a p) a p := by
  have hdigits := digits_integer_append_fraction a.natAbs p
  have hval := decVal_integer_append_fraction a.natAbs p
  refine ⟨(if a < 0 then [chrMinus] else []) ++ dec (a.natAbs / 10 ^ p), fractionDigits a.natAbs p, ?_, ?_⟩
  · rw [amountText, fractionText_eq]
    by_cases hp : p = 0
    · rw [if_pos hp, hp, List.append_nil]
      exact .inl ⟨rfl, fractionDigits_zero _, rfl⟩
    · rw [if_neg hp]
      exact .inr ⟨rfl, (fractionDigits_length _ _).symm⟩
  · rw [List.append_assoc]
    split_ifs with hneg
    · refine .inr ⟨dec (a.natAbs / 10 ^ p) ++ fractionDigits a.natAbs p, rfl, hdigits, ?_⟩
      rw [hval]
      omega
    · rw [List.nil_append]
      refine .inl ⟨hdigits, ?_⟩
      rw [hval]
      omega

theorem no_space_of_digits {t : List Byte} (h : ∀ b ∈ t, 0x30 ≤ b.toNat ∧ b.toNat ≤ 0x39) : chrSpace ∉ t :=
  fun hmem => absurd (h _ hmem) (by decide)

theorem no_space_in_amountText (a : Int) (p : Nat) : chrSpace ∉ amountText a p := by
  have hsign : chrSpace ∉ (if a < 0 then [chrMinus] else []) := by split_ifs <;> decide
  have hint : chrSpace ∉ dec (a.natAbs / 10 ^ p) := no_space_of_digits (decimalOf_dec _).1.2
  have hfrac : chrSpace ∉ fractionText a.natAbs p := by
    rw [fractionText_eq]
    split_ifs
    · exact List.not_mem_nil
    · exact List.not_mem_cons_of_ne_of_not_mem (by decide) (no_space_of_digits (fractionDigits_digits _ _))
  simp only [amountText, List.mem_append, not_or]
  exact ⟨⟨hsign, hint⟩, hfrac⟩

theorem no_space_of_accepted {t : List Byte} (h : AcceptedCode t) : chrSpace ∉ t := fun hmem =>
  absurd (h.2 _ hmem).1 (by decide)

/-- A Symbol with a valid code is its precision byte packed before the string of its code. -/
theorem scPack_precision_scStr {v : Word} (h : scValid .check (symbolCode v) = true) :
    scPack (BitVec.ofNat 8 (symbolPrecision v).toNat :: scStr (symbolCode v)) = v := by
  refine eq_of_scBytes fun i hi => ?_
  rw [BitVec.ofNat_toNat, BitVec.setWidth_eq]
  cases i with
  | zero => rw [scByte_scPack_cons_zero, symbolPrecision_eq_scByte_zero]
  | succ i => rw [scByte_scPack_cons_succ _ _ hi, scPack_scStr_of_check h, scByte_symbolCode]

theorem assetParse_assetText {a : Int} (hlo : -2 ^ 63 ≤ a) (hhi : a < 2 ^ 63) {sym : Word}
    (h : scValid .check (symbolCode sym) = true) : assetParse (assetText a sym) = .ok (u64 a, sym) := by
  have haccepted := accepted_scStr h
  have hprec := (symbolPrecision sym).isLt
  rw [assetText, assetParse_of_accepted (no_space_in_amountText a _) (no_space_of_accepted haccepted)
    (amountToken_amountText a _) hlo (by omega) (by omega) haccepted, scPack_precision_scStr h]

/-- Settles O60: the text is an amount token and an accepted code around one space, and stands for what it was made
from. -/
theorem assetTextRoundTrip : Obligations.AssetTextRoundTrip := by
  intro ra rb rd rd2 s hwf hne hvalid
  obtain ⟨hlo, hhi⟩ := amount_bounds s ra
  have hfits := (assetText_length_le (natAbs_amount_lt s ra) (s.reg rb)).trans (by decide : 266 ≤ 512)
  have hparse : assetParse ((s.sbOut (assetText (s.amount ra) (s.reg rb))).respond 0).sbIn
      = .ok (u64 (s.amount ra), s.reg rb) := by
    rw [sbIn_sbOut_respond hwf hfits, assetParse_assetText hlo hhi (scValid_iff_validCode.2 hvalid)]
  obtain ⟨u, hexec, hrd, hrd2, -, -, hrest, -⟩ := exec_aparse_of_ok hne hparse
  exact ⟨_, u, exec_afmt ra rb s, hexec, hrest.fault, hrd.trans (u64_s64 _), hrd2⟩

end Sys2Proof.AssetText
